-- ==== Sys2Proof/Word.lean ====
section
/-! DEFINITION. The words of the block: bytes, the 64-bit port word, endpoint numbers and request handles. -/

namespace Sys2Proof

/-- One byte: every register, FIFO and buffer access moves one (20_memory.md R57). -/
abbrev Byte := BitVec 8

/-- A port word or a setup word: 64 bits, byte i being bits [8i+7 : 8i] (30_encoding.md R63). -/
abbrev Word := BitVec 64

/-- An endpoint number as the ports and INDEX carry it: four bits (30_encoding.md R70, 10_state.md R29). -/
abbrev EpNum := BitVec 4

/-- A request handle or a driver id as a port word carries it: sixteen bits (30_encoding.md R70). -/
abbrev Handle := BitVec 16

end Sys2Proof
end

