-- ==== Sys2Proof/Config.lean ====
section
/-! DEFINITION. The implementation parameters of 00_scope.md R6 as plain data (State carries one record of them and no
step writes it), the values 95_test_vectors.md section 1 gives them, and the free values. -/

namespace Sys2Proof

/-- The parameters the document leaves OPEN (00_scope.md R6). A model takes them as arguments: they stand in State, so
that a statement about every state is a statement about every choice of them. -/
structure Params where
  /-- `NUM_EP`, the number of endpoints, EP0 included (D2). -/
  numEp : Nat
  /-- `FIFO_SIZE[e]`, the capacity of endpoint e's FIFO in bytes (D3). -/
  fifoSizes : List Nat
  /-- `EP0_MAXP`, the value EP0's max-packet register is reset to (D3). -/
  ep0Maxp : BitVec 11
  /-- `NUM_REQ`, the size of the request-record pool (D15). -/
  numReq : Nat
  /-- `REG_BASE`, the physical base address of the register block (D5). -/
  regBase : Nat
  /-- `SELF_POWERED_INIT`, the reset value of the self-powered status bit (D37, D38). -/
  selfPoweredInit : Bool
  /-- `FORWARD_CONFIG`: SET_CONFIGURATION and SET_INTERFACE go to the driver (93_implementation_defined.md U9). -/
  forwardConfig : Bool
  deriving DecidableEq, Repr

/-- `FIFO_SIZE[e]`; an endpoint that does not exist has no FIFO. -/
def Params.fifoSize (p : Params) (e : EpNum) : Nat := p.fifoSizes.getD e.toNat 0

/-- The bounds 00_scope.md R6 puts on the parameters. The bound on `NUM_REQ` is the width of a handle (R70). -/
def Params.wf (p : Params) : Bool :=
  2 ≤ p.numEp && p.numEp ≤ 8 && p.fifoSizes.length == p.numEp && p.fifoSizes.all (1 ≤ ·) &&
    8 ≤ p.ep0Maxp.toNat && p.ep0Maxp.toNat ≤ p.fifoSize 0 && 1 ≤ p.numReq && p.numReq ≤ 65536

/-- The endpoint numbers 0 .. `NUM_EP`-1, ascending (10_state.md R15). -/
def Params.endpoints (p : Params) : List EpNum := (List.range p.numEp).map (BitVec.ofNat 4)

/-- The endpoint numbers 1 .. `NUM_EP`-1, ascending (43_dispatcher.md R147, 44_lifecycle.md R158). -/
def Params.dataEndpoints (p : Params) : List EpNum :=
  (List.range (p.numEp - 1)).map fun i => BitVec.ofNat 4 (i + 1)

/-- The bits of EP_EVT and EP_EVT_EN that exist; the others are reserved and read 0 (10_state.md R27, R28). -/
def Params.epMask (p : Params) : BitVec 8 := BitVec.ofNat 8 (2 ^ p.numEp - 1)

/-- The parameter values 95_test_vectors.md section 1 uses. DESIGN CHOICE (log 3): the spec leaves every one OPEN. -/
def Params.vectors : Params where
  numEp := 3
  fifoSizes := [64, 64, 64]
  ep0Maxp := 8
  numReq := 4
  regBase := 0
  selfPoweredInit := false
  forwardConfig := true

/-- The byte the n-th read without a stated value returns: a read of an empty FIFO, a reserved offset, or an indexed
register with INDEX ≥ NUM_EP (93_implementation_defined.md U2, U3: `any value`). No body: nothing constrains it (log 10). -/
opaque Config.freeByte : Nat → Byte

end Sys2Proof
end

