-- ==== Sys2Proof/Syntax.lean ====
section
/-! DEFINITION. The operations of the block, one constructor per row of spec/opcode_table.json: 13 setup requests, 14
client commands, 8 bus events, 10 internal operations (30_encoding.md R63, R68, R71, R73, R74). -/

namespace Sys2Proof

/-- Success and the seven error kinds (60_exceptions.md R181). -/
inductive Kind where
  | ok | invalidArgument | notReady | busy | stalled | aborted | overflow | shutdown
  deriving DecidableEq, Repr

/-- The numeric codes of 60_exceptions.md R181. -/
def Kind.code : Kind → Int
  | .ok => 0
  | .invalidArgument => -1
  | .notReady => -2
  | .busy => -3
  | .stalled => -4
  | .aborted => -5
  | .overflow => -6
  | .shutdown => -7

/-- The endpoint direction bit: 0 = OUT, 1 = IN (10_state.md R15). -/
inductive Dir where
  | out | inward
  deriving DecidableEq, Repr

/-- The decoded setup packet, `control_request` (30_encoding.md R64): exactly these five fields. -/
structure SetupPkt where
  bmRequestType : BitVec 8
  bRequest : BitVec 8
  wValue : BitVec 16
  wIndex : BitVec 16
  wLength : BitVec 16
  deriving DecidableEq, Repr

/-- One constructor per row of spec/opcode_table.json. A field is what the row's encoding leaves free: no bit of a word
is dropped. `dir` is S[7], which no mask of 30_encoding.md R68 tests. -/
inductive Instr where
  -- format SETUP (30_encoding.md R68, rows 1 to 13)
  | getStatusDev (dir : Bool) (wValue wIndex wLength : BitVec 16)
  | getStatusEp (dir : Bool) (wValue wIndex wLength : BitVec 16)
  | clearFeatureHalt (dir : Bool) (wIndex wLength : BitVec 16)
  | setFeatureHalt (dir : Bool) (wIndex wLength : BitVec 16)
  | clearFeatureRwk (dir : Bool) (wIndex wLength : BitVec 16)
  | setFeatureRwk (dir : Bool) (wIndex wLength : BitVec 16)
  | clearFeatureOther (dir : Bool) (recipient : BitVec 5) (wValue wIndex wLength : BitVec 16)
  | setFeatureOther (dir : Bool) (recipient : BitVec 5) (wValue wIndex wLength : BitVec 16)
  | setAddress (dir : Bool) (wValue wIndex wLength : BitVec 16)
  | getConfiguration (dir : Bool) (wValue wIndex wLength : BitVec 16)
  | setConfiguration (dir : Bool) (wValue wIndex wLength : BitVec 16)
  | setInterface (dir : Bool) (wValue wIndex wLength : BitVec 16)
  | forward (pkt : SetupPkt)
  -- format CMD (30_encoding.md R71)
  | dispatch
  | regdrv (driver : Handle) (caps : BitVec 7)
  | unregdrv (driver : Handle)
  | pullup (on : Bool)
  | selfpwr (value : Bool)
  | epen (ep : EpNum) (dir : Bool) (type : BitVec 2) (maxp : BitVec 11)
  | epdis (ep : EpNum)
  | ephalt (ep : EpNum) (value : Bool)
  | epfstat (ep : EpNum)
  | rqalloc (ep : EpNum)
  | rqfree (ep : EpNum) (h : Handle)
  | rqset (h : Handle) (zlp : Bool) (length : BitVec 32)
  | epqueue (ep : EpNum) (h : Handle)
  | epdeq (ep : EpNum) (h : Handle)
  -- format BUS (30_encoding.md R73)
  | breset
  | bsusp
  | bresume
  | bsetup (payload : List Byte)
  | bout (ep : EpNum) (payload : List Byte)
  | bin (ep : EpNum)
  | bstall (ep : EpNum)
  | bstatus
  -- format INT (30_encoding.md R74): the operands are values
  | wrfifo (ep : EpNum)
  | rdfifo (ep : EpNum)
  | done (ep : EpNum) (h : Handle) (status : Kind)
  | nuke (ep : EpNum) (status : Kind)
  | ep0h
  | epnh (ep : EpNum)
  | ctlen
  | ctldis
  | ep0stall
  | service (ep : EpNum)
  deriving DecidableEq, Repr

/-- Where an operation reaches the block: a setup packet popped from FIFO[0], the client port, the bus port, or the
engine's own sequencing (30_encoding.md R63, R74). The same number can stand for an operation on each (log 1). -/
inductive Port where
  | setup | client | bus | engine
  deriving DecidableEq, Repr

/-- The port of each operation. -/
def Instr.port : Instr → Port
  | .getStatusDev .. | .getStatusEp .. | .clearFeatureHalt .. | .setFeatureHalt .. | .clearFeatureRwk ..
  | .setFeatureRwk .. | .clearFeatureOther .. | .setFeatureOther .. | .setAddress .. | .getConfiguration ..
  | .setConfiguration .. | .setInterface .. | .forward .. => .setup
  | .dispatch | .regdrv .. | .unregdrv .. | .pullup .. | .selfpwr .. | .epen .. | .epdis .. | .ephalt ..
  | .epfstat .. | .rqalloc .. | .rqfree .. | .rqset .. | .epqueue .. | .epdeq .. => .client
  | .breset | .bsusp | .bresume | .bsetup .. | .bout .. | .bin .. | .bstall .. | .bstatus => .bus
  | .wrfifo .. | .rdfifo .. | .done .. | .nuke .. | .ep0h | .epnh .. | .ctlen | .ctldis | .ep0stall
  | .service .. => .engine

/-- The bytes that follow the word of a BSETUP or BOUT (30_encoding.md R72, R81); no other operation has any. -/
def Instr.payload : Instr → List Byte
  | .bsetup p => p
  | .bout _ p => p
  | .getStatusDev .. | .getStatusEp .. | .clearFeatureHalt .. | .setFeatureHalt .. | .clearFeatureRwk ..
  | .setFeatureRwk .. | .clearFeatureOther .. | .setFeatureOther .. | .setAddress .. | .getConfiguration ..
  | .setConfiguration .. | .setInterface .. | .forward .. | .dispatch | .regdrv .. | .unregdrv .. | .pullup ..
  | .selfpwr .. | .epen .. | .epdis .. | .ephalt .. | .epfstat .. | .rqalloc .. | .rqfree .. | .rqset ..
  | .epqueue .. | .epdeq .. | .breset | .bsusp | .bresume | .bin .. | .bstall .. | .bstatus | .wrfifo ..
  | .rdfifo .. | .done .. | .nuke .. | .ep0h | .epnh .. | .ctlen | .ctldis | .ep0stall | .service .. => []

end Sys2Proof
end

