-- ==== Sys2Proof/Machine/State.lean ====
section
/-! DEFINITION. The state of the block as plain data (10_state.md): the device, endpoint, request and platform records,
the register block with the hidden state behind it, the ghost traces, the client's buffer memory, and the model's own
sequencing fields; the fault and refusal reasons; the power-on state. -/

namespace Sys2Proof.Machine

/-! ## The records -/

/-- `DEV.speed` (R20). -/
inductive Speed where
  | unknown | full
  deriving DecidableEq, Repr

/-- `DEV.ep0state`, in the document's order, 0 to 5 (R21). -/
inductive Ep0State where
  | idle | setupPending | inData | outData | endXfer | stall
  deriving DecidableEq, Repr

/-- `EP[e].type` (R15). -/
inductive EpType where
  | control | bulk | interrupt
  deriving DecidableEq, Repr

/-- `TOGGLE[e]` (R36). -/
inductive Toggle where
  | data0 | data1
  deriving DecidableEq, Repr

/-- The other value. -/
def Toggle.flip : Toggle → Toggle
  | .data0 => .data1
  | .data1 => .data0

/-- `PLAT.pad_mode` (R23). -/
inductive PadMode where
  | unset | device
  deriving DecidableEq, Repr

/-- A registered function driver: its id and the capability mask of 30_encoding.md R76. The behaviour of its callbacks is
not here: it is what the client does while a callback is pending (log 7). -/
structure Driver where
  id : Handle
  caps : BitVec 7
  deriving DecidableEq, Repr

/-- The device record `DEV` (R20). -/
structure Dev where
  speed : Speed
  address : BitVec 7
  config : BitVec 8
  selfPowered : Bool
  remoteWakeup : Bool
  ep0state : Ep0State
  driver : Option Driver
  inDispatch : Bool
  deriving DecidableEq, Repr

/-- An endpoint record `EP[e]` (R15). -/
structure Ep where
  num : EpNum
  dir : Dir
  type : EpType
  maxp : BitVec 11
  enabled : Bool
  halted : Bool
  queue : List Handle
  deriving DecidableEq, Repr

/-- `REQ[h].status` (R18): `Idle`, `InProgress`, or how the request was completed. -/
inductive Status where
  | idle | inProgress | finished (k : Kind)
  deriving DecidableEq, Repr

/-- A number for each status (R181): the codes of the kinds, `Idle` = 1, `InProgress` = 2. -/
def Status.code : Status → Int
  | .idle => 1
  | .inProgress => 2
  | .finished k => k.code

/-- A request record `REQ[h]` (R18). Its buffer is the part of `State.mem` at `bufAddr h`; `complete` says whether the
completion callback is present. -/
structure Req where
  allocated : Bool
  length : BitVec 32
  transferred : BitVec 32
  status : Status
  zlp : Bool
  complete : Bool
  ep : Option EpNum
  deriving DecidableEq, Repr

/-- The platform record `PLAT` (R23); `udcCommand` and `vbusDraw` say which hooks are present and are constant. -/
structure Plat where
  padMode : PadMode
  clkGated : Bool
  sysintUnmasked : Bool
  pullup : Bool
  udcCommand : Bool
  vbusDraw : Bool
  deriving DecidableEq, Repr

/-! ## The register block -/

/-- The fields of `CSR[e]` (R31, R32). `dataEnd` and `setupEnd` exist for e = 0 only. The strobes `FIFO_FLUSH` and
`CLR_TOGGLE` are write-only and hold nothing. -/
structure Csr where
  opr : Bool
  ipr : Bool
  sentStall : Bool
  dataEnd : Bool
  setupEnd : Bool
  sendStall : Bool
  deriving DecidableEq, Repr

/-- Every field 0. -/
def Csr.zero : Csr := ⟨false, false, false, false, false, false⟩

/-- What the hardware holds for one endpoint: the registers MAXP, CSR, CNT (R30 to R33), the FIFO (R34) and the data
toggle (R36). -/
structure Hw where
  maxp : BitVec 11
  csr : Csr
  cnt : Nat
  fifo : List Byte
  toggle : Toggle
  deriving DecidableEq, Repr

/-! ## Traces, callbacks, sequencing -/

/-- A driver callback with its arguments (R22). -/
inductive Callback where
  | bind
  | unbind
  | disconnect
  | suspend
  | resume
  | setup (req : SetupPkt)
  | complete (e : EpNum) (h : Handle)
  deriving DecidableEq, Repr

/-- An entry of `CB_LOG`: a driver callback or a platform hook with its argument (00_scope.md R12 c). -/
inductive CbEntry where
  | callback (c : Callback)
  | udcCommand (connect : Bool)
  deriving DecidableEq, Repr

/-- An internal operation, its operands passed as values (30_encoding.md R74). -/
inductive IntOp where
  | wrfifo (e : EpNum)
  | rdfifo (e : EpNum)
  | done (e : EpNum) (h : Handle) (k : Kind)
  | nuke (e : EpNum) (k : Kind)
  | ep0h
  | epnh (e : EpNum)
  | ctlen
  | ctldis
  | ep0stall
  | service (e : EpNum)
  deriving DecidableEq, Repr

/-- A bus step (45_bus_agent.md, the eight of R73). -/
inductive BusEvent where
  | reset
  | suspend
  | resume
  | setup (bytes : List Byte)
  | out (e : EpNum) (bytes : List Byte)
  | take (e : EpNum)
  | stall (e : EpNum)
  | status
  deriving DecidableEq, Repr

/-- What became of the last bus step the bus port was given (model's own field, log 9). -/
inductive BusResult where
  /-- None yet. -/
  | none
  /-- Its guard held and it took effect. -/
  | taken
  /-- Its guard was false: no move (45_bus_agent.md R165, R166; 93_implementation_defined.md U13). -/
  | notEnabled
  /-- The word was refused (30_encoding.md R80): no state change, `InvalidArgument`. -/
  | invalid
  deriving DecidableEq, Repr

/-- What is still to do inside the operation that is running: the block's rules run to completion, but a driver callback
suspends them until the client returns from it (42_endpoint_ops.md R140), so the rest of the rule is kept as data (model's
own, log 7). The list `State.stack` holds the innermost first. -/
inductive Frame where
  /-- A callback is running: the client moves next. -/
  | callback (c : Callback)
  /-- An internal operation that is due. -/
  | op (o : IntOp)
  /-- A setup packet popped from FIFO[0], to be decoded and executed (41_ep0_control.md R104). -/
  | setup (bytes : List Byte)
  /-- The rest of the snapshot of a `nuke` (40_fifo_engine.md R95). -/
  | nukeRest (e : EpNum) (k : Kind) (hs : List Handle)
  /-- The end of a client operation: its result. -/
  | ret (v : Int)
  /-- The exit of the dispatcher (43_dispatcher.md R141). -/
  | dispatchExit (saved : BitVec 4)
  /-- `notify_resume` (43_dispatcher.md R144). -/
  | notifyResume
  /-- `notify_suspend` (43_dispatcher.md R145). -/
  | notifySuspend
  /-- The rest of `ep0_handle` after `stall_seen`'s nuke, on the snapshot c (41_ep0_control.md R101, R102). -/
  | ep0AfterStall (c : Csr)
  /-- The state write that ends `setup_end_seen` (41_ep0_control.md R103). -/
  | ep0Idle
  /-- The rest of `ep0_setup` after its nuke (41_ep0_control.md R104). -/
  | ep0ReadSetup
  /-- After `setup` for SET_CONFIGURATION or SET_INTERFACE (41_ep0_control.md R113, R114). -/
  | afterConfig
  /-- After `setup` for a forwarded request (41_ep0_control.md R115). -/
  | afterForward
  /-- After `bind` (44_lifecycle.md R155, R156). -/
  | afterBind
  /-- The rest of `disable` after its nuke (42_endpoint_ops.md R128). -/
  | disableTail (e : EpNum)
  /-- `unregister` after `disconnect`, with the endpoints 1 .. NUM_EP-1 (44_lifecycle.md R157). -/
  | unregMain (es : List EpNum)
  /-- The rest of `flush_all` (44_lifecycle.md R158). -/
  | flushRest (es : List EpNum)
  /-- `unregister` after `flush_all`'s last nuke. -/
  | unregUnbind
  /-- The end of `unregister`. -/
  | unregEnd
  deriving DecidableEq, Repr

/-- What the outside gives the machine, in the order in which it happens (00_scope.md R11; model's own, log 7). -/
inductive Input where
  /-- Bytes on the client port. -/
  | client (bytes : List Byte)
  /-- Bytes on the bus port. -/
  | bus (bytes : List Byte)
  /-- The client returns from the innermost callback with this status. -/
  | callbackReturn (r : Int)
  /-- The client writes one byte of a request's buffer (10_state.md R18, R19). -/
  | writeBuf (h : Handle) (offset : BitVec 32) (b : Byte)
  /-- The client sets or removes a request's completion callback (10_state.md R18). -/
  | setComplete (h : Handle) (present : Bool)
  deriving DecidableEq, Repr

/-! ## Client buffer memory -/

/-- Client buffer memory as (address, byte) pairs (20_memory.md R46, R48). -/
abbrev Memory := List Host.Cell

/-- What a buffer byte that nothing has written reads as. DESIGN CHOICE (log 6): 10_state.md R40 leaves it unspecified. -/
def Memory.unwritten : Byte := 0

/-- The canonical form: addresses strictly rising, no entry equal to what an unlisted address reads as. -/
def Memory.wf : Memory → Bool
  | [] => true
  | c :: rest => c.2 != Memory.unwritten && rest.all (c.1 < ·.1) && Memory.wf rest

/-! ## The state -/

/-- The state of the block. -/
structure State where
  -- the parameters of 00_scope.md R6, written by nothing
  params : Params
  -- the records of 10_state.md sections 2 to 5
  dev : Dev
  eps : List Ep
  reqs : List Req
  plat : Plat
  -- the register block, 10_state.md section 6; `hw` is indexed by the endpoint number
  funcAddr : BitVec 7
  busEvt : BitVec 3
  epEvt : BitVec 8
  busEvtEn : BitVec 3
  epEvtEn : BitVec 8
  index : BitVec 4
  hw : List Hw
  -- hidden state, 10_state.md section 7
  ctlActive : Bool
  -- ghost traces (R38)
  tx : List (EpNum × List Byte)
  doneLog : List (Handle × Status × BitVec 32)
  cbLog : List CbEntry
  -- client buffer memory (20_memory.md R48)
  mem : Memory
  -- the model's own fields: what is left of the running operation, what the outside gives next, what the bus agent does
  -- between the engine's next register accesses (00_scope.md R9), the result of the last client operation
  -- (30_encoding.md R77), of the last bus step, of the last callback, and the count of free values used
  stack : List Frame
  input : List Input
  race : List (List BusEvent)
  cmdResult : Int
  busResult : BusResult
  cbResult : Int
  freeCount : Nat
  deriving DecidableEq, Repr

/-- Why the machine stops with a fault. -/
inductive Fault where
  /-- The client writes the buffer or the callback of a request record that does not exist (handle ≥ NUM_REQ,
  10_state.md R18): an address outside client buffer memory (20_memory.md R46). Raised by the fetch of a `writeBuf` or
  `setComplete` input. Safe. -/
  | noSuchRequest
  deriving DecidableEq, Repr

/-- Why the machine gives a step no meaning. -/
inductive Refusal where
  /-- An instruction exec has no meaning for. None is left. Safe. -/
  | notModelled (mnemonic : String)
  /-- FIFO_DATA[e] written with FIFO[e] full (93_implementation_defined.md U1: `refuse`). Raised by `fifoPush`. Safe. -/
  | fifoFull
  /-- `write_fifo` or `read_fifo` entered with a precondition false (U4: `refuse`; 40_fifo_engine.md R86, R91). Raised by
  WRFIFO and RDFIFO. Safe. -/
  | fifoPrecondition
  /-- `done` for a request that is not in the endpoint's queue (the precondition of 40_fifo_engine.md R94). Raised by DONE.
  Safe. -/
  | requestNotQueued
  /-- The client sets the `complete` callback of a queued request directly (U6: `refuse`). Raised by the fetch of a
  `setComplete` input. Safe. -/
  | clientWritesQueuedRequest
  /-- The client returns from a callback while none is running. Raised by the fetch of a `callbackReturn` input. Safe. -/
  | returnWithoutCallback
  deriving DecidableEq, Repr

/-- What a step or a meaning answers. -/
abbrev Res := Host.Outcome State Fault Refusal

/-! ## Power-on (10_state.md R40) -/

/-- An endpoint record with no active descriptor (R40: e ≥ 1). -/
def Ep.disabled (n : EpNum) : Ep := ⟨n, .out, .bulk, 0, false, false, []⟩

/-- `EP[0]` at power-on (R40, R13). R40 gives its `dir` no value and R15 calls it meaningless; it is OUT (DESIGN CHOICE,
log 30). -/
def Ep.control (maxp : BitVec 11) : Ep := ⟨0, .out, .control, maxp, true, false, []⟩

/-- A request record at power-on. DESIGN CHOICE (log 5): R40 gives `allocated`, `status` and `ep`, and leaves the other
fields unspecified. -/
def Req.free : Req := ⟨false, 0, 0, .idle, false, false, none⟩

/-- The hardware of an endpoint at power-on (R40). -/
def Hw.reset (maxp : BitVec 11) : Hw := ⟨maxp, Csr.zero, 0, [], .data0⟩

/-- The power-on state of R40 for given parameters, hooks, and values of what R40 leaves unspecified. -/
def State.powerOn (p : Params) (udcCommand vbusDraw : Bool) (busEvt : BitVec 3) (epEvt : BitVec 8) (clkGated : Bool) :
    State where
  params := p
  dev :=
    { speed := .unknown, address := 0, config := 0, selfPowered := p.selfPoweredInit, remoteWakeup := false,
      ep0state := .idle, driver := none, inDispatch := false }
  eps := Ep.control p.ep0Maxp :: p.dataEndpoints.map Ep.disabled
  reqs := List.replicate p.numReq Req.free
  plat :=
    { padMode := .unset, clkGated := clkGated, sysintUnmasked := false, pullup := false, udcCommand := udcCommand,
      vbusDraw := vbusDraw }
  funcAddr := 0
  busEvt := busEvt
  epEvt := epEvt &&& p.epMask
  busEvtEn := 0
  epEvtEn := 0
  index := 0
  hw := Hw.reset p.ep0Maxp :: p.dataEndpoints.map fun _ => Hw.reset 0
  ctlActive := false
  tx := []
  doneLog := []
  cbLog := []
  mem := []
  stack := []
  input := []
  race := []
  cmdResult := 0
  busResult := .none
  cbResult := 0
  freeCount := 0

/-- The machine right after power-on. What R40 leaves unspecified takes the values of the state S0 of 95_test_vectors.md
section 1: `BUS_EVT` 0x07, `EP_EVT` 0x05, `clk_gated` 1 (DESIGN CHOICE, log 4), with the parameters of that section
(DESIGN CHOICE, log 3) and both hooks absent. -/
def State.reset : State := State.powerOn Params.vectors false false 0x7 0x05 true

end Sys2Proof.Machine
end

