-- ==== Sys2Proof/Machine/Access.lean ====
section
/-! DEFINITION. Reading and writing the parts of State: the records by their number, the hardware of an endpoint, client
buffer memory, the traces, the result register, the stack of pending work. One home for each piece of state. -/

namespace Sys2Proof.Machine

/-! ## Records by number -/

/-- `EP[e]` (10_state.md R15). -/
def State.epAt (s : State) (e : EpNum) : Ep := (s.eps[e.toNat]?).getD (Ep.disabled e)

/-- `REQ[h]` (10_state.md R18). -/
def State.reqAt (s : State) (h : Handle) : Req := (s.reqs[h.toNat]?).getD Req.free

/-- The registers, FIFO and toggle of endpoint e (10_state.md R30 to R36). -/
def State.hwAt (s : State) (e : EpNum) : Hw := (s.hw[e.toNat]?).getD (Hw.reset 0)

/-- `EP[e].f <- v`. -/
def State.setEp (e : EpNum) (f : Ep → Ep) (s : State) : State := { s with eps := s.eps.modify e.toNat f }

/-- `REQ[h].f <- v`. -/
def State.setReq (h : Handle) (f : Req → Req) (s : State) : State := { s with reqs := s.reqs.modify h.toNat f }

/-- A change of the hardware of endpoint e. -/
def State.setHw (e : EpNum) (f : Hw → Hw) (s : State) : State := { s with hw := s.hw.modify e.toNat f }

/-- `DEV.f <- v`. -/
def State.setDev (f : Dev → Dev) (s : State) : State := { s with dev := f s.dev }

/-- `PLAT.f <- v`. -/
def State.setPlat (f : Plat → Plat) (s : State) : State := { s with plat := f s.plat }

/-- `DEV.ep0state <- v` (10_state.md R21). -/
def State.setEp0State (v : Ep0State) (s : State) : State := s.setDev ({ · with ep0state := v })

/-- `head(e)`: the first handle of `EP[e].queue` (10_state.md R17). -/
def State.head (s : State) (e : EpNum) : Option Handle := (s.epAt e).queue.head?

/-! ## Client buffer memory (20_memory.md R46, R48) -/

/-- The byte at an address; an unlisted address reads as `Memory.unwritten`. -/
def Memory.read : Memory → Nat → Byte
  | [], _ => Memory.unwritten
  | c :: rest, a => if c.1 = a then c.2 else Memory.read rest a

/-- A write of one byte that keeps the canonical form. -/
def Memory.write : Memory → Nat → Byte → Memory
  | [], a, b => if b = Memory.unwritten then [] else [(a, b)]
  | c :: rest, a, b =>
    if a < c.1 then (if b = Memory.unwritten then c :: rest else (a, b) :: c :: rest)
    else if a = c.1 then (if b = Memory.unwritten then rest else (a, b) :: rest)
    else c :: Memory.write rest a b

/-- The address of byte `i` of request h's buffer. A buffer is addressed by offset alone (20_memory.md R48); an offset has
`LEN_BITS` = 32 bits, so the buffers of two requests never meet. -/
def bufAddr (h : Handle) (i : Nat) : Nat := h.toNat * 2 ^ 32 + i

/-- `n` bytes of request h's buffer from offset `start`, in increasing offset. -/
def State.readBuf (s : State) (h : Handle) (start n : Nat) : List Byte :=
  (List.range n).map fun i => s.mem.read (bufAddr h (start + i))

/-- `MemWrite` of one byte of request h's buffer. -/
def State.writeBuf (h : Handle) (i : Nat) (b : Byte) (s : State) : State :=
  { s with mem := s.mem.write (bufAddr h i) b }

/-! ## Results, traces, pending work -/

/-- `return v` of a client operation (30_encoding.md R77). -/
def State.finish (v : Int) (s : State) : State := { s with cmdResult := v }

/-- Append to `TX` (45_bus_agent.md R172). -/
def State.logTx (e : EpNum) (bytes : List Byte) (s : State) : State := { s with tx := s.tx ++ [(e, bytes)] }

/-- Append to `DONE_LOG` (40_fifo_engine.md R94). -/
def State.logDone (h : Handle) (st : Status) (n : BitVec 32) (s : State) : State :=
  { s with doneLog := s.doneLog ++ [(h, st, n)] }

/-- Append to `CB_LOG` (00_scope.md R12 c). -/
def State.logCb (c : CbEntry) (s : State) : State := { s with cbLog := s.cbLog ++ [c] }

/-- Put work in front of what is pending. -/
def State.push (fs : List Frame) (s : State) : State := { s with stack := fs ++ s.stack }

/-- `call DRV.cb(args)` (00_scope.md R8): the call is logged and the client moves next. -/
def State.invoke (c : Callback) (s : State) : State := (s.logCb (.callback c)).push [.callback c]

/-- Is this frame a callback the client has not returned from? -/
def Frame.isCallback : Frame → Bool
  | .callback _ => true
  | .op _ | .setup _ | .nukeRest .. | .ret _ | .dispatchExit _ | .notifyResume | .notifySuspend | .ep0AfterStall _
  | .ep0Idle | .ep0ReadSetup | .afterConfig | .afterForward | .afterBind | .disableTail _ | .unregMain _ | .flushRest _
  | .unregUnbind | .unregEnd => false

/-- Is some callback running (42_endpoint_ops.md R140)? -/
def State.inCallback (s : State) : Bool := s.stack.any (·.isCallback)

/-- No work is due before the client moves: nothing is pending, or the innermost pending thing is a callback. -/
def State.settled (s : State) : Bool :=
  match s.stack with
  | [] => true
  | f :: _ => f.isCallback

/-- Go on with the state a result holds, if it holds one. -/
def thenDo (r : Res) (f : State → Res) : Res :=
  match r with
  | .next s => f s
  | .fault q => .fault q
  | .refused q => .refused q

/-- The state a result holds, or the given one. -/
def stateOr (s : State) : Res → State
  | .next t => t
  | .fault _ => s
  | .refused _ => s

/-- Does the result hold a next state? -/
def answersNext : Res → Bool
  | .next _ => true
  | .fault _ => false
  | .refused _ => false

end Sys2Proof.Machine
end

