-- ==== Sys2Proof/Machine/Flags.lean ====
section
/-! DEFINITION. The flags: what one write does to the fields of CSR (10_state.md R31, R32, R41), write-one-to-clear event
registers (R26, R27), the pending bit (R28), and the places of the bits in a byte (30_encoding.md R79). -/

namespace Sys2Proof.Machine

/-! ## CsrWrite (20_memory.md R52) -/

/-- The fields one write of CSR names, with their values; `none` is an unnamed field. The last two are the strobes of
10_state.md R32, which exist for e ≥ 1. -/
structure CsrUpdate where
  opr : Option Bool := none
  ipr : Option Bool := none
  sentStall : Option Bool := none
  dataEnd : Option Bool := none
  setupEnd : Option Bool := none
  sendStall : Option Bool := none
  fifoFlush : Bool := false
  clrToggle : Bool := false
  deriving DecidableEq, Repr

/-- The write discards the packet in the FIFO: it clears an `OPR` that is 1 (R31; writing 0 to an `OPR` that is already 0
has no effect, 41_ep0_control.md R122, log 18), or it strobes `FIFO_FLUSH` (R32). -/
def Hw.discards (ep0 : Bool) (u : CsrUpdate) (w : Hw) : Bool :=
  (u.opr == some false && w.csr.opr) || (!ep0 && u.fifoFlush)

/-- What one write does to the registers of its endpoint. `OPR`, `SENT_STALL`, `SETUP_END` are cleared by a written 0,
`IPR` and `DATA_END` are set by a written 1, `SEND_STALL` stores; `DATA_END` and `SETUP_END` exist for e = 0 only (R31,
R32). R31 and R32 give no order for one write with `IPR` 1 and `FIFO_FLUSH` 1: the flush wins and `IPR` is 0 (DESIGN CHOICE,
log 34). A written `IPR` 1 sets it on an OUT endpoint too (log 35). -/
def Hw.csrWrite (ep0 : Bool) (u : CsrUpdate) (w : Hw) : Hw where
  maxp := w.maxp
  csr :=
    { opr := w.csr.opr && !w.discards ep0 u
      ipr := (w.csr.ipr || u.ipr == some true) && !(!ep0 && u.fifoFlush)
      sentStall := w.csr.sentStall && !(u.sentStall == some false)
      dataEnd := w.csr.dataEnd || (ep0 && u.dataEnd == some true)
      setupEnd := w.csr.setupEnd && !(ep0 && u.setupEnd == some false)
      sendStall := u.sendStall.getD w.csr.sendStall }
  cnt := if w.discards ep0 u then 0 else w.cnt
  fifo := if w.discards ep0 u then [] else w.fifo
  toggle := if !ep0 && u.clrToggle then .data0 else w.toggle

/-- The write re-raises `EP_EVT`[0]: it clears a `SETUP_END` that was 1, and `OPR[0]` = 1 after it (R41). -/
def Hw.reraises (u : CsrUpdate) (w : Hw) : Bool :=
  w.csr.setupEnd && u.setupEnd == some false && (w.csrWrite true u).csr.opr

/-- The bit of EP_EVT and EP_EVT_EN that stands for endpoint e (R27). -/
def epBit (e : EpNum) : BitVec 8 := 1#8 <<< e.toNat

/-- One write of `CSR[e]` and all its effects (20_memory.md R52). -/
def State.applyCsr (e : EpNum) (u : CsrUpdate) (s : State) : State :=
  let t := s.setHw e (Hw.csrWrite (e == 0) u)
  if e == 0 && (s.hwAt 0).reraises u then { t with epEvt := t.epEvt ||| epBit 0 } else t

/-! ## The event registers -/

/-- Write-one-to-clear (R26, R27): every bit written 1 is cleared, the others stay. -/
def w1c {n : Nat} (reg v : BitVec n) : BitVec n := reg &&& ~~~v

/-- `BUS_EVT.RESET`, bit 2 (30_encoding.md R79). -/
def evtReset (b : BitVec 3) : Bool := b.getLsbD 2
/-- `BUS_EVT.RESUME`, bit 1. -/
def evtResume (b : BitVec 3) : Bool := b.getLsbD 1
/-- `BUS_EVT.SUSPEND`, bit 0. -/
def evtSuspend (b : BitVec 3) : Bool := b.getLsbD 0

/-- The bit of endpoint e in a value of EP_EVT. -/
def evtOf (v : BitVec 8) (e : EpNum) : Bool := v.getLsbD e.toNat

/-- `IRQ_PENDING` (R28): a combinational function of the event registers and their enables, not state. -/
def State.irqPending (s : State) : Bool := s.busEvt &&& s.busEvtEn != 0 || s.epEvt &&& s.epEvtEn != 0

/-- The line to the processor (R28, 60_exceptions.md R185; log 15). -/
def State.irqLine (s : State) : Bool := s.irqPending && s.plat.sysintUnmasked

/-! ## CSR as a byte (30_encoding.md R79) -/

/-- The byte a read of `CSR` returns. The strobes read 0; for e ≥ 1 bits 3 and 4 are reserved and read 0. -/
def Csr.toByte (ep0 : Bool) (c : Csr) : Byte :=
  BitVec.ofBool false ++ BitVec.ofBool false ++ BitVec.ofBool c.sendStall ++ BitVec.ofBool (ep0 && c.setupEnd) ++
    BitVec.ofBool (ep0 && c.dataEnd) ++ BitVec.ofBool c.sentStall ++ BitVec.ofBool c.ipr ++ BitVec.ofBool c.opr

/-- What a written byte does to `CSR`: it names every field. -/
def CsrUpdate.ofByte (ep0 : Bool) (b : Byte) : CsrUpdate where
  opr := some (b.getLsbD 0)
  ipr := some (b.getLsbD 1)
  sentStall := some (b.getLsbD 2)
  dataEnd := if ep0 then some (b.getLsbD 3) else none
  setupEnd := if ep0 then some (b.getLsbD 4) else none
  sendStall := some (b.getLsbD 5)
  fifoFlush := !ep0 && b.getLsbD 6
  clrToggle := !ep0 && b.getLsbD 7

/-- The byte a read-modify-write writes back (20_memory.md R51): 1 to an unnamed `OPR`, `SENT_STALL` or `SETUP_END`. R51 does
not say what goes to an unnamed `IPR` or `DATA_END` read as 1 (0 here, which has no effect) or to an unnamed `SEND_STALL` (what
was read, so that a clear by the bus agent between the read and the write is undone) (DESIGN CHOICE, log 32). -/
def CsrUpdate.mergeByte (ep0 : Bool) (read : Byte) (u : CsrUpdate) : Byte :=
  BitVec.ofBool (!ep0 && u.clrToggle) ++ BitVec.ofBool (!ep0 && u.fifoFlush) ++
    BitVec.ofBool (u.sendStall.getD (read.getLsbD 5)) ++ BitVec.ofBool (ep0 && u.setupEnd.getD true) ++
    BitVec.ofBool (ep0 && u.dataEnd.getD false) ++ BitVec.ofBool (u.sentStall.getD true) ++
    BitVec.ofBool (u.ipr.getD false) ++ BitVec.ofBool (u.opr.getD true)

end Sys2Proof.Machine
end

