-- ==== Sys2Proof/Machine/Operands.lean ====
section
/-! DEFINITION. Operands: which endpoint numbers, handles and descriptors are valid (42_endpoint_ops.md R127, R138), the
fields of a setup packet that a request reads (30_encoding.md R65, R67), the bytes of the replies (R69), and the capability
bits of a driver (R76). -/

namespace Sys2Proof.Machine

/-- `ep` < `NUM_EP` (R138). -/
def State.validEp (s : State) (e : EpNum) : Bool := e.toNat < s.params.numEp

/-- `h` < `NUM_REQ` and `REQ[h].allocated` = 1 (R138). -/
def State.validReq (s : State) (h : Handle) : Bool := h.toNat < s.params.numReq && (s.reqAt h).allocated

/-- The transfer type of an EPEN descriptor, where it is one the block has: 0 control, 1 isochronous, 2 bulk, 3 interrupt
(30_encoding.md R75); isochronous is no `EP[e].type`. -/
def epTypeOf (t : BitVec 2) : Option EpType :=
  match t.toNat with
  | 0 => some .control
  | 1 => none
  | 2 => some .bulk
  | _ => some .interrupt

/-- The direction of an EPEN descriptor: 0 = OUT, 1 = IN (30_encoding.md R75). -/
def dirOf (d : Bool) : Dir := if d then .inward else .out

/-- `supported(e, type, maxp)` (R127), as the type to record where it is true: bulk or interrupt, and
1 ≤ maxp ≤ FIFO_SIZE[e]. -/
def supportedType (p : Params) (e : EpNum) (type : BitVec 2) (maxp : BitVec 11) : Option EpType :=
  if 1 ≤ maxp.toNat && maxp.toNat ≤ p.fifoSize e then
    match epTypeOf type with
    | some .bulk => some .bulk
    | some .interrupt => some .interrupt
    | some .control => none
    | none => none
  else none

/-- The endpoint number in `wIndex`: bits [3:0] only (30_encoding.md R67). -/
def indexEp (wIndex : BitVec 16) : EpNum := wIndex.extractLsb' 0 4

/-- An endpoint request is stalled for a number out of range or an endpoint e ≥ 1 that is not enabled
(41_ep0_control.md R107, R110, R111). -/
def State.badTarget (s : State) (n : EpNum) : Bool := !s.validEp n || n != 0 && !(s.epAt n).enabled

/-- One bit as a byte. -/
def bitByte (b : Bool) : Byte := 0#7 ++ BitVec.ofBool b

/-- The reply to GET_STATUS(device): self-powered is bit 0, remote wake-up bit 1, byte 1 is 0 (R69). -/
def deviceStatus (d : Dev) : List Byte := [0#6 ++ BitVec.ofBool d.remoteWakeup ++ BitVec.ofBool d.selfPowered, 0]

/-- The reply to GET_STATUS(endpoint): halted is bit 0, byte 1 is 0 (R69). -/
def endpointStatus (e : Ep) : List Byte := [bitByte e.halted, 0]

/-- The driver declares full-speed support (R76, bit 0). -/
def Driver.fullSpeed (d : Driver) : Bool := d.caps.getLsbD 0
/-- The driver has `bind` (bit 1). -/
def Driver.hasBind (d : Driver) : Bool := d.caps.getLsbD 1
/-- The driver has `unbind` (bit 2). -/
def Driver.hasUnbind (d : Driver) : Bool := d.caps.getLsbD 2
/-- The driver has `setup` (bit 3). -/
def Driver.hasSetup (d : Driver) : Bool := d.caps.getLsbD 3
/-- The driver has `disconnect` (bit 4). -/
def Driver.hasDisconnect (d : Driver) : Bool := d.caps.getLsbD 4
/-- The driver has `suspend` (bit 5). -/
def Driver.hasSuspend (d : Driver) : Bool := d.caps.getLsbD 5
/-- The driver has `resume` (bit 6). -/
def Driver.hasResume (d : Driver) : Bool := d.caps.getLsbD 6

/-- `DRV.cb is present`, for the registered driver. -/
def State.driverHas (s : State) (cap : Driver → Bool) : Bool :=
  match s.dev.driver with
  | none => false
  | some d => cap d

/-- The lowest handle with `REQ[h].allocated` = 0 (42_endpoint_ops.md R135). -/
def State.freeHandle (s : State) : Option Handle :=
  ((s.reqs.take s.params.numReq).findIdx? (!·.allocated)).map (BitVec.ofNat 16)

end Sys2Proof.Machine
end

