-- ==== Sys2Proof/Machine/BusAgent.lean ====
section
/-! DEFINITION. The bus agent (45_bus_agent.md): the guard and the effect of each of its eight steps. The host and the serial
interface together act on the block by these and by nothing else. -/

namespace Sys2Proof.Machine

/-- `live`, the guard common to every bus step (R177). -/
def State.live (s : State) : Bool :=
  s.plat.padMode == .device && !s.plat.clkGated && (s.plat.pullup || !s.plat.udcCommand)

/-- `CSR[e]` as it stands. -/
def State.csrAt (s : State) (e : EpNum) : Csr := (s.hwAt e).csr

/-- The guard of a bus step (R167 to R174). -/
def BusEvent.guard (ev : BusEvent) (s : State) : Bool :=
  s.live &&
    match ev with
    | .reset => true
    | .suspend => true
    | .resume => true
    | .setup bytes => !(s.csrAt 0).opr && bytes.length ≤ 8
    | .out e bytes =>
      !(s.csrAt e).opr && !(s.csrAt e).sendStall && bytes.length ≤ s.params.fifoSize e &&
        (if e == 0 then s.ctlActive && !(s.csrAt 0).dataEnd && !(s.csrAt 0).ipr
         else (s.epAt e).enabled && (s.epAt e).dir == .out)
    | .take e =>
      (s.csrAt e).ipr && !(s.csrAt e).sendStall &&
        (if e == 0 then s.ctlActive else (s.epAt e).enabled && (s.epAt e).dir == .inward)
    | .stall e => (s.csrAt e).sendStall && (if e == 0 then s.ctlActive else (s.epAt e).enabled)
    | .status =>
      s.ctlActive && (s.csrAt 0).dataEnd && !(s.csrAt 0).ipr && !(s.csrAt 0).opr && !(s.csrAt 0).sendStall

/-- Set the event bit of endpoint e (R176). -/
def State.raiseEpEvt (e : EpNum) (s : State) : State := { s with epEvt := s.epEvt ||| epBit e }

/-- The effect of `BRESET` (R167). -/
def busReset (s : State) : State :=
  { s.setHw 0 (fun w => { w with csr := Csr.zero, fifo := [], cnt := 0 }) with
    busEvt := s.busEvt ||| 0b100#3, ctlActive := false }

/-- The effect of `BSETUP` (R170). -/
def busSetup (bytes : List Byte) (s : State) : State :=
  let aborted := s.ctlActive && !(s.csrAt 0).dataEnd
  { (s.setHw 0 fun w =>
      { w with
        csr := { w.csr with opr := true, ipr := false, dataEnd := false, sendStall := false,
                            setupEnd := w.csr.setupEnd || aborted }
        fifo := bytes, cnt := bytes.length, toggle := .data1 }).raiseEpEvt 0 with
    ctlActive := true }

/-- The effect of `BOUT` (R171). -/
def busOut (e : EpNum) (bytes : List Byte) (s : State) : State :=
  (s.setHw e fun w =>
    { w with csr := { w.csr with opr := true }, fifo := bytes, cnt := bytes.length, toggle := w.toggle.flip }).raiseEpEvt e

/-- The effect of `BIN` (R172). -/
def busTake (e : EpNum) (s : State) : State :=
  ((s.logTx e (s.hwAt e).fifo).setHw e fun w =>
    { w with csr := { w.csr with ipr := false }, fifo := [], toggle := w.toggle.flip }).raiseEpEvt e

/-- The effect of `BSTALL` (R173). -/
def busStall (e : EpNum) (s : State) : State :=
  if e == 0 then
    { (s.setHw 0 fun w =>
        { w with csr := { w.csr with sentStall := true, sendStall := false, dataEnd := false } }).raiseEpEvt 0 with
      ctlActive := false }
  else (s.setHw e fun w => { w with csr := { w.csr with sentStall := true } }).raiseEpEvt e

/-- The effect of `BSTATUS` (R174). -/
def busStatus (s : State) : State :=
  { (s.setHw 0 fun w => { w with csr := { w.csr with dataEnd := false } }).raiseEpEvt 0 with ctlActive := false }

/-- The effect of a bus step. -/
def BusEvent.effect (ev : BusEvent) (s : State) : State :=
  match ev with
  | .reset => busReset s
  | .suspend => { s with busEvt := s.busEvt ||| 0b001#3 }
  | .resume => { s with busEvt := s.busEvt ||| 0b010#3 }
  | .setup bytes => busSetup bytes s
  | .out e bytes => busOut e bytes s
  | .take e => busTake e s
  | .stall e => busStall e s
  | .status => busStatus s

/-- The endpoint a bus step names exists (30_encoding.md R80 c). -/
def BusEvent.addressed (ev : BusEvent) (s : State) : Bool :=
  match ev with
  | .reset | .suspend | .resume | .setup _ | .status => true
  | .out e _ | .take e | .stall e => s.validEp e

/-- A bus step: it is refused for an endpoint that does not exist, has no move where its guard is false (R165, R166), and
takes effect where it holds. -/
def BusEvent.act (ev : BusEvent) (s : State) : State :=
  if !ev.addressed s then { s with busResult := .invalid }
  else if ev.guard s then { ev.effect s with busResult := .taken }
  else { s with busResult := .notEnabled }

end Sys2Proof.Machine
end

