-- ==== Sys2Proof/Machine/BusSteps.lean ====
section
/-! DEFINITION. The meanings of the eight bus events (30_encoding.md R73; 45_bus_agent.md R167 to R174): one atomic step of the
bus agent. -/

namespace Sys2Proof.Machine

/-- BRESET (R167). -/
def execBreset (s : State) : Res := .next (BusEvent.reset.act s)

/-- BSUSP (R168). -/
def execBsusp (s : State) : Res := .next (BusEvent.suspend.act s)

/-- BRESUME (R169). -/
def execBresume (s : State) : Res := .next (BusEvent.resume.act s)

/-- BSETUP (R170). -/
def execBsetup (payload : List Byte) (s : State) : Res := .next ((BusEvent.setup payload).act s)

/-- BOUT (R171). -/
def execBout (ep : EpNum) (payload : List Byte) (s : State) : Res := .next ((BusEvent.out ep payload).act s)

/-- BIN (R172). -/
def execBin (ep : EpNum) (s : State) : Res := .next ((BusEvent.take ep).act s)

/-- BSTALL (R173). -/
def execBstall (ep : EpNum) (s : State) : Res := .next ((BusEvent.stall ep).act s)

/-- BSTATUS (R174). -/
def execBstatus (s : State) : Res := .next (BusEvent.status.act s)

end Sys2Proof.Machine
end

