-- ==== Sys2Proof/WellFormed.lean ====
section
/-! DEFINITION. Which terms of Instr are instructions: a setup request is the FIRST row of 30_encoding.md R68 that
matches it, and a payload's length fits the 32-bit count field of its word (R72). The conditions are written on the
fields, apart from the decoder's mask table; that the two agree is a statement. -/

namespace Sys2Proof

/-- Does one of rows 1 to 12 of 30_encoding.md R68 take this packet? Written from the table of R65 to R67: standard
type, the request codes of R66, and the recipients the rows name. -/
def SetupPkt.internal (p : SetupPkt) : Bool :=
  let recipient := p.bmRequestType.extractLsb' 0 5
  let standard := p.bmRequestType.extractLsb' 5 2 == 0
  standard &&
    (p.bRequest == 0x00 && (recipient == 0 || recipient == 2) ||  -- GET_STATUS of the device or of an endpoint
     p.bRequest == 0x01 || p.bRequest == 0x03 ||                  -- CLEAR_FEATURE, SET_FEATURE: rows 3 to 8 take all
     p.bRequest == 0x05 && recipient == 0 ||                      -- SET_ADDRESS
     p.bRequest == 0x08 && recipient == 0 ||                      -- GET_CONFIGURATION
     p.bRequest == 0x09 && recipient == 0 ||                      -- SET_CONFIGURATION
     p.bRequest == 0x0B && recipient == 1)                        -- SET_INTERFACE

/-- A CLEAR_FEATURE or SET_FEATURE that rows 3 to 6 take: endpoint halt, or device remote wake-up (R67, R68). -/
def namedFeature (recipient : BitVec 5) (wValue : BitVec 16) : Bool :=
  recipient == 2 && wValue == 0 || recipient == 0 && wValue == 1

/-- The well-formed instructions. -/
def Instr.wf : Instr → Bool
  | .clearFeatureOther _ r v _ _ => !namedFeature r v
  | .setFeatureOther _ r v _ _ => !namedFeature r v
  | .forward p => !p.internal
  | .bsetup p => p.length < 2 ^ 32
  | .bout _ p => p.length < 2 ^ 32
  | .getStatusDev .. | .getStatusEp .. | .clearFeatureHalt .. | .setFeatureHalt .. | .clearFeatureRwk ..
  | .setFeatureRwk .. | .setAddress .. | .getConfiguration .. | .setConfiguration .. | .setInterface ..
  | .dispatch | .regdrv .. | .unregdrv .. | .pullup .. | .selfpwr .. | .epen .. | .epdis .. | .ephalt ..
  | .epfstat .. | .rqalloc .. | .rqfree .. | .rqset .. | .epqueue .. | .epdeq .. | .breset | .bsusp | .bresume
  | .bin .. | .bstall .. | .bstatus | .wrfifo .. | .rdfifo .. | .done .. | .nuke .. | .ep0h | .epnh .. | .ctlen
  | .ctldis | .ep0stall | .service .. => true

end Sys2Proof
end

