-- ==== Sys2Proof/Decode.lean ====
section
/-! DEFINITION. Decoding and encoding (30_encoding.md): bytes to words, the setup decode table of R68, the client and bus
words of R70 to R73 with their illegal encodings (R80), and the encoder written from the same tables. -/

namespace Sys2Proof

/-! ## Bytes and words (R63: little-endian) -/

/-- The word whose byte i is the i-th of the list, low byte first; the list holds the eight bytes of a word. -/
def wordOfBytes (b : List Byte) : Word :=
  b.getD 7 0 ++ b.getD 6 0 ++ b.getD 5 0 ++ b.getD 4 0 ++ b.getD 3 0 ++ b.getD 2 0 ++ b.getD 1 0 ++ b.getD 0 0

/-- The eight bytes of a word, low byte first. -/
def bytesOfWord (w : Word) : List Byte :=
  [w.extractLsb' 0 8, w.extractLsb' 8 8, w.extractLsb' 16 8, w.extractLsb' 24 8,
   w.extractLsb' 32 8, w.extractLsb' 40 8, w.extractLsb' 48 8, w.extractLsb' 56 8]

/-! ## The setup packet (R64 to R68) -/

/-- The fields of a setup word (R64). -/
def setupPktOf (w : Word) : SetupPkt where
  bmRequestType := w.extractLsb' 0 8
  bRequest := w.extractLsb' 8 8
  wValue := w.extractLsb' 16 16
  wIndex := w.extractLsb' 32 16
  wLength := w.extractLsb' 48 16

/-- The setup word of five fields (R64). -/
def setupWord (p : SetupPkt) : Word := p.wLength ++ p.wIndex ++ p.wValue ++ p.bRequest ++ p.bmRequestType

/-- One row of the decode table of R68. -/
structure SetupRow where
  mnemonic : String
  pattern : Word
  mask : Word
  deriving DecidableEq, Repr

/-- The thirteen rows of R68, in the order in which they are tried. -/
def setupRows : List SetupRow :=
  [⟨"GET_STATUS.dev", 0x0000000000000000, 0x000000000000FF7F⟩,
   ⟨"GET_STATUS.ep", 0x0000000000000002, 0x000000000000FF7F⟩,
   ⟨"CLEAR_FEATURE.halt", 0x0000000000000102, 0x00000000FFFFFF7F⟩,
   ⟨"SET_FEATURE.halt", 0x0000000000000302, 0x00000000FFFFFF7F⟩,
   ⟨"CLEAR_FEATURE.rwk", 0x0000000000010100, 0x00000000FFFFFF7F⟩,
   ⟨"SET_FEATURE.rwk", 0x0000000000010300, 0x00000000FFFFFF7F⟩,
   ⟨"CLEAR_FEATURE.other", 0x0000000000000100, 0x000000000000FF60⟩] ++
  [⟨"SET_FEATURE.other", 0x0000000000000300, 0x000000000000FF60⟩,
   ⟨"SET_ADDRESS", 0x0000000000000500, 0x000000000000FF7F⟩,
   ⟨"GET_CONFIGURATION", 0x0000000000000800, 0x000000000000FF7F⟩,
   ⟨"SET_CONFIGURATION", 0x0000000000000900, 0x000000000000FF7F⟩,
   ⟨"SET_INTERFACE", 0x0000000000000B01, 0x000000000000FF7F⟩,
   ⟨"FORWARD", 0x0000000000000000, 0x0000000000000000⟩]

/-- `(S AND mask) = match` (R68). -/
def SetupRow.takes (r : SetupRow) (w : Word) : Bool := w &&& r.mask == r.pattern

/-- The position, from 0, of the first row that takes the word; row 13 takes every word. -/
def setupRowIndex (w : Word) : Nat := setupRows.findIdx (·.takes w)

/-- Decode of a setup word: the first row of R68 selects the request. No setup word is illegal (R80 a). -/
def decodeSetup (w : Word) : Instr :=
  let p := setupPktOf w
  let dir := p.bmRequestType.getLsbD 7
  let recipient := p.bmRequestType.extractLsb' 0 5
  match setupRowIndex w with
  | 0 => .getStatusDev dir p.wValue p.wIndex p.wLength
  | 1 => .getStatusEp dir p.wValue p.wIndex p.wLength
  | 2 => .clearFeatureHalt dir p.wIndex p.wLength
  | 3 => .setFeatureHalt dir p.wIndex p.wLength
  | 4 => .clearFeatureRwk dir p.wIndex p.wLength
  | 5 => .setFeatureRwk dir p.wIndex p.wLength
  | 6 => .clearFeatureOther dir recipient p.wValue p.wIndex p.wLength
  | 7 => .setFeatureOther dir recipient p.wValue p.wIndex p.wLength
  | 8 => .setAddress dir p.wValue p.wIndex p.wLength
  | 9 => .getConfiguration dir p.wValue p.wIndex p.wLength
  | 10 => .setConfiguration dir p.wValue p.wIndex p.wLength
  | 11 => .setInterface dir p.wValue p.wIndex p.wLength
  | _ => .forward p

/-- The mnemonic of an operation (R68, R71, R73, R74; spec/opcode_table.json). -/
def Instr.mnemonic : Instr → String
  | .getStatusDev .. => "GET_STATUS.dev"
  | .getStatusEp .. => "GET_STATUS.ep"
  | .clearFeatureHalt .. => "CLEAR_FEATURE.halt"
  | .setFeatureHalt .. => "SET_FEATURE.halt"
  | .clearFeatureRwk .. => "CLEAR_FEATURE.rwk"
  | .setFeatureRwk .. => "SET_FEATURE.rwk"
  | .clearFeatureOther .. => "CLEAR_FEATURE.other"
  | .setFeatureOther .. => "SET_FEATURE.other"
  | .setAddress .. => "SET_ADDRESS"
  | .getConfiguration .. => "GET_CONFIGURATION"
  | .setConfiguration .. => "SET_CONFIGURATION"
  | .setInterface .. => "SET_INTERFACE"
  | .forward .. => "FORWARD"
  | .dispatch => "DISPATCH"
  | .regdrv .. => "REGDRV"
  | .unregdrv .. => "UNREGDRV"
  | .pullup .. => "PULLUP"
  | .selfpwr .. => "SELFPWR"
  | .epen .. => "EPEN"
  | .epdis .. => "EPDIS"
  | .ephalt .. => "EPHALT"
  | .epfstat .. => "EPFSTAT"
  | .rqalloc .. => "RQALLOC"
  | .rqfree .. => "RQFREE"
  | .rqset .. => "RQSET"
  | .epqueue .. => "EPQUEUE"
  | .epdeq .. => "EPDEQ"
  | .breset => "BRESET"
  | .bsusp => "BSUSP"
  | .bresume => "BRESUME"
  | .bsetup .. => "BSETUP"
  | .bout .. => "BOUT"
  | .bin .. => "BIN"
  | .bstall .. => "BSTALL"
  | .bstatus => "BSTATUS"
  | .wrfifo .. => "WRFIFO"
  | .rdfifo .. => "RDFIFO"
  | .done .. => "DONE"
  | .nuke .. => "NUKE"
  | .ep0h => "EP0H"
  | .epnh .. => "EPNH"
  | .ctlen => "CTLEN"
  | .ctldis => "CTLDIS"
  | .ep0stall => "EP0STALL"
  | .service .. => "SERVICE"

/-- `bmRequestType` of a standard request (R65: type 0) with this direction bit and recipient. -/
def standardType (dir : Bool) (recipient : BitVec 5) : BitVec 8 := BitVec.ofBool dir ++ (0#2 ++ recipient)

/-- The packet a setup request was decoded from: what the `setup` callback is given (R64), and what the encoder
writes. -/
def Instr.setupPkt : Instr → SetupPkt
  | .getStatusDev d v i l => ⟨standardType d 0, 0x00, v, i, l⟩
  | .getStatusEp d v i l => ⟨standardType d 2, 0x00, v, i, l⟩
  | .clearFeatureHalt d i l => ⟨standardType d 2, 0x01, 0, i, l⟩
  | .setFeatureHalt d i l => ⟨standardType d 2, 0x03, 0, i, l⟩
  | .clearFeatureRwk d i l => ⟨standardType d 0, 0x01, 1, i, l⟩
  | .setFeatureRwk d i l => ⟨standardType d 0, 0x03, 1, i, l⟩
  | .clearFeatureOther d r v i l => ⟨standardType d r, 0x01, v, i, l⟩
  | .setFeatureOther d r v i l => ⟨standardType d r, 0x03, v, i, l⟩
  | .setAddress d v i l => ⟨standardType d 0, 0x05, v, i, l⟩
  | .getConfiguration d v i l => ⟨standardType d 0, 0x08, v, i, l⟩
  | .setConfiguration d v i l => ⟨standardType d 0, 0x09, v, i, l⟩
  | .setInterface d v i l => ⟨standardType d 1, 0x0B, v, i, l⟩
  | .forward p => p
  | .dispatch | .regdrv .. | .unregdrv .. | .pullup .. | .selfpwr .. | .epen .. | .epdis .. | .ephalt ..
  | .epfstat .. | .rqalloc .. | .rqfree .. | .rqset .. | .epqueue .. | .epdeq .. | .breset | .bsusp | .bresume
  | .bsetup .. | .bout .. | .bin .. | .bstall .. | .bstatus | .wrfifo .. | .rdfifo .. | .done .. | .nuke .. | .ep0h
  | .epnh .. | .ctlen | .ctldis | .ep0stall | .service .. => ⟨0, 0, 0, 0, 0⟩

/-! ## The client and bus words (R70 to R73) -/

/-- C[7:0], the opcode. -/
def opField (w : Word) : BitVec 8 := w.extractLsb' 0 8
/-- C[11:8], the endpoint number. -/
def epField (w : Word) : EpNum := w.extractLsb' 8 4
/-- C[15:12], the flag nibble. -/
def flagField (w : Word) : BitVec 4 := w.extractLsb' 12 4
/-- C[31:16], the request handle or driver id. -/
def handleField (w : Word) : Handle := w.extractLsb' 16 16
/-- C[63:32], the 32-bit value. -/
def valueField (w : Word) : BitVec 32 := w.extractLsb' 32 32

/-- The word of five fields (R70). -/
def portWord (op : BitVec 8) (ep : EpNum) (f : BitVec 4) (h : Handle) (v : BitVec 32) : Word :=
  v ++ h ++ f ++ ep ++ op

/-- Why a word is refused (R80 b). The first two words name what stands in the opcode field. -/
inductive Reject where
  /-- Fewer bytes than the word, or than the word and its payload. -/
  | truncated
  /-- An opcode that the port's table (R71, R73) does not list. -/
  | unknownOp (op : BitVec 8)
  /-- A tag of R74 on the client port or the bus port. -/
  | internalTag (op : BitVec 8)
  /-- A field the opcode does not use is not 0. -/
  | unusedField (op : BitVec 8)
  deriving DecidableEq, Repr

/-- A legal word has every unused field 0 (R70, R80 b). -/
def strict (w : Word) (unusedAreZero : Bool) (i : Instr) : Except Reject Instr :=
  if unusedAreZero then .ok i else .error (.unusedField (opField w))

/-- A word whose opcode the port does not list (R80 b). -/
def illegalOp (w : Word) : Except Reject Instr :=
  if 0x40 ≤ (opField w).toNat && (opField w).toNat ≤ 0x49 then .error (.internalTag (opField w))
  else .error (.unknownOp (opField w))

/-- Decode of a client-port word (R71, with the operand places of R75 and R76). -/
def decodeCmd (w : Word) : Except Reject Instr :=
  let ep := epField w
  let f := flagField w
  let h := handleField w
  let v := valueField w
  match (opField w).toNat with
  | 0x01 => strict w (ep == 0 && f == 0 && h == 0 && v == 0) .dispatch
  | 0x02 => strict w (ep == 0 && f == 0 && v.extractLsb' 7 25 == 0) (.regdrv h (v.extractLsb' 0 7))
  | 0x03 => strict w (ep == 0 && f == 0 && v == 0) (.unregdrv h)
  | 0x04 => strict w (ep == 0 && f.extractLsb' 1 3 == 0 && h == 0 && v == 0) (.pullup (f.getLsbD 0))
  | 0x05 => strict w (ep == 0 && f.extractLsb' 1 3 == 0 && h == 0 && v == 0) (.selfpwr (f.getLsbD 0))
  | 0x10 => strict w (f.getLsbD 3 == false && h == 0 && v.extractLsb' 11 21 == 0)
      (.epen ep (f.getLsbD 0) (f.extractLsb' 1 2) (v.extractLsb' 0 11))
  | 0x11 => strict w (f == 0 && h == 0 && v == 0) (.epdis ep)
  | 0x12 => strict w (f.extractLsb' 1 3 == 0 && h == 0 && v == 0) (.ephalt ep (f.getLsbD 0))
  | 0x13 => strict w (f == 0 && h == 0 && v == 0) (.epfstat ep)
  | 0x14 => strict w (f == 0 && h == 0 && v == 0) (.rqalloc ep)
  | 0x15 => strict w (f == 0 && v == 0) (.rqfree ep h)
  | 0x16 => strict w (ep == 0 && f.extractLsb' 1 3 == 0) (.rqset h (f.getLsbD 0) v)
  | 0x17 => strict w (f == 0 && v == 0) (.epqueue ep h)
  | 0x18 => strict w (f == 0 && v == 0) (.epdeq ep h)
  | _ => illegalOp w

/-- The payload a bus word announces: exactly `v` bytes (R72, R81), or the word is truncated. -/
def withPayload (v : BitVec 32) (rest : List Byte) (i : List Byte → Instr) : Except Reject (Instr × List Byte) :=
  if v.toNat ≤ rest.length then .ok (i (rest.take v.toNat), rest.drop v.toNat) else .error .truncated

/-- A bus word without payload: `rest` is what follows it. -/
def noPayload (rest : List Byte) : Except Reject Instr → Except Reject (Instr × List Byte)
  | .ok i => .ok (i, rest)
  | .error r => .error r

/-- Decode of a bus-port word and the payload that follows it (R72, R73, R81). -/
def decodeBus (w : Word) (rest : List Byte) : Except Reject (Instr × List Byte) :=
  let ep := epField w
  let f := flagField w
  let h := handleField w
  let v := valueField w
  match (opField w).toNat with
  | 0x20 => noPayload rest (strict w (ep == 0 && f == 0 && h == 0 && v == 0) .breset)
  | 0x21 => noPayload rest (strict w (ep == 0 && f == 0 && h == 0 && v == 0) .bsusp)
  | 0x22 => noPayload rest (strict w (ep == 0 && f == 0 && h == 0 && v == 0) .bresume)
  | 0x23 => if ep == 0 && f == 0 && h == 0 then withPayload v rest .bsetup else .error (.unusedField (opField w))
  | 0x24 => if f == 0 && h == 0 then withPayload v rest (.bout ep) else .error (.unusedField (opField w))
  | 0x25 => noPayload rest (strict w (f == 0 && h == 0 && v == 0) (.bin ep))
  | 0x26 => noPayload rest (strict w (f == 0 && h == 0 && v == 0) (.bstall ep))
  | 0x27 => noPayload rest (strict w (ep == 0 && f == 0 && h == 0 && v == 0) .bstatus)
  | _ => noPayload rest (illegalOp w)

/-! ## The internal operations (R74) -/

/-- The status a three-bit number stands for in a written internal operation: the magnitude of its code (R181). The
operands of an `INT` row are values, not bits (R74); these bit places are the model's own (log 2). -/
def kindOfBits (b : BitVec 3) : Kind :=
  match b.toNat with
  | 0 => .ok
  | 1 => .invalidArgument
  | 2 => .notReady
  | 3 => .busy
  | 4 => .stalled
  | 5 => .aborted
  | 6 => .overflow
  | _ => .shutdown

/-- The three-bit number of a status. -/
def bitsOfKind : Kind → BitVec 3
  | .ok => 0
  | .invalidArgument => 1
  | .notReady => 2
  | .busy => 3
  | .stalled => 4
  | .aborted => 5
  | .overflow => 6
  | .shutdown => 7

/-- Decode of a written internal operation: the tag of R74 and the operands at the places of the model's own (log 2);
the bits the table leaves free mean nothing. -/
def decodeInt (w : Word) : Except Reject Instr :=
  let ep := epField w
  let st := kindOfBits ((flagField w).extractLsb' 0 3)
  match (opField w).toNat with
  | 0x40 => .ok (.wrfifo ep)
  | 0x41 => .ok (.rdfifo ep)
  | 0x42 => .ok (.done ep (handleField w) st)
  | 0x43 => .ok (.nuke ep st)
  | 0x44 => .ok .ep0h
  | 0x45 => .ok (.epnh ep)
  | 0x46 => .ok .ctlen
  | 0x47 => .ok .ctldis
  | 0x48 => .ok .ep0stall
  | 0x49 => .ok (.service ep)
  | _ => .error (.unknownOp (opField w))

/-! ## One decoder and one encoder -/

/-- Decode of the operation at the head of a port's bytes, with the bytes after it. Total; it rejects by name. -/
def decode (p : Port) (bytes : List Byte) : Except Reject (Instr × List Byte) :=
  if bytes.length < 8 then .error .truncated
  else
    let w := wordOfBytes bytes
    match p with
    | .setup => .ok (decodeSetup w, bytes.drop 8)
    | .client => noPayload (bytes.drop 8) (decodeCmd w)
    | .bus => decodeBus w (bytes.drop 8)
    | .engine => noPayload (bytes.drop 8) (decodeInt w)

/-- A flag nibble with only bit 0 used. -/
def flag0 (b : Bool) : BitVec 4 := 0#3 ++ BitVec.ofBool b

/-- The word of each operation (R64, R71, R73, R74). -/
def encodeWord : Instr → Word
  | .dispatch => portWord 0x01 0 0 0 0
  | .regdrv h caps => portWord 0x02 0 0 h (0#25 ++ caps)
  | .unregdrv h => portWord 0x03 0 0 h 0
  | .pullup on => portWord 0x04 0 (flag0 on) 0 0
  | .selfpwr v => portWord 0x05 0 (flag0 v) 0 0
  | .epen ep dir type maxp => portWord 0x10 ep (0#1 ++ type ++ BitVec.ofBool dir) 0 (0#21 ++ maxp)
  | .epdis ep => portWord 0x11 ep 0 0 0
  | .ephalt ep v => portWord 0x12 ep (flag0 v) 0 0
  | .epfstat ep => portWord 0x13 ep 0 0 0
  | .rqalloc ep => portWord 0x14 ep 0 0 0
  | .rqfree ep h => portWord 0x15 ep 0 h 0
  | .rqset h zlp length => portWord 0x16 0 (flag0 zlp) h length
  | .epqueue ep h => portWord 0x17 ep 0 h 0
  | .epdeq ep h => portWord 0x18 ep 0 h 0
  | .breset => portWord 0x20 0 0 0 0
  | .bsusp => portWord 0x21 0 0 0 0
  | .bresume => portWord 0x22 0 0 0 0
  | .bsetup p => portWord 0x23 0 0 0 (BitVec.ofNat 32 p.length)
  | .bout ep p => portWord 0x24 ep 0 0 (BitVec.ofNat 32 p.length)
  | .bin ep => portWord 0x25 ep 0 0 0
  | .bstall ep => portWord 0x26 ep 0 0 0
  | .bstatus => portWord 0x27 0 0 0 0
  | .wrfifo ep => portWord 0x40 ep 0 0 0
  | .rdfifo ep => portWord 0x41 ep 0 0 0
  | .done ep h st => portWord 0x42 ep (0#1 ++ bitsOfKind st) h 0
  | .nuke ep st => portWord 0x43 ep (0#1 ++ bitsOfKind st) 0 0
  | .ep0h => portWord 0x44 0 0 0 0
  | .epnh ep => portWord 0x45 ep 0 0 0
  | .ctlen => portWord 0x46 0 0 0 0
  | .ctldis => portWord 0x47 0 0 0 0
  | .ep0stall => portWord 0x48 0 0 0 0
  | .service ep => portWord 0x49 ep 0 0 0
  | .getStatusDev d v i l => setupWord (Instr.getStatusDev d v i l).setupPkt
  | .getStatusEp d v i l => setupWord (Instr.getStatusEp d v i l).setupPkt
  | .clearFeatureHalt d i l => setupWord (Instr.clearFeatureHalt d i l).setupPkt
  | .setFeatureHalt d i l => setupWord (Instr.setFeatureHalt d i l).setupPkt
  | .clearFeatureRwk d i l => setupWord (Instr.clearFeatureRwk d i l).setupPkt
  | .setFeatureRwk d i l => setupWord (Instr.setFeatureRwk d i l).setupPkt
  | .clearFeatureOther d r v i l => setupWord (Instr.clearFeatureOther d r v i l).setupPkt
  | .setFeatureOther d r v i l => setupWord (Instr.setFeatureOther d r v i l).setupPkt
  | .setAddress d v i l => setupWord (Instr.setAddress d v i l).setupPkt
  | .getConfiguration d v i l => setupWord (Instr.getConfiguration d v i l).setupPkt
  | .setConfiguration d v i l => setupWord (Instr.setConfiguration d v i l).setupPkt
  | .setInterface d v i l => setupWord (Instr.setInterface d v i l).setupPkt
  | .forward p => setupWord p

/-- The bytes of an operation: its word, low byte first, then its payload (R72, R81). -/
def encode (i : Instr) : List Byte := bytesOfWord (encodeWord i) ++ i.payload

/-! ## The host's view of the opcode table -/

/-- Which port a word of the opcode table is read on. The table numbers all four formats alike and some words stand in
two of them; this order is the model's own (log 1): a word of fewer than 64 given bits that a row 1 to 12 of R68 takes is
a setup request; otherwise a legal client word, a legal bus word, an internal tag, and last a setup request. -/
def tablePort (nbits : Nat) (w : Word) : Port :=
  if nbits < 64 && setupRowIndex w < 12 then .setup
  else
    match decodeCmd w with
    | .ok _ => .client
    | .error _ =>
      if 0x20 ≤ (opField w).toNat && (opField w).toNat ≤ 0x27 then .bus
      else if 0x40 ≤ (opField w).toNat && (opField w).toNat ≤ 0x49 then .engine
      else .setup

/-- How many payload bytes a table word is laid out with: the FIFO size of the parameters the model resets to. -/
def tablePayload : Nat := 64

/-- The bytes of a table word: its word, then payload bytes of zero. -/
def tableBytes (nbits w : Nat) : List Byte :=
  bytesOfWord (BitVec.ofNat 64 (w % 2 ^ nbits)) ++ List.replicate tablePayload 0

/-- The instruction the decoder reads from a word of the opcode table. -/
def decodeTableWord (nbits w : Nat) : Option Instr :=
  match decode (tablePort nbits (BitVec.ofNat 64 (w % 2 ^ nbits))) (tableBytes nbits w) with
  | .ok (i, _) => some i
  | .error _ => none

end Sys2Proof
end

