-- ==== Sys2Proof/Machine/Ops.lean ====
section
/-! DEFINITION. The named operations every meaning is built from: the register accesses of 20_memory.md with the bus agent's
turn before each (00_scope.md R9), the error return (60_exceptions.md R181), event entry and return (R187, R188), marking a
packet ready, completing and failing requests (40_fifo_engine.md R89, R90, R94, R95), the EP0 stall, acknowledge and reply
(41_ep0_control.md R116, R117, R122), and the halt (42_endpoint_ops.md R129). -/

namespace Sys2Proof.Machine

/-! ## Register accesses (20_memory.md section 2)

Every access begins with `turn`: the bus agent may act between any two accesses of one operation, never inside one
(00_scope.md R9). What it does there is the next entry of `State.race`; with none left it does nothing (log 8). -/

/-- The bus agent's turn before the engine's next register access. -/
def State.turn (s : State) : State :=
  match s.race with
  | [] => s
  | evs :: rest => evs.foldl (fun t ev => ev.act t) { s with race := rest }

/-- `RegWrite(INDEX, e)`, and the bus agent's turn before the indexed access that follows (R50). -/
def State.select (e : EpNum) (s : State) : State := { s.turn with index := e }.turn

/-- `CsrWrite(e, u)`: one indivisible write (R52). -/
def csrWrite (e : EpNum) (u : CsrUpdate) (s : State) : State := (s.select e).applyCsr e u

/-- `MaxpWrite(e, v)` (R50). -/
def maxpWrite (e : EpNum) (v : BitVec 11) (s : State) : State := (s.select e).setHw e ({ · with maxp := v })

/-- `RegWrite(FUNC_ADDR, v)`. -/
def funcAddrWrite (v : BitVec 7) (s : State) : State := { s.turn with funcAddr := v }

/-- `RegWrite(INDEX, v)`. -/
def indexWrite (v : BitVec 4) (s : State) : State := { s.turn with index := v }

/-- `RegWrite(BUS_EVT, v)`: write-one-to-clear (10_state.md R26). -/
def busEvtWrite (v : BitVec 3) (s : State) : State := let t := s.turn; { t with busEvt := w1c t.busEvt v }

/-- `RegWrite(EP_EVT, v)`: write-one-to-clear (10_state.md R27). -/
def epEvtWrite (v : BitVec 8) (s : State) : State := let t := s.turn; { t with epEvt := w1c t.epEvt v }

/-- `RegWrite(BUS_EVT_EN, v)` (10_state.md R28). -/
def busEvtEnWrite (v : BitVec 3) (s : State) : State := { s.turn with busEvtEn := v }

/-- `RegWrite(EP_EVT_EN, v)`: bits at positions ≥ NUM_EP are reserved and read 0 (10_state.md R28, 30_encoding.md R79). -/
def epEvtEnWrite (v : BitVec 8) (s : State) : State := { s.turn with epEvtEn := v &&& s.params.epMask }

/-- `RegWrite(EP_EVT_EN, f(RegRead(EP_EVT_EN)))`: two accesses. -/
def epEvtEnModify (f : BitVec 8 → BitVec 8) (s : State) : State := let t := s.turn; epEvtEnWrite (f t.epEvtEn) t

/-- `PLAT.pullup <- v`. The guards of the bus steps read it (45_bus_agent.md R177), so the bus agent may act just before it, as
before a register access (00_scope.md R9; log 8). -/
def pullupWrite (v : Bool) (s : State) : State := s.turn.setPlat ({ · with pullup := v })

/-- `EP[e].enabled <- 0`. The guards of the bus steps read it (45_bus_agent.md R171 to R173), so the bus agent may act just
before it (00_scope.md R9; log 8). -/
def enabledClear (e : EpNum) (s : State) : State := s.turn.setEp e ({ · with enabled := false })

/-- `FifoPush(e, b)` (R54). A push into a full FIFO is refused (93_implementation_defined.md U1). R54
has `IPR[e]` = 0 as a precondition and gives no effect where it is 1; the byte is appended there too (DESIGN CHOICE, log
29). -/
def fifoPush (e : EpNum) (b : Byte) (s : State) : Res :=
  let t := s.turn
  if (t.hwAt e).fifo.length < t.params.fifoSize e then .next (t.setHw e fun w => { w with fifo := w.fifo ++ [b] })
  else .refused .fifoFull

/-- The pushes of a packet's bytes, in order. -/
def fifoPushAll (e : EpNum) : List Byte → State → Res
  | [], s => .next s
  | b :: rest, s => thenDo (fifoPush e b s) (fifoPushAll e rest)

/-- A value nothing constrains (93_implementation_defined.md U2, U3; log 10). -/
def State.takeFree (s : State) : Byte × State := (Config.freeByte s.freeCount, { s with freeCount := s.freeCount + 1 })

/-- `FifoPop(e)` (R54). From an empty FIFO any byte comes and the FIFO stays empty (93_implementation_defined.md U2).
R54 has `OPR[e]` = 1 as a precondition and gives no effect where it is 0; the head byte is taken there too (DESIGN CHOICE,
log 29). -/
def fifoPop (e : EpNum) (s : State) : Byte × State :=
  let t := s.turn
  match (t.hwAt e).fifo with
  | [] => t.takeFree
  | b :: rest => (b, t.setHw e ({ · with fifo := rest }))

/-- `n` pops, first byte first. -/
def fifoPopAll (e : EpNum) : Nat → State → List Byte × State
  | 0, s => ([], s)
  | n + 1, s =>
    let r := fifoPop e s
    let q := fifoPopAll e n r.2
    (r.1 :: q.1, q.2)

/-- `n` bytes from FIFO[e] into request h's buffer from offset `i` on, in increasing offset (40_fifo_engine.md R91). -/
def drainInto (e : EpNum) (h : Handle) : Nat → Nat → State → State
  | _, 0, s => s
  | i, n + 1, s =>
    let r := fifoPop e s
    drainInto e h (i + 1) n (r.2.writeBuf h i r.1)

/-! ## Errors, events -/

/-- `raise <Kind>`: the operation stops and returns the kind to its caller; nothing written is undone (00_scope.md R8,
60_exceptions.md R181). -/
def State.raise (k : Kind) (s : State) : Res := .next (s.finish k.code)

/-- A client operation that is done: its result (30_encoding.md R77). -/
def State.returns (v : Int) (s : State) : Res := .next (s.finish v)

/-- Event entry (60_exceptions.md R187, 43_dispatcher.md R141, R142): `in_dispatch` set, `INDEX` saved, both event registers
read and what was read written back, `BUS_EVT` first (20_memory.md R53). Answers the saved `INDEX`, the snapshots b and v,
and the state. -/
def enterDispatch (s : State) : BitVec 4 × BitVec 3 × BitVec 8 × State :=
  let s1 := (s.setDev ({ · with inDispatch := true })).turn
  let saved := s1.index
  let s2 := s1.turn
  let b := s2.busEvt
  let s3 := (busEvtWrite b s2).turn
  let v := s3.epEvt
  (saved, b, v, epEvtWrite v s3)

/-- Return from the event (60_exceptions.md R188, 43_dispatcher.md R141): `INDEX` restored, `in_dispatch` cleared, result
0. -/
def leaveDispatch (saved : BitVec 4) (s : State) : State :=
  ((indexWrite saved s).setDev ({ · with inDispatch := false })).finish 0

/-! ## Packets -/

/-- The three outcomes of `write_fifo` (40_fifo_engine.md R86). -/
inductive WriteOutcome where
  | continues | completeShort | completeFull
  deriving DecidableEq, Repr

/-- `classify(n, T', L, zlp, maxp)` (40_fifo_engine.md R88). -/
def classify (n t' l : Nat) (zlp : Bool) (maxp : Nat) : WriteOutcome :=
  if n < maxp then .completeShort
  else if t' = l ∧ zlp = false then .completeFull
  else .continues

/-- `mark_ready(e, last)`: one write (40_fifo_engine.md R89). On EP0 the last packet's write sets `DATA_END` too, unless the
live `BUS_EVT.RESET` is 1 just before it (R90). -/
def markReady (e : EpNum) (last : Bool) (s : State) : State :=
  if e == 0 && last then
    let t := s.turn
    if evtReset t.busEvt then csrWrite 0 { ipr := some true } t
    else csrWrite 0 { ipr := some true, dataEnd := some true } t
  else csrWrite e { ipr := some true } s

/-! ## Completion -/

/-- `done(e, h, status)` up to the callback, for a request that is in `EP[e].queue` (40_fifo_engine.md R94): dequeue, set the
status once, log. -/
def State.retire (e : EpNum) (h : Handle) (k : Kind) (s : State) : State :=
  let s1 := (s.setEp e fun p => { p with queue := p.queue.erase h }).setReq h ({ · with ep := none })
  let s2 := s1.setReq h fun r => if r.status = .inProgress then { r with status := .finished k } else r
  s2.logDone h (s2.reqAt h).status (s2.reqAt h).transferred

/-- `done(e, h, status)` (R94): then call the completion callback if there is one. -/
def complete (e : EpNum) (h : Handle) (k : Kind) (s : State) : State :=
  let t := s.retire e h k
  if (t.reqAt h).complete then t.invoke (.complete e h) else t

/-- `nuke` over the rest of its snapshot (40_fifo_engine.md R95). A completion callback suspends it. -/
def nukeFrom (e : EpNum) (k : Kind) : List Handle → State → State
  | [], s => s
  | h :: hs, s =>
    if h ∈ (s.epAt e).queue then
      if (s.reqAt h).complete then complete e h k (s.push [.nukeRest e k hs]) else nukeFrom e k hs (complete e h k s)
    else nukeFrom e k hs s

/-- `nuke(e, status)`: over the handles queued at entry, in order (40_fifo_engine.md R95). -/
def nuke (e : EpNum) (k : Kind) (s : State) : State := nukeFrom e k (s.epAt e).queue s

/-! ## EP0 answers and the halt -/

/-- `ep0_stall()`: one write, then `IDLE` (41_ep0_control.md R122). -/
def ep0Stall (s : State) : State := (csrWrite 0 { opr := some false, sendStall := some true } s).setEp0State .idle

/-- `ep0_ack()`: one write (41_ep0_control.md R117). -/
def ep0Ack (s : State) : State := csrWrite 0 { opr := some false, dataEnd := some true } s

/-- `ep0_reply(bytes)` (41_ep0_control.md R116). R116 has `IPR[0]` = 0 as a precondition and gives no effect where it is 1, or
where FIFO[0] holds bytes that the first write does not discard; the reply is appended there too (DESIGN CHOICE, log 29). -/
def ep0Reply (bytes : List Byte) (s : State) : Res :=
  thenDo (fifoPushAll 0 bytes (csrWrite 0 { opr := some false } s)) fun t => .next (markReady 0 true t)

/-- `halt_hw(e, v)`, e ≥ 1 (42_endpoint_ops.md R129). -/
def haltHw (e : EpNum) (v : Bool) (s : State) : State :=
  (csrWrite e (if v then { sendStall := some true } else { sendStall := some false, clrToggle := true }) s).setEp e
    ({ · with halted := v })

end Sys2Proof.Machine
end

