-- ==== Sys2Proof/Machine/FifoEngine.lean ====
section
/-! DEFINITION. The FIFO transfer engine (40_fifo_engine.md): what WRFIFO, RDFIFO, DONE and SERVICE do up to the point where
a completion callback runs. -/

namespace Sys2Proof.Machine

/-- The preconditions of `write_fifo(e)` beside its head request, whose violation 93_implementation_defined.md U4 refuses (R86);
they are tested as the operation is entered (log 11). -/
def wrfifoReady (e : EpNum) (s : State) : Bool :=
  !(s.csrAt e).ipr && (s.hwAt e).fifo.isEmpty && 1 ≤ (s.epAt e).maxp.toNat && (e != 0 || s.dev.ep0state == .inData)

/-- The bytes `write_fifo` moves: min(L - T, maxp) (R87). -/
def wrfifoCount (e : EpNum) (h : Handle) (s : State) : Nat :=
  min ((s.reqAt h).length.toNat - (s.reqAt h).transferred.toNat) (s.epAt e).maxp.toNat

/-- `write_fifo` after the pushes: `transferred`, the outcome, the one write that marks the packet ready, and on the last
packet the EP0 state and the completion (R87, R96, R99). -/
def wrfifoFinish (e : EpNum) (h : Handle) (n : Nat) (s : State) : State :=
  let r := s.reqAt h
  let t' := r.transferred.toNat + n
  let s1 := s.setReq h ({ · with transferred := BitVec.ofNat 32 t' })
  let last := classify n t' r.length.toNat r.zlp (s.epAt e).maxp.toNat != .continues
  let s2 := markReady e last s1
  if last then complete e h .ok (if e == 0 then s2.setEp0State .idle else s2) else s2

/-- `write_fifo(e)` (R87). -/
def wrfifoBody (e : EpNum) (s : State) : Res :=
  match s.head e with
  | none => .refused .fifoPrecondition
  | some h =>
    if wrfifoReady e s then
      let n := wrfifoCount e h s
      thenDo (fifoPushAll e (s.readBuf h (s.reqAt h).transferred.toNat n) s) fun t => .next (wrfifoFinish e h n t)
    else .refused .fifoPrecondition

/-- The preconditions of `read_fifo(e)` beside its head request (R91; U4). -/
def rdfifoReady (e : EpNum) (s : State) : Bool := (s.csrAt e).opr && (e != 0 || s.dev.ep0state == .outData)

/-- Whether a packet of `cnt` bytes finishes the request: it overflows the room, it fills the buffer, or, on e ≥ 1 only, it is
short (R91, R93). `t'` is the new `transferred`. -/
def rdfifoFinishes (ep0 : Bool) (cnt room t' length maxp : Nat) : Bool :=
  room < cnt || t' == length || (!ep0 && cnt < maxp)

/-- `read_fifo` after the pops: `transferred`, the one write that releases the FIFO, and on the last packet the EP0 state and
the completion (R91 to R93, R96, R99). -/
def rdfifoFinish (e : EpNum) (h : Handle) (cnt avail : Nat) (s : State) : State :=
  let r := s.reqAt h
  let room := r.length.toNat - r.transferred.toNat
  let t' := r.transferred.toNat + avail
  let s1 := s.setReq h ({ · with transferred := BitVec.ofNat 32 t' })
  let finished := rdfifoFinishes (e == 0) cnt room t' r.length.toNat (s.epAt e).maxp.toNat
  let s2 := csrWrite e { opr := some false, dataEnd := if e == 0 && finished then some true else none } s1
  if finished then
    complete e h (if room < cnt then .overflow else .ok) (if e == 0 then s2.setEp0State .idle else s2)
  else s2

/-- `read_fifo(e)` for its request: one read of CNT before any pop (R91). -/
def rdfifoMove (e : EpNum) (h : Handle) (s : State) : State :=
  let s1 := s.select e
  let cnt := (s1.hwAt e).cnt
  let r := s1.reqAt h
  let avail := min cnt (r.length.toNat - r.transferred.toNat)
  rdfifoFinish e h cnt avail (drainInto e h r.transferred.toNat avail s1)

/-- `read_fifo(e)` (R91). -/
def rdfifoBody (e : EpNum) (s : State) : Res :=
  match s.head e with
  | none => .refused .fifoPrecondition
  | some h => if rdfifoReady e s then .next (rdfifoMove e h s) else .refused .fifoPrecondition

/-- `service(e)`: start or continue the head request if the hardware is ready (R98). R98 is for e ≥ 1; a written SERVICE 0 runs
the same body on EP0, by `EP[0].dir` the OUT one (DESIGN CHOICE, log 31). -/
def serviceBody (e : EpNum) (s : State) : Res :=
  match s.head e with
  | none => .next s
  | some _ =>
    let t := s.select e
    match (t.epAt e).dir with
    | .inward => if (t.csrAt e).ipr then .next t else wrfifoBody e t
    | .out => if (t.csrAt e).opr then rdfifoBody e t else .next t

/-- `done(e, h, status)` with its precondition (R94). -/
def doneBody (e : EpNum) (h : Handle) (k : Kind) (s : State) : Res :=
  if h ∈ (s.epAt e).queue then .next (complete e h k s) else .refused .requestNotQueued

end Sys2Proof.Machine
end

