-- ==== Sys2Proof/Machine/Ep0.lean ====
section
/-! DEFINITION. The EP0 control-transfer state machine (41_ep0_control.md): `ep0_handle`, the setup packet, the thirteen
requests, and `ep0_kick`, each up to the point where a callback runs. -/

namespace Sys2Proof.Machine

/-- `ep0_setup()` up to its nuke (R104). -/
def ep0Setup (s : State) : State := nuke 0 .aborted (s.push [.ep0ReadSetup])

/-- `ep0_setup()` after its nuke: fewer than 8 bytes are malformed and stalled (R105), else the eight bytes are popped,
byte 0 first, and the packet they make is executed (R104). -/
def ep0ReadSetup (s : State) : State :=
  let t := s.select 0
  if (t.hwAt 0).cnt < 8 then ep0Stall t
  else
    let r := fifoPopAll 0 8 t
    r.2.push [.setup r.1]

/-- The state switch of `ep0_handle`, on the snapshot c of `CSR[0]` (R101, R118 to R121). -/
def ep0Switch (c : Csr) (s : State) : Res :=
  match s.dev.ep0state with
  | .idle => if c.opr then .next (ep0Setup s) else .next s
  | .inData => if (s.head 0).isSome && !c.ipr then wrfifoBody 0 s else .next s
  | .outData => if (s.head 0).isSome && c.opr then rdfifoBody 0 s else .next s
  | .setupPending => .next (s.setEp0State .idle)
  | .endXfer => .next (s.setEp0State .idle)
  | .stall => .next (s.setEp0State .idle)

/-- `ep0_handle` from the test of `SETUP_END` on: `setup_end_seen()` ends the pass (R101, R103, R125). -/
def ep0AfterStallTest (c : Csr) (s : State) : Res :=
  if c.setupEnd then .next (nuke 0 .aborted ((csrWrite 0 { setupEnd := some false } s).push [.ep0Idle]))
  else ep0Switch c s

/-- `ep0_handle()`: one read of `CSR[0]`, then the stall test (R101, R102). -/
def ep0hBody (s : State) : Res :=
  let t := s.select 0
  let c := t.csrAt 0
  if c.sentStall then
    .next (nuke 0 .stalled
      ((csrWrite 0 { sentStall := some false, sendStall := some false } t).push [.ep0AfterStall c]))
  else ep0AfterStallTest c t

/-! ## The requests (R106 to R115) -/

/-- GET_STATUS of the device (R106). -/
def reqGetStatusDev (s : State) : Res := ep0Reply (deviceStatus s.dev) s

/-- GET_STATUS of an endpoint (R107). -/
def reqGetStatusEp (wIndex : BitVec 16) (s : State) : Res :=
  if s.badTarget (indexEp wIndex) then .next (ep0Stall s) else ep0Reply (endpointStatus (s.epAt (indexEp wIndex))) s

/-- SET_ADDRESS (R108). -/
def reqSetAddress (wValue : BitVec 16) (s : State) : Res :=
  let a := wValue.extractLsb' 0 7
  .next (ep0Ack (funcAddrWrite a (s.setDev ({ · with address := a }))))

/-- GET_CONFIGURATION (R109). -/
def reqGetConfiguration (s : State) : Res := ep0Reply [s.dev.config] s

/-- CLEAR_FEATURE(ENDPOINT_HALT) (R110). -/
def reqClearFeatureHalt (wIndex : BitVec 16) (s : State) : Res :=
  let n := indexEp wIndex
  if s.badTarget n then .next (ep0Stall s)
  else .next (ep0Ack (if n == 0 then s else haltHw n false s))

/-- SET_FEATURE(ENDPOINT_HALT) (R111). -/
def reqSetFeatureHalt (wIndex : BitVec 16) (s : State) : Res :=
  let n := indexEp wIndex
  if s.badTarget n then .next (ep0Stall s)
  else if n == 0 then .next (ep0Stall s)
  else .next (ep0Ack (haltHw n true s))

/-- CLEAR_FEATURE and SET_FEATURE(DEVICE_REMOTE_WAKEUP) (R112, rows 5 and 6). -/
def reqRemoteWakeup (v : Bool) (s : State) : Res := .next (ep0Ack (s.setDev ({ · with remoteWakeup := v })))

/-- Every other CLEAR_FEATURE or SET_FEATURE (R112, rows 7 and 8). -/
def reqOtherFeature (s : State) : Res := .next (ep0Stall s)

/-- The call of `setup` that SET_CONFIGURATION and SET_INTERFACE share, with the stall where no driver is registered; with
`FORWARD_CONFIG` false the request is acknowledged instead (R113, R114; 93_implementation_defined.md U9). -/
def configCall (pkt : SetupPkt) (s : State) : Res :=
  if s.params.forwardConfig then
    match s.dev.driver with
    | none => .next (ep0Stall s)
    | some _ => .next ((s.push [.afterConfig]).invoke (.setup pkt))
  else .next (ep0Ack s)

/-- SET_CONFIGURATION (R113). -/
def reqSetConfiguration (pkt : SetupPkt) (s : State) : Res :=
  configCall pkt (s.setDev ({ · with config := pkt.wValue.extractLsb' 0 8 }))

/-- SET_INTERFACE (R114). -/
def reqSetInterface (pkt : SetupPkt) (s : State) : Res := configCall pkt s

/-- The rest of R113 and R114 when `setup` has returned. -/
def afterConfig (s : State) : State := if s.cbResult < 0 then ep0Stall s else ep0Ack s

/-- FORWARD (R115). -/
def reqForward (pkt : SetupPkt) (s : State) : Res :=
  let t := csrWrite 0 { opr := some false } s
  match t.dev.driver with
  | none => .next (ep0Stall t)
  | some _ =>
    .next (((t.setEp0State (if pkt.bmRequestType.getLsbD 7 then .inData else .outData)).push [.afterForward]).invoke
      (.setup pkt))

/-- The rest of R115 when `setup` has returned. -/
def afterForward (s : State) : State := if s.cbResult < 0 then ep0Stall s else s

/-- The handler of a decoded setup request (R104, R106 to R115). Only setup requests come from the decoder; any other
instruction has no handler here and nothing is done. -/
def runRequest (i : Instr) (s : State) : Res :=
  match i with
  | .getStatusDev _ _ _ _ => reqGetStatusDev s
  | .getStatusEp _ _ wIndex _ => reqGetStatusEp wIndex s
  | .clearFeatureHalt _ wIndex _ => reqClearFeatureHalt wIndex s
  | .setFeatureHalt _ wIndex _ => reqSetFeatureHalt wIndex s
  | .clearFeatureRwk _ _ _ => reqRemoteWakeup false s
  | .setFeatureRwk _ _ _ => reqRemoteWakeup true s
  | .clearFeatureOther _ _ _ _ _ => reqOtherFeature s
  | .setFeatureOther _ _ _ _ _ => reqOtherFeature s
  | .setAddress _ wValue _ _ => reqSetAddress wValue s
  | .getConfiguration _ _ _ _ => reqGetConfiguration s
  | .setConfiguration d v x l => reqSetConfiguration (Instr.setConfiguration d v x l).setupPkt s
  | .setInterface d v x l => reqSetInterface (Instr.setInterface d v x l).setupPkt s
  | .forward pkt => reqForward pkt s
  | .dispatch | .regdrv .. | .unregdrv .. | .pullup .. | .selfpwr .. | .epen .. | .epdis .. | .ephalt .. | .epfstat ..
  | .rqalloc .. | .rqfree .. | .rqset .. | .epqueue .. | .epdeq .. | .breset | .bsusp | .bresume | .bsetup .. | .bout ..
  | .bin .. | .bstall .. | .bstatus | .wrfifo .. | .rdfifo .. | .done .. | .nuke .. | .ep0h | .epnh .. | .ctlen
  | .ctldis | .ep0stall | .service .. => .next s

/-! ## Starting an EP0 request from `queue` (R123, R124) -/

/-- `zero_out()` (R124). -/
def zeroOut (h : Handle) (s : State) : State :=
  complete 0 h .ok ((csrWrite 0 { dataEnd := some true } s).setEp0State .idle)

/-- `ep0_kick()` (R123). -/
def ep0Kick (h : Handle) (s : State) : Res :=
  let zeroLength := (s.reqAt h).length == 0
  match s.dev.ep0state with
  | .inData =>
    let t := s.select 0
    if (t.csrAt 0).ipr then .next t else wrfifoBody 0 t
  | .outData =>
    if zeroLength then .next (zeroOut h s)
    else
      let t := s.select 0
      if (t.csrAt 0).opr then rdfifoBody 0 t else .next t
  | .idle => if zeroLength then .next (complete 0 h .ok s) else .next s
  | .setupPending => if zeroLength then .next (complete 0 h .ok s) else .next s
  | .endXfer => if zeroLength then .next (complete 0 h .ok s) else .next s
  | .stall => if zeroLength then .next (complete 0 h .ok s) else .next s

end Sys2Proof.Machine
end

