-- ==== Sys2Proof/Machine/Endpoint.lean ====
section
/-! DEFINITION. The endpoint operations (42_endpoint_ops.md): EPEN, EPDIS, EPHALT, EPQUEUE, EPDEQ, RQALLOC, RQFREE, RQSET,
EPFSTAT, each up to the point where a completion callback runs. The checks stand in the order of each rule. -/

namespace Sys2Proof.Machine

/-- `enable(e, dir, type, maxp)` (R126, R127). -/
def epenBody (e : EpNum) (dir : Bool) (type : BitVec 2) (maxp : BitVec 11) (s : State) : Res :=
  if !s.validEp e then s.raise .invalidArgument
  else if e == 0 then s.raise .invalidArgument
  else if (s.epAt e).enabled then s.raise .busy
  else
    match supportedType s.params e type maxp with
    | none => s.raise .invalidArgument
    | some ty =>
      if s.dev.driver == none then s.raise .notReady
      else
        let s1 := s.setEp e ({ · with dir := dirOf dir, type := ty, maxp := maxp, halted := false, enabled := true })
        let s2 := csrWrite e { fifoFlush := true, clrToggle := true } (maxpWrite e maxp s1)
        (epEvtEnModify (· ||| epBit e) s2).returns 0

/-- The body of `disable(e)` after its checks, up to its nuke (R128). -/
def disableStart (e : EpNum) (s : State) : State :=
  nuke e .shutdown ((enabledClear e s).push [.disableTail e])

/-- The rest of `disable(e)`: "clears the descriptor", flushes, masks (R128). -/
def disableTail (e : EpNum) (s : State) : State :=
  let s1 := s.setEp e ({ · with maxp := 0, dir := .out, type := .bulk, halted := false })
  epEvtEnModify (· &&& ~~~epBit e) (csrWrite e { fifoFlush := true, sendStall := some false } (maxpWrite e 0 s1))

/-- `disable(e)` (R128). -/
def epdisBody (e : EpNum) (s : State) : Res :=
  if !s.validEp e then s.raise .invalidArgument
  else if e == 0 then s.raise .invalidArgument
  else if !(s.epAt e).enabled then s.raise .notReady
  else .next (disableStart e (s.push [.ret 0]))

/-- `set_halt(e, v)` (R129). -/
def ephaltBody (e : EpNum) (v : Bool) (s : State) : Res :=
  if !s.validEp e then s.raise .invalidArgument
  else if e == 0 then (if v then ep0Stall s else s).returns 0
  else if !(s.epAt e).enabled then s.raise .notReady
  else (haltHw e v s).returns 0

/-- The record writes of `queue(e, h)` and the append (R131). -/
def enqueue (e : EpNum) (h : Handle) (s : State) : State :=
  (s.setReq h ({ · with transferred := 0, status := .inProgress, ep := some e })).setEp e fun p =>
    { p with queue := p.queue ++ [h] }

/-- `queue(e, h)` (R131 to R133). -/
def epqueueBody (e : EpNum) (h : Handle) (s : State) : Res :=
  if !s.validEp e || !s.validReq h then s.raise .invalidArgument
  else if (s.reqAt h).status == .inProgress then s.raise .invalidArgument
  else if s.dev.driver == none then s.raise .notReady
  else if e != 0 && !(s.epAt e).enabled then s.raise .notReady
  else
    let wasEmpty := (s.epAt e).queue.isEmpty
    let s1 := enqueue e h (s.push [.ret 0])
    if wasEmpty then (if e == 0 then ep0Kick h s1 else serviceBody e s1) else .next s1

/-- `dequeue(e, h)` (R134). -/
def epdeqBody (e : EpNum) (h : Handle) (s : State) : Res :=
  if !s.validEp e || !s.validReq h then s.raise .invalidArgument
  else if h ∈ (s.epAt e).queue then .next (complete e h .aborted (s.push [.ret 0]))
  else s.raise .invalidArgument

/-- A request record as `alloc_request` hands it out (R135). -/
def Req.allocatedFresh : Req := ⟨true, 0, 0, .idle, false, false, none⟩

/-- `alloc_request(e)` (R135). -/
def rqallocBody (e : EpNum) (s : State) : Res :=
  if !s.validEp e then s.raise .invalidArgument
  else
    match s.freeHandle with
    | none => s.raise .busy
    | some h => (s.setReq h fun _ => Req.allocatedFresh).returns h.toNat

/-- `free_request(e, h)` (R136). -/
def rqfreeBody (e : EpNum) (h : Handle) (s : State) : Res :=
  if !s.validEp e || !s.validReq h then s.raise .invalidArgument
  else if (s.reqAt h).status == .inProgress then s.raise .invalidArgument
  else (s.setReq h ({ · with allocated := false })).returns 0

/-- `RQSET h, zlp, len` (R139). -/
def rqsetBody (h : Handle) (zlp : Bool) (length : BitVec 32) (s : State) : Res :=
  if !s.validReq h then s.raise .invalidArgument
  else if (s.reqAt h).status == .inProgress then s.raise .invalidArgument
  else (s.setReq h ({ · with length := length, zlp := zlp })).returns 0

/-- `fifo_status(e)` (R137). -/
def epfstatBody (e : EpNum) (s : State) : Res :=
  if !s.validEp e then s.raise .invalidArgument
  else if e != 0 && !(s.epAt e).enabled then s.raise .notReady
  else
    let t := s.select e
    if (t.csrAt e).opr then
      let u := t.select e
      u.returns (u.hwAt e).cnt
    else t.returns 0

end Sys2Proof.Machine
end

