-- ==== Sys2Proof/Machine/Lifecycle.lean ====
section
/-! DEFINITION. The controller lifecycle (44_lifecycle.md): enabling and disabling the controller, registering and
unregistering a function driver, the pull-up and the self-powered bit, each up to the point where a callback runs. -/

namespace Sys2Proof.Machine

/-- `enable_controller()` (R153). -/
def enableController (s : State) : State :=
  let s1 := s.setPlat ({ · with padMode := .device, clkGated := false })
  let s2 := epEvtWrite s.params.epMask (busEvtWrite 0b111#3 s1)
  let s3 := epEvtEnModify (· ||| epBit 0) (busEvtEnWrite 0b101#3 s2)
  s3.setPlat ({ · with sysintUnmasked := true })

/-- The call of the `udc_command` hook, a no-op where it is absent (R159, R161). -/
def udcCommand (connect : Bool) (s : State) : State := if s.plat.udcCommand then s.logCb (.udcCommand connect) else s

/-- `disable_controller()` (R154). -/
def disableController (s : State) : State :=
  let s1 := (epEvtEnWrite 0 (busEvtEnWrite 0 s)).setPlat ({ · with sysintUnmasked := false })
  let s2 := udcCommand false (epEvtWrite s.params.epMask (busEvtWrite 0b111#3 s1))
  (pullupWrite false s2).setDev ({ · with speed := .unknown })

/-- `register_function_driver(driver)` up to the call of `bind` (R155). -/
def regdrvBody (id : Handle) (caps : BitVec 7) (s : State) : Res :=
  let d : Driver := ⟨id, caps⟩
  if s.inCallback || s.dev.inDispatch then s.raise .busy
  else if s.dev.driver != none then s.raise .busy
  else if !d.fullSpeed then s.raise .invalidArgument
  else if !d.hasBind || !d.hasDisconnect || !d.hasSetup then s.raise .invalidArgument
  else .next (((s.setDev ({ · with driver := some d })).push [.afterBind]).invoke .bind)

/-- `register` when `bind` has returned: a negative status undoes the registration (R155, R156). -/
def afterBind (s : State) : State :=
  if s.cbResult < 0 then (s.setDev ({ · with driver := none })).finish s.cbResult else (enableController s).finish 0

/-- `unregister_function_driver(driver)` up to the call of `disconnect` (R157). -/
def unregdrvBody (id : Handle) (s : State) : Res :=
  if s.inCallback || s.dev.inDispatch then s.raise .busy
  else if s.dev.driver.map (·.id) != some id then s.raise .invalidArgument
  else .next ((s.push [.unregMain s.params.dataEndpoints]).invoke .disconnect)

/-- `unregister` when `disconnect` has returned, up to `flush_all` (R157). -/
def unregMain (es : List EpNum) (s : State) : State := (disableController s).push [.flushRest es]

/-- `flush_all()` from endpoint list `es` on: each enabled one as `disable` after its checks, then EP0's queue (R158). -/
def flushRest (es : List EpNum) (s : State) : State :=
  match es with
  | [] => nuke 0 .shutdown (s.push [.unregUnbind])
  | e :: rest =>
    if (s.epAt e).enabled then disableStart e (s.push [.flushRest rest]) else s.push [.flushRest rest]

/-- The end of `flush_all` and the call of `unbind`, where the driver has it (R157, R158). -/
def unregUnbind (s : State) : State :=
  let t := (s.setEp0State .idle).push [.unregEnd]
  if t.driverHas (·.hasUnbind) then t.invoke .unbind else t

/-- The end of `unregister` (R157). -/
def unregEnd (s : State) : State := (s.setDev ({ · with driver := none })).finish 0

/-- `PULLUP v` (R159). -/
def pullupBody (on : Bool) (s : State) : Res := (pullupWrite on (udcCommand on s)).returns 0

/-- `SELFPWR v` (R163). -/
def selfpwrBody (v : Bool) (s : State) : Res := (s.setDev ({ · with selfPowered := v })).returns 0

end Sys2Proof.Machine
end

