-- ==== Sys2Proof/Machine/Dispatcher.lean ====
section
/-! DEFINITION. The interrupt dispatcher (43_dispatcher.md): entry, the bus events, and the work it hands to the handlers. -/

namespace Sys2Proof.Machine

/-- `bus_reset()` (R143). The state is `IDLE` before the nuke. -/
def busResetSeen (s : State) : State :=
  let s1 := funcAddrWrite 0 (s.setDev ({ · with address := 0 }))
  let s2 := maxpWrite 0 s.params.ep0Maxp (s1.setEp 0 ({ · with maxp := s.params.ep0Maxp }))
  nuke 0 .aborted (s2.setDev ({ · with speed := .full, ep0state := .idle }))

/-- `notify_resume()` (R144). -/
def notifyResume (s : State) : State :=
  if s.dev.speed != .unknown && s.driverHas (·.hasResume) then s.invoke .resume else s

/-- `notify_suspend()` (R145). -/
def notifySuspend (s : State) : State :=
  if s.dev.speed != .unknown && s.driverHas (·.hasSuspend) then s.invoke .suspend else s

/-- The handlers the snapshots b and v call for, in order (R151, R144 to R147, 60_exceptions.md R186). -/
def dispatchWork (p : Params) (b : BitVec 3) (v : BitVec 8) : List Frame :=
  (if evtResume b then [.notifyResume] else []) ++ (if evtSuspend b then [.notifySuspend] else []) ++
    (if evtOf v 0 then [.op .ep0h] else []) ++
    (p.dataEndpoints.filter (evtOf v)).map fun i => .op (.epnh i)

/-- `dispatch()` (R151): a nested call is `Busy` (R141; from inside a callback too, 42_endpoint_ops.md R140); else entry,
then the reset alone (R143), or the work of the snapshots, and the exit behind it. -/
def dispatchBody (s : State) : Res :=
  if s.dev.inDispatch || s.inCallback then s.raise .busy
  else
    let r := enterDispatch s
    let t := r.2.2.2.push [.dispatchExit r.1]
    if evtReset r.2.1 then .next (busResetSeen t) else .next (t.push (dispatchWork t.params r.2.1 r.2.2.1))

/-- `epn_handle(i)` (R148). R148 is for i ≥ 1; a written EPNH 0 runs the same body on EP0 (DESIGN CHOICE, log 31). -/
def epnhBody (e : EpNum) (s : State) : Res :=
  let t := s.select e
  serviceBody e (if (t.csrAt e).sentStall then csrWrite e { sentStall := some false } t else t)

end Sys2Proof.Machine
end

