-- ==== Sys2Proof/Machine/Engine.lean ====
section
/-! DEFINITION. Running the pending work (42_endpoint_ops.md R140): one frame, and all of it until nothing is pending or a
callback waits for the client. -/

namespace Sys2Proof.Machine

/-- An internal operation (30_encoding.md R74), up to the point where a callback runs. -/
def runOp (o : IntOp) (s : State) : Res :=
  match o with
  | .wrfifo e => wrfifoBody e s
  | .rdfifo e => rdfifoBody e s
  | .done e h k => doneBody e h k s
  | .nuke e k => .next (nuke e k s)
  | .ep0h => ep0hBody s
  | .epnh e => epnhBody e s
  | .ctlen => .next (enableController s)
  | .ctldis => .next (disableController s)
  | .ep0stall => .next (ep0Stall s)
  | .service e => serviceBody e s

/-- What a frame stands for, in the state from whose stack it has been taken. A callback does nothing by itself. -/
def runFrame (f : Frame) (s : State) : Res :=
  match f with
  | .callback _ => .next s
  | .op o => runOp o s
  | .setup bytes => runRequest (decodeSetup (wordOfBytes bytes)) s
  | .nukeRest e k hs => .next (nukeFrom e k hs s)
  | .ret v => .next (s.finish v)
  | .dispatchExit saved => .next (leaveDispatch saved s)
  | .notifyResume => .next (notifyResume s)
  | .notifySuspend => .next (notifySuspend s)
  | .ep0AfterStall c => ep0AfterStallTest c (s.setEp0State .idle)
  | .ep0Idle => .next (s.setEp0State .idle)
  | .ep0ReadSetup => .next (ep0ReadSetup s)
  | .afterConfig => .next (afterConfig s)
  | .afterForward => .next (afterForward s)
  | .afterBind => .next (afterBind s)
  | .disableTail e => .next (disableTail e s)
  | .unregMain es => .next (unregMain es s)
  | .flushRest es => .next (flushRest es s)
  | .unregUnbind => .next (unregUnbind s)
  | .unregEnd => .next (unregEnd s)

/-- How many frames running a frame can bring up before a callback waits, itself included: a bound that goes down as work
is done. -/
def Frame.weight : Frame → Nat
  | .callback _ => 0
  | .op .ep0h => 5
  | .op _ => 1
  | .setup _ => 2
  | .nukeRest .. | .ret _ | .dispatchExit _ | .notifyResume | .notifySuspend | .ep0Idle | .afterConfig | .afterForward
  | .afterBind | .disableTail _ | .unregEnd => 1
  | .ep0AfterStall _ => 4
  | .ep0ReadSetup => 3
  | .unregMain es => 2 * es.length + 4
  | .flushRest es => 2 * es.length + 3
  | .unregUnbind => 2

/-- The bound for a whole stack. -/
def stackWeight (fs : List Frame) : Nat := (fs.map Frame.weight).sum

/-- Run pending frames, innermost first, until nothing is pending or a callback is innermost; at most `n` of them. -/
def runPending : Nat → State → Res
  | 0, s => .next s
  | n + 1, s =>
    match s.stack with
    | [] => .next s
    | f :: rest => if f.isCallback then .next s else thenDo (runFrame f { s with stack := rest }) (runPending n)

/-- Run everything that is due before the client moves. -/
def settle (s : State) : Res := runPending (stackWeight s.stack) s

/-- An operation: its own part, then everything it left pending. -/
def runToEnd (r : Res) : Res := thenDo r settle

end Sys2Proof.Machine
end

