-- ==== Sys2Proof/Machine/ClientOps.lean ====
section
/-! DEFINITION. The meanings of the fourteen client operations (30_encoding.md R71): the operation's own part, then whatever
it left pending, up to its end or to a callback. -/

namespace Sys2Proof.Machine

/-- DISPATCH (43_dispatcher.md R151). -/
def execDispatch (s : State) : Res := runToEnd (dispatchBody s)

/-- REGDRV (44_lifecycle.md R155). -/
def execRegdrv (driver : Handle) (caps : BitVec 7) (s : State) : Res := runToEnd (regdrvBody driver caps s)

/-- UNREGDRV (44_lifecycle.md R157). -/
def execUnregdrv (driver : Handle) (s : State) : Res := runToEnd (unregdrvBody driver s)

/-- PULLUP (44_lifecycle.md R159). -/
def execPullup (on : Bool) (s : State) : Res := runToEnd (pullupBody on s)

/-- SELFPWR (44_lifecycle.md R163). -/
def execSelfpwr (value : Bool) (s : State) : Res := runToEnd (selfpwrBody value s)

/-- EPEN (42_endpoint_ops.md R126). -/
def execEpen (ep : EpNum) (dir : Bool) (type : BitVec 2) (maxp : BitVec 11) (s : State) : Res :=
  runToEnd (epenBody ep dir type maxp s)

/-- EPDIS (42_endpoint_ops.md R128). -/
def execEpdis (ep : EpNum) (s : State) : Res := runToEnd (epdisBody ep s)

/-- EPHALT (42_endpoint_ops.md R129). -/
def execEphalt (ep : EpNum) (value : Bool) (s : State) : Res := runToEnd (ephaltBody ep value s)

/-- EPFSTAT (42_endpoint_ops.md R137). -/
def execEpfstat (ep : EpNum) (s : State) : Res := runToEnd (epfstatBody ep s)

/-- RQALLOC (42_endpoint_ops.md R135). -/
def execRqalloc (ep : EpNum) (s : State) : Res := runToEnd (rqallocBody ep s)

/-- RQFREE (42_endpoint_ops.md R136). -/
def execRqfree (ep : EpNum) (h : Handle) (s : State) : Res := runToEnd (rqfreeBody ep h s)

/-- RQSET (42_endpoint_ops.md R139). -/
def execRqset (h : Handle) (zlp : Bool) (length : BitVec 32) (s : State) : Res := runToEnd (rqsetBody h zlp length s)

/-- EPQUEUE (42_endpoint_ops.md R131). -/
def execEpqueue (ep : EpNum) (h : Handle) (s : State) : Res := runToEnd (epqueueBody ep h s)

/-- EPDEQ (42_endpoint_ops.md R134). -/
def execEpdeq (ep : EpNum) (h : Handle) (s : State) : Res := runToEnd (epdeqBody ep h s)

end Sys2Proof.Machine
end

