-- ==== Sys2Proof/Machine/InternalOps.lean ====
section
/-! DEFINITION. The meanings of the ten internal operations (30_encoding.md R74), each as one operation of the engine: its own
part, then whatever it left pending. -/

namespace Sys2Proof.Machine

/-- WRFIFO (40_fifo_engine.md R87). -/
def execWrfifo (ep : EpNum) (s : State) : Res := runToEnd (wrfifoBody ep s)

/-- RDFIFO (40_fifo_engine.md R91). -/
def execRdfifo (ep : EpNum) (s : State) : Res := runToEnd (rdfifoBody ep s)

/-- DONE (40_fifo_engine.md R94). -/
def execDone (ep : EpNum) (h : Handle) (status : Kind) (s : State) : Res := runToEnd (doneBody ep h status s)

/-- NUKE (40_fifo_engine.md R95). -/
def execNuke (ep : EpNum) (status : Kind) (s : State) : Res := runToEnd (.next (nuke ep status s))

/-- EP0H (41_ep0_control.md R101). -/
def execEp0h (s : State) : Res := runToEnd (ep0hBody s)

/-- EPNH (43_dispatcher.md R148). -/
def execEpnh (ep : EpNum) (s : State) : Res := runToEnd (epnhBody ep s)

/-- CTLEN (44_lifecycle.md R153). -/
def execCtlen (s : State) : Res := runToEnd (.next (enableController s))

/-- CTLDIS (44_lifecycle.md R154). -/
def execCtldis (s : State) : Res := runToEnd (.next (disableController s))

/-- EP0STALL (41_ep0_control.md R122). -/
def execEp0stall (s : State) : Res := runToEnd (.next (ep0Stall s))

/-- SERVICE (40_fifo_engine.md R98). -/
def execService (ep : EpNum) (s : State) : Res := runToEnd (serviceBody ep s)

end Sys2Proof.Machine
end

