-- ==== Sys2Proof/Machine/SetupRequests.lean ====
section
/-! DEFINITION. The meanings of the thirteen setup requests (30_encoding.md R68; 41_ep0_control.md R106 to R115): the
request's handler, then whatever it left pending. -/

namespace Sys2Proof.Machine

/-- GET_STATUS.dev (R106). -/
def execGetStatusDev (_dir : Bool) (_wValue _wIndex _wLength : BitVec 16) (s : State) : Res :=
  runToEnd (reqGetStatusDev s)

/-- GET_STATUS.ep (R107). -/
def execGetStatusEp (_dir : Bool) (_wValue wIndex _wLength : BitVec 16) (s : State) : Res :=
  runToEnd (reqGetStatusEp wIndex s)

/-- CLEAR_FEATURE.halt (R110). -/
def execClearFeatureHalt (_dir : Bool) (wIndex _wLength : BitVec 16) (s : State) : Res :=
  runToEnd (reqClearFeatureHalt wIndex s)

/-- SET_FEATURE.halt (R111). -/
def execSetFeatureHalt (_dir : Bool) (wIndex _wLength : BitVec 16) (s : State) : Res :=
  runToEnd (reqSetFeatureHalt wIndex s)

/-- CLEAR_FEATURE.rwk (R112). -/
def execClearFeatureRwk (_dir : Bool) (_wIndex _wLength : BitVec 16) (s : State) : Res :=
  runToEnd (reqRemoteWakeup false s)

/-- SET_FEATURE.rwk (R112). -/
def execSetFeatureRwk (_dir : Bool) (_wIndex _wLength : BitVec 16) (s : State) : Res :=
  runToEnd (reqRemoteWakeup true s)

/-- CLEAR_FEATURE.other (R112). -/
def execClearFeatureOther (_dir : Bool) (_recipient : BitVec 5) (_wValue _wIndex _wLength : BitVec 16) (s : State) : Res :=
  runToEnd (reqOtherFeature s)

/-- SET_FEATURE.other (R112). -/
def execSetFeatureOther (_dir : Bool) (_recipient : BitVec 5) (_wValue _wIndex _wLength : BitVec 16) (s : State) : Res :=
  runToEnd (reqOtherFeature s)

/-- SET_ADDRESS (R108). -/
def execSetAddress (_dir : Bool) (wValue _wIndex _wLength : BitVec 16) (s : State) : Res :=
  runToEnd (reqSetAddress wValue s)

/-- GET_CONFIGURATION (R109). -/
def execGetConfiguration (_dir : Bool) (_wValue _wIndex _wLength : BitVec 16) (s : State) : Res :=
  runToEnd (reqGetConfiguration s)

/-- SET_CONFIGURATION (R113). -/
def execSetConfiguration (dir : Bool) (wValue wIndex wLength : BitVec 16) (s : State) : Res :=
  runToEnd (reqSetConfiguration (Instr.setConfiguration dir wValue wIndex wLength).setupPkt s)

/-- SET_INTERFACE (R114). -/
def execSetInterface (dir : Bool) (wValue wIndex wLength : BitVec 16) (s : State) : Res :=
  runToEnd (reqSetInterface (Instr.setInterface dir wValue wIndex wLength).setupPkt s)

/-- FORWARD (R115). -/
def execForward (pkt : SetupPkt) (s : State) : Res := runToEnd (reqForward pkt s)

end Sys2Proof.Machine
end

