-- ==== Sys2Proof/Machine/Dispatch.lean ====
section
/-! DEFINITION. One arm per operation of the block. -/

namespace Sys2Proof.Machine

def exec (i : Instr) (s : State) : Host.Outcome State Fault Refusal :=
  match i with
  -- setup requests (30_encoding.md R68)
  | .getStatusDev dir wValue wIndex wLength => Sys2Proof.Machine.execGetStatusDev dir wValue wIndex wLength s
  | .getStatusEp dir wValue wIndex wLength => Sys2Proof.Machine.execGetStatusEp dir wValue wIndex wLength s
  | .clearFeatureHalt dir wIndex wLength => Sys2Proof.Machine.execClearFeatureHalt dir wIndex wLength s
  | .setFeatureHalt dir wIndex wLength => Sys2Proof.Machine.execSetFeatureHalt dir wIndex wLength s
  | .clearFeatureRwk dir wIndex wLength => Sys2Proof.Machine.execClearFeatureRwk dir wIndex wLength s
  | .setFeatureRwk dir wIndex wLength => Sys2Proof.Machine.execSetFeatureRwk dir wIndex wLength s
  | .clearFeatureOther dir r wValue wIndex wLength => Sys2Proof.Machine.execClearFeatureOther dir r wValue wIndex wLength s
  | .setFeatureOther dir r wValue wIndex wLength => Sys2Proof.Machine.execSetFeatureOther dir r wValue wIndex wLength s
  | .setAddress dir wValue wIndex wLength => Sys2Proof.Machine.execSetAddress dir wValue wIndex wLength s
  | .getConfiguration dir wValue wIndex wLength => Sys2Proof.Machine.execGetConfiguration dir wValue wIndex wLength s
  | .setConfiguration dir wValue wIndex wLength => Sys2Proof.Machine.execSetConfiguration dir wValue wIndex wLength s
  | .setInterface dir wValue wIndex wLength => Sys2Proof.Machine.execSetInterface dir wValue wIndex wLength s
  | .forward pkt => Sys2Proof.Machine.execForward pkt s
  -- client operations (30_encoding.md R71)
  | .dispatch => Sys2Proof.Machine.execDispatch s
  | .regdrv driver caps => Sys2Proof.Machine.execRegdrv driver caps s
  | .unregdrv driver => Sys2Proof.Machine.execUnregdrv driver s
  | .pullup on => Sys2Proof.Machine.execPullup on s
  | .selfpwr value => Sys2Proof.Machine.execSelfpwr value s
  | .epen ep dir type maxp => Sys2Proof.Machine.execEpen ep dir type maxp s
  | .epdis ep => Sys2Proof.Machine.execEpdis ep s
  | .ephalt ep value => Sys2Proof.Machine.execEphalt ep value s
  | .epfstat ep => Sys2Proof.Machine.execEpfstat ep s
  | .rqalloc ep => Sys2Proof.Machine.execRqalloc ep s
  | .rqfree ep h => Sys2Proof.Machine.execRqfree ep h s
  | .rqset h zlp length => Sys2Proof.Machine.execRqset h zlp length s
  | .epqueue ep h => Sys2Proof.Machine.execEpqueue ep h s
  | .epdeq ep h => Sys2Proof.Machine.execEpdeq ep h s
  -- bus events (30_encoding.md R73)
  | .breset => Sys2Proof.Machine.execBreset s
  | .bsusp => Sys2Proof.Machine.execBsusp s
  | .bresume => Sys2Proof.Machine.execBresume s
  | .bsetup payload => Sys2Proof.Machine.execBsetup payload s
  | .bout ep payload => Sys2Proof.Machine.execBout ep payload s
  | .bin ep => Sys2Proof.Machine.execBin ep s
  | .bstall ep => Sys2Proof.Machine.execBstall ep s
  | .bstatus => Sys2Proof.Machine.execBstatus s
  -- internal operations (30_encoding.md R74)
  | .wrfifo ep => Sys2Proof.Machine.execWrfifo ep s
  | .rdfifo ep => Sys2Proof.Machine.execRdfifo ep s
  | .done ep h status => Sys2Proof.Machine.execDone ep h status s
  | .nuke ep status => Sys2Proof.Machine.execNuke ep status s
  | .ep0h => Sys2Proof.Machine.execEp0h s
  | .epnh ep => Sys2Proof.Machine.execEpnh ep s
  | .ctlen => Sys2Proof.Machine.execCtlen s
  | .ctldis => Sys2Proof.Machine.execCtldis s
  | .ep0stall => Sys2Proof.Machine.execEp0stall s
  | .service ep => Sys2Proof.Machine.execService ep s

end Sys2Proof.Machine
end

