-- ==== Sys2Proof/Machine/Fetch.lean ====
section
/-! DEFINITION. What the machine does next: the work that is due, or the next thing the outside gives it, decoded
(00_scope.md R11, 30_encoding.md R80, R81; log 7, log 13, log 14). -/

namespace Sys2Proof.Machine

/-- The instruction of an internal operation (30_encoding.md R74). -/
def IntOp.instr : IntOp → Instr
  | .wrfifo e => .wrfifo e
  | .rdfifo e => .rdfifo e
  | .done e h k => .done e h k
  | .nuke e k => .nuke e k
  | .ep0h => .ep0h
  | .epnh e => .epnh e
  | .ctlen => .ctlen
  | .ctldis => .ctldis
  | .ep0stall => .ep0stall
  | .service e => .service e

/-- The internal operation an instruction is, if it is one. -/
def intOpOf : Instr → Option IntOp
  | .wrfifo e => some (.wrfifo e)
  | .rdfifo e => some (.rdfifo e)
  | .done e h k => some (.done e h k)
  | .nuke e k => some (.nuke e k)
  | .ep0h => some .ep0h
  | .epnh e => some (.epnh e)
  | .ctlen => some .ctlen
  | .ctldis => some .ctldis
  | .ep0stall => some .ep0stall
  | .service e => some (.service e)
  | .getStatusDev .. | .getStatusEp .. | .clearFeatureHalt .. | .setFeatureHalt .. | .clearFeatureRwk ..
  | .setFeatureRwk .. | .clearFeatureOther .. | .setFeatureOther .. | .setAddress .. | .getConfiguration ..
  | .setConfiguration .. | .setInterface .. | .forward .. | .dispatch | .regdrv .. | .unregdrv .. | .pullup ..
  | .selfpwr .. | .epen .. | .epdis .. | .ephalt .. | .epfstat .. | .rqalloc .. | .rqfree .. | .rqset ..
  | .epqueue .. | .epdeq .. | .breset | .bsusp | .bresume | .bsetup .. | .bout .. | .bin .. | .bstall ..
  | .bstatus => none

/-- What a step has to do: run one instruction in a state that is past it, or nothing but the given answer. -/
inductive Fetched where
  | run (i : Instr) (s : State)
  | answer (r : Res)

/-- Bytes of a port that are not yet used stay in front of what follows. -/
def restOf (port : List Byte → Input) (rest : List Byte) (more : List Input) : List Input :=
  if rest.isEmpty then more else port rest :: more

/-- What is left of a port's bytes after a refused word: the word is used up, on the bus port with the payload it announces
(30_encoding.md R81); an incomplete word is dropped (log 13). -/
def afterRefused (bus : Bool) (bytes : List Byte) : Reject → List Byte
  | .truncated => []
  | .unknownOp _ | .internalTag _ | .unusedField _ =>
    bytes.drop (8 + if bus then (valueField (wordOfBytes bytes)).toNat else 0)

/-- The client port: a legal word is run, an illegal one is refused with `InvalidArgument` and no state changes (R80 b). -/
def fetchClient (bytes : List Byte) (more : List Input) (s : State) : Fetched :=
  match decode .client bytes with
  | .ok (i, rest) => .run i { s with input := restOf .client rest more }
  | .error q => .answer (State.raise .invalidArgument { s with input := restOf .client (afterRefused false bytes q) more })

/-- The bus port (R72, R80 b). -/
def fetchBus (bytes : List Byte) (more : List Input) (s : State) : Fetched :=
  match decode .bus bytes with
  | .ok (i, rest) => .run i { s with input := restOf .bus rest more }
  | .error q =>
    .answer (.next { s with input := restOf .bus (afterRefused true bytes q) more, busResult := .invalid })

/-- The client returns from the innermost callback with status r: the operation that called it goes on
(42_endpoint_ops.md R140). -/
def callbackReturn (r : Int) (s : State) : Res :=
  match s.stack with
  | [] => .refused .returnWithoutCallback
  | f :: rest =>
    if f.isCallback then settle { s with stack := rest, cbResult := r } else .refused .returnWithoutCallback

/-- The client's own write of a buffer byte (10_state.md R18; 93_implementation_defined.md U6 lets it race). -/
def clientWriteBuf (h : Handle) (offset : BitVec 32) (b : Byte) (s : State) : Res :=
  if h.toNat < s.params.numReq then .next (s.writeBuf h offset.toNat b) else .fault .noSuchRequest

/-- The client sets or removes a completion callback; of a queued request it may not (10_state.md R19 e,
93_implementation_defined.md U6: `refuse`). -/
def clientSetComplete (h : Handle) (present : Bool) (s : State) : Res :=
  if h.toNat < s.params.numReq then
    if (s.reqAt h).status == .inProgress then .refused .clientWritesQueuedRequest
    else .next (s.setReq h ({ · with complete := present }))
  else .fault .noSuchRequest

/-- The next thing the outside gives. With nothing given nothing happens (R215; 93_implementation_defined.md U11, U12). -/
def fetchInput (s : State) : Fetched :=
  match s.input with
  | [] => .answer (.next s)
  | .client bytes :: more => fetchClient bytes more s
  | .bus bytes :: more => fetchBus bytes more s
  | .callbackReturn r :: more => .answer (callbackReturn r { s with input := more })
  | .writeBuf h offset b :: more => .answer (clientWriteBuf h offset b { s with input := more })
  | .setComplete h present :: more => .answer (clientSetComplete h present { s with input := more })

/-- Work that is due comes first; an internal operation and a setup packet are run as the instructions they are. While a
callback is innermost the outside moves. -/
def fetch (s : State) : Fetched :=
  match s.stack with
  | [] => fetchInput s
  | .op o :: rest => .run o.instr { s with stack := rest }
  | .setup bytes :: rest => .run (decodeSetup (wordOfBytes bytes)) { s with stack := rest }
  | f :: _ => if f.isCallback then fetchInput s else .answer (settle s)

/-- A word of the opcode table, placed where the next step fetches: the client and bus ports are the head of the input,
with no work due before it; a setup packet and an internal operation are due work (log 14). -/
def placeWord (nbits w : Nat) (s : State) : State :=
  let word : Word := BitVec.ofNat 64 (w % 2 ^ nbits)
  let bytes := tableBytes nbits w
  let waiting := s.stack.dropWhile (!·.isCallback)
  match tablePort nbits word with
  | .setup => { s with stack := .setup (bytes.take 8) :: s.stack }
  | .client => { s with stack := waiting, input := .client (bytes.take 8) :: s.input }
  | .bus => { s with stack := waiting, input := .bus (bytes.take (8 + (valueField word).toNat)) :: s.input }
  | .engine =>
    match decodeInt word with
    | .ok i => { s with stack := ((intOpOf i).map Frame.op).toList ++ s.stack }
    | .error _ => s

end Sys2Proof.Machine
end

