-- ==== Sys2Proof/Machine/Step.lean ====
section
/-! DEFINITION. One step of the machine, and the host's placing of an instruction word. -/

namespace Sys2Proof.Machine

/-- One step: the next instruction, or what else is next. -/
def step (s : State) : Host.Outcome State Fault Refusal :=
  match fetch s with
  | .run i t => exec i t
  | .answer r => r

/-- The state whose next step fetches and runs a word of the opcode table. -/
def State.withFetchWord (s : State) (nbits w : Nat) : State := placeWord nbits w s

end Sys2Proof.Machine
end

