-- ==== Sys2Proof/Machine/Pseudo.lean ====
section
/-! DEFINITION. The pseudo-operations (30_encoding.md R83). They are written with operations of the block and add none. -/

namespace Sys2Proof.Machine

/-- `POLL`: `DISPATCH` if the interrupt line is up, otherwise nothing: the boot loop's check. -/
def poll (s : State) : Res := if s.irqLine then exec .dispatch s else .next s

/-- `RUN`: `POLL` until `IRQ_PENDING` = 0. While an operation that a `POLL` started waits in a callback, so that more is pending
than the `base` frames `RUN` began on, the client moves and `RUN` waits for it. The bus agent may act before each look at
`IRQ_PENDING` (00_scope.md R11). The answer, or `none` where `RUN` has not ended in `n` moves. -/
def runFrom (base : Nat) : Nat → State → Option Res
  | 0, _ => none
  | n + 1, s =>
    if base < s.stack.length then
      match step s with
      | .next t => runFrom base n t
      | .fault q => some (.fault q)
      | .refused q => some (.refused q)
    else if s.turn.irqPending then
      match poll s.turn with
      | .next t => runFrom base n t
      | .fault q => some (.fault q)
      | .refused q => some (.refused q)
    else some (.next s.turn)

/-- `RUN` (30_encoding.md R83, 70_reset_and_hazards.md R215). -/
def run (n : Nat) (s : State) : Option Res := runFrom s.stack.length n s

/-- `RQNEW rN, len, zlp`: `RQALLOC 0 -> rN` followed by `RQSET rN, zlp, len`. R83 does not say what follows an `RQALLOC` that
fails: there is no `rN`, so no `RQSET`, and the error is the result (DESIGN CHOICE, log 33). -/
def rqnew (length : BitVec 32) (zlp : Bool) (s : State) : Res :=
  thenDo (exec (.rqalloc 0) s) fun t =>
    if t.cmdResult < 0 then .next t else exec (.rqset (BitVec.ofInt 16 t.cmdResult) zlp length) t

/-- `HALT ep`. -/
def haltPseudo (ep : EpNum) : Instr := .ephalt ep true

/-- `UNHALT ep`. -/
def unhaltPseudo (ep : EpNum) : Instr := .ephalt ep false

end Sys2Proof.Machine
end

