-- ==== Sys2Proof/Machine/RegBlock.lean ====
section
/-! DEFINITION. The register block as bytes at offsets (30_encoding.md R78, R79; 20_memory.md R47, R51, R57): one byte-wide
read or write, with its side effects. The engine's accesses of Ops.lean are these, by field. The layout is the spec's own
(D5); no meaning depends on a position. -/

namespace Sys2Proof.Machine

/-- The registers of the block. -/
inductive Reg where
  | funcAddr | epEvt | busEvt | epEvtEn | busEvtEn | index | maxp | csr | cnt
  | fifoData (e : EpNum)
  deriving DecidableEq, Repr

/-- The register at an offset from REG_BASE; the other offsets are reserved (R78). -/
def regAt (p : Params) (offset : Nat) : Option Reg :=
  match offset with
  | 0x00 => some .funcAddr
  | 0x02 => some .epEvt
  | 0x03 => some .busEvt
  | 0x04 => some .epEvtEn
  | 0x05 => some .busEvtEn
  | 0x06 => some .index
  | 0x08 => some .maxp
  | 0x09 => some .csr
  | 0x0A => some .cnt
  | n => if 0x10 ≤ n && n < 0x10 + p.numEp then some (.fifoData (BitVec.ofNat 4 (n - 0x10))) else none

/-- The register at a physical address (R47, R59). -/
def regAtAddress (p : Params) (address : Nat) : Option Reg :=
  if p.regBase ≤ address then regAt p (address - p.regBase) else none

/-- `INDEX` selects an endpoint that exists (10_state.md R29). -/
def State.indexValid (s : State) : Bool := s.validEp s.index

/-- One byte read of a register, after the bus agent's turn. A FIFO data register pops (R35); an indexed register with
INDEX ≥ NUM_EP gives any value (93_implementation_defined.md U3). MAXP and CNT show their low byte (log 19). -/
def Reg.read (r : Reg) (s : State) : Byte × State :=
  let t := s.turn
  match r with
  | .funcAddr => (0#1 ++ t.funcAddr, t)
  | .epEvt => (t.epEvt, t)
  | .busEvt => (0#5 ++ t.busEvt, t)
  | .epEvtEn => (t.epEvtEn, t)
  | .busEvtEn => (0#5 ++ t.busEvtEn, t)
  | .index => (0#4 ++ t.index, t)
  | .maxp => if t.indexValid then ((t.hwAt t.index).maxp.setWidth 8, t) else t.takeFree
  | .csr => if t.indexValid then ((t.csrAt t.index).toByte (t.index == 0), t) else t.takeFree
  | .cnt => if t.indexValid then (BitVec.ofNat 8 (t.hwAt t.index).cnt, t) else t.takeFree
  | .fifoData e => fifoPop e s

/-- One byte write of a register, after the bus agent's turn. Reserved bits are ignored; the event registers are
write-one-to-clear; CNT is read-only (10_state.md R25 to R35). -/
def Reg.write (r : Reg) (v : Byte) (s : State) : Res :=
  let t := s.turn
  match r with
  | .funcAddr => .next (funcAddrWrite (v.extractLsb' 0 7) s)
  | .epEvt => .next (epEvtWrite v s)
  | .busEvt => .next (busEvtWrite (v.extractLsb' 0 3) s)
  | .epEvtEn => .next (epEvtEnWrite v s)
  | .busEvtEn => .next (busEvtEnWrite (v.extractLsb' 0 3) s)
  | .index => .next (indexWrite (v.extractLsb' 0 4) s)
  | .maxp => .next (if t.indexValid then t.setHw t.index ({ · with maxp := v.setWidth 11 }) else t)
  | .csr => .next (if t.indexValid then t.applyCsr t.index (CsrUpdate.ofByte (t.index == 0) v) else t)
  | .cnt => .next t
  | .fifoData e => fifoPush e v s

/-- A byte read at an offset; a reserved offset gives any value (93_implementation_defined.md U3). -/
def regRead (offset : Nat) (s : State) : Byte × State :=
  match regAt s.params offset with
  | some r => r.read s
  | none => s.turn.takeFree

/-- A byte write at an offset; a reserved offset ignores it (U3). -/
def regWrite (offset : Nat) (v : Byte) (s : State) : Res :=
  match regAt s.params offset with
  | some r => r.write v s
  | none => .next s.turn

/-- The read-modify-write of CSR of the endpoint that `INDEX` selects (20_memory.md R51): read the byte, change the named
bits, write the byte back; for the unnamed bits see `CsrUpdate.mergeByte` (log 32). -/
def csrReadModifyWrite (u : CsrUpdate) (s : State) : Res :=
  let r := Reg.csr.read s
  Reg.csr.write (u.mergeByte (r.2.index == 0) r.1) r.2

end Sys2Proof.Machine
end

