-- ==== Sys2Proof/Safety.lean ====
section
/-! DEFINITION. What every state of a run keeps: the invariants of 10_state.md, each under its own name and all together, and
the hypotheses under which an operation's result is stated. -/

namespace Sys2Proof.Machine

/-- The operation runs alone: the bus agent makes no move between its register accesses (00_scope.md R9 allows it to), and
no work of another operation is due before the client moves. -/
structure State.Quiet (s : State) : Prop where
  race : s.race = []
  settled : s.settled = true

/-- The records exist exactly for the numbers the parameters give, and an endpoint's number is its place (10_state.md R15,
R18; 00_scope.md R6). -/
structure State.Shaped (s : State) : Prop where
  params : s.params.wf = true
  eps : s.eps.length = s.params.numEp
  hw : s.hw.length = s.params.numEp
  reqs : s.reqs.length = s.params.numReq
  num : ∀ e, (s.epAt e).num = e

/-- Bits of EP_EVT and EP_EVT_EN at positions ≥ NUM_EP are 0 (10_state.md R27, R28; 30_encoding.md R79). -/
structure State.ReservedZero (s : State) : Prop where
  epEvt : s.epEvt &&& ~~~s.params.epMask = 0
  epEvtEn : s.epEvtEn &&& ~~~s.params.epMask = 0

/-- EP0 is the control endpoint, always enabled, never halted, and its max-packet is EP0_MAXP (10_state.md R13, R16). -/
structure State.Ep0Fixed (s : State) : Prop where
  type : (s.epAt 0).type = .control
  enabled : (s.epAt 0).enabled = true
  halted : (s.epAt 0).halted = false
  maxp : (s.epAt 0).maxp = s.params.ep0Maxp

/-- No endpoint's max-packet exceeds its FIFO, in the record and in the register (10_state.md R16 b). -/
structure State.MaxpBounded (s : State) : Prop where
  record : ∀ e, (s.epAt e).maxp.toNat ≤ s.params.fifoSize e
  register : ∀ e, (s.hwAt e).maxp.toNat ≤ s.params.fifoSize e

/-- Queues and requests agree: a queued request is an existing, allocated one in progress that names its endpoint, no queue
names a request twice, and a request in progress stands in the queue it names (10_state.md R16, R17, R19). -/
structure State.QueuesSound (s : State) : Prop where
  nodup : ∀ e, (s.epAt e).queue.Nodup
  queued : ∀ e h, h ∈ (s.epAt e).queue →
    h.toNat < s.params.numReq ∧ (s.reqAt h).status = .inProgress ∧ (s.reqAt h).allocated = true ∧ (s.reqAt h).ep = some e
  inProgress : ∀ h, (s.reqAt h).status = .inProgress → ∃ e, (s.reqAt h).ep = some e ∧ h ∈ (s.epAt e).queue
  notQueued : ∀ h, (s.reqAt h).status ≠ .inProgress → (s.reqAt h).ep = none

/-- `transferred` ≤ `length` while a request is in progress (10_state.md R19). -/
def State.ProgressBounded (s : State) : Prop :=
  ∀ h, (s.reqAt h).status = .inProgress → (s.reqAt h).transferred.toNat ≤ (s.reqAt h).length.toNat

/-- A FIFO and its byte count never exceed FIFO_SIZE, and the count is 0 while OPR is 0 (10_state.md R33, R34). -/
structure State.FifoBounded (s : State) : Prop where
  fifo : ∀ e, (s.hwAt e).fifo.length ≤ s.params.fifoSize e
  cnt : ∀ e, (s.hwAt e).cnt ≤ s.params.fifoSize e
  empty : ∀ e, (s.csrAt e).opr = false → (s.hwAt e).cnt = 0

/-- EP0 is in one of the three states some rule enters (41_ep0_control.md R121). -/
def State.Ep0StateReached (s : State) : Prop :=
  s.dev.ep0state = .idle ∨ s.dev.ep0state = .inData ∨ s.dev.ep0state = .outData

/-- The endpoints a pending frame names are not EP0: `disable` never runs on EP0 (42_endpoint_ops.md R128). -/
def Frame.dataOnly : Frame → Prop
  | .disableTail e => e ≠ 0
  | .unregMain es => ∀ e ∈ es, e ≠ 0
  | .flushRest es => ∀ e ∈ es, e ≠ 0
  | .callback _ | .op _ | .setup _ | .nukeRest .. | .ret _ | .dispatchExit _ | .notifyResume | .notifySuspend
  | .ep0AfterStall _ | .ep0Idle | .ep0ReadSetup | .afterConfig | .afterForward | .afterBind | .unregUnbind
  | .unregEnd => True

/-- Pending work names data endpoints where it must. -/
def State.FramesSound (s : State) : Prop := ∀ f ∈ s.stack, f.dataOnly

/-- The invariants together. -/
structure State.Inv (s : State) : Prop where
  shaped : s.Shaped
  reserved : s.ReservedZero
  memory : s.mem.wf = true
  ep0 : s.Ep0Fixed
  maxp : s.MaxpBounded
  queues : s.QueuesSound
  progress : s.ProgressBounded
  fifos : s.FifoBounded
  ep0state : s.Ep0StateReached
  frames : s.FramesSound

/-! ## Effects with nothing interleaved

What the engine's register writes leave, written out field by field: the statements about results are in these terms. -/

/-- The hardware of an endpoint after a written `OPR` 0: an `OPR` that is 1 is cleared, the FIFO emptied and CNT zeroed; an
`OPR` that is 0 stays, with no effect (10_state.md R31, R33; 41_ep0_control.md R122; log 18). -/
def Hw.released (w : Hw) : Hw :=
  if w.csr.opr then { w with csr := { w.csr with opr := false }, fifo := [], cnt := 0 } else w

/-- EP0 stalled (41_ep0_control.md R122). -/
def State.afterEp0Stall (s : State) : State :=
  { s with
    index := 0
    dev := { s.dev with ep0state := .idle }
    hw := s.hw.modify 0 fun w => { w.released with csr := { w.released.csr with sendStall := true } } }

/-- The status phase begun with no data phase (41_ep0_control.md R117). -/
def State.afterEp0Ack (s : State) : State :=
  { s with
    index := 0
    hw := s.hw.modify 0 fun w => { w.released with csr := { w.released.csr with dataEnd := true } } }

/-- A one-packet answer on EP0 (41_ep0_control.md R116): the bytes, then IPR and DATA_END, the latter not under a pending bus
reset (40_fifo_engine.md R90). -/
def State.afterEp0Reply (bytes : List Byte) (s : State) : State :=
  { s with
    index := 0
    hw := s.hw.modify 0 fun w =>
      { w.released with
        csr := { w.released.csr with ipr := true, dataEnd := w.csr.dataEnd || !s.busEvt.getLsbD 2 }
        fifo := w.released.fifo ++ bytes } }

/-- A request completed (40_fifo_engine.md R94): out of its queue, its status set if it was in progress, traced, and its
callback, if it has one, called with the client to move next. -/
def State.afterDone (e : EpNum) (h : Handle) (k : Kind) (s : State) : State :=
  let st := if (s.reqAt h).status = .inProgress then .finished k else (s.reqAt h).status
  let t : State :=
    { s with
      eps := s.eps.modify e.toNat fun p => { p with queue := p.queue.erase h }
      reqs := s.reqs.modify h.toNat fun r => { r with status := st, ep := none }
      doneLog := s.doneLog ++ [(h, st, (s.reqAt h).transferred)] }
  if (s.reqAt h).complete then
    { t with cbLog := s.cbLog ++ [.callback (.complete e h)], stack := .callback (.complete e h) :: s.stack }
  else t

/-- Every request of a queue failed, none with a callback (40_fifo_engine.md R95). -/
def State.afterNuke (e : EpNum) (k : Kind) (s : State) : State :=
  { s with
    eps := s.eps.modify e.toNat fun p => { p with queue := [] }
    reqs := (s.epAt e).queue.foldl
      (fun l h => l.modify h.toNat fun r => { r with status := .finished k, ep := none }) s.reqs
    doneLog := s.doneLog ++ (s.epAt e).queue.map fun h => (h, .finished k, (s.reqAt h).transferred) }

/-- An enabled endpoint disabled: its queue failed with `Shutdown`, none of it with a callback, the descriptor cleared, MAXP 0,
the FIFO flushed, SEND_STALL cleared, the event source masked (42_endpoint_ops.md R128). -/
def State.afterDisable (e : EpNum) (s : State) : State :=
  let t := s.afterNuke e .shutdown
  { t with
    eps := t.eps.modify e.toNat fun p =>
      { p with enabled := false, maxp := 0, dir := .out, type := .bulk, halted := false }
    hw := s.hw.modify e.toNat fun w =>
      { w with maxp := 0, csr := { w.csr with opr := false, ipr := false, sendStall := false }, cnt := 0, fifo := [] }
    epEvtEn := (s.epEvtEn &&& ~~~(1#8 <<< e.toNat)) &&& s.params.epMask
    index := e }

/-- No request of endpoint e's queue has a completion callback. -/
def State.NoCallbacks (s : State) (e : EpNum) : Prop := ∀ h ∈ (s.epAt e).queue, (s.reqAt h).complete = false

/-- The bytes of the next IN packet: at most one max-size packet of what request h has left (40_fifo_engine.md R87). -/
def State.nextPacket (e : EpNum) (h : Handle) (s : State) : List Byte :=
  (List.range (min ((s.reqAt h).length.toNat - (s.reqAt h).transferred.toNat) (s.epAt e).maxp.toNat)).map fun i =>
    s.mem.read (bufAddr h ((s.reqAt h).transferred.toNat + i))

/-- The next IN packet is the last: it is short, or it reaches the length and no zero-length packet is asked for
(40_fifo_engine.md R88). -/
def State.lastPacket (e : EpNum) (h : Handle) (s : State) : Bool :=
  decide ((s.nextPacket e h).length < (s.epAt e).maxp.toNat) ||
    ((s.reqAt h).transferred.toNat + (s.nextPacket e h).length == (s.reqAt h).length.toNat && !(s.reqAt h).zlp)

/-- One IN packet of request h moved and marked ready, and the request completed with it if it is the last
(40_fifo_engine.md R87, R89, R90, R96, R99). -/
def State.afterWrite (e : EpNum) (h : Handle) (s : State) : State :=
  let bytes := s.nextPacket e h
  let last := s.lastPacket e h
  let t : State :=
    { s with
      index := e
      reqs := s.reqs.modify h.toNat fun r =>
        { r with transferred := BitVec.ofNat 32 ((s.reqAt h).transferred.toNat + bytes.length) }
      hw := s.hw.modify e.toNat fun w =>
        { w with
          csr := { w.csr with
                   ipr := true, dataEnd := w.csr.dataEnd || (e == 0 && last && !s.busEvt.getLsbD 2) }
          fifo := w.fifo ++ bytes }
      dev := if e == 0 && last then { s.dev with ep0state := .idle } else s.dev }
  if last then t.afterDone e h .ok else t

/-- One OUT packet of request h drained and released, and the request completed with it if it ends the transfer
(40_fifo_engine.md R91 to R93, R96, R99). The bytes past the room are dropped. -/
def State.afterRead (e : EpNum) (h : Handle) (s : State) : State :=
  let cnt := (s.hwAt e).cnt
  let start := (s.reqAt h).transferred.toNat
  let room := (s.reqAt h).length.toNat - start
  let n := min cnt room
  let finished := decide (room < cnt) || start + n == (s.reqAt h).length.toNat ||
    (e != 0 && decide (cnt < (s.epAt e).maxp.toNat))
  let t : State :=
    { s with
      index := e
      mem := (((s.hwAt e).fifo.take n).zipIdx).foldl (fun m c => m.write (bufAddr h (start + c.2)) c.1) s.mem
      reqs := s.reqs.modify h.toNat fun r => { r with transferred := BitVec.ofNat 32 (start + n) }
      hw := s.hw.modify e.toNat fun w =>
        { w with
          csr := { w.csr with opr := false, dataEnd := w.csr.dataEnd || (e == 0 && finished) }
          fifo := []
          cnt := 0 }
      dev := if e == 0 && finished then { s.dev with ep0state := .idle } else s.dev }
  if finished then t.afterDone e h (if room < cnt then .overflow else .ok) else t

/-- A request appended to a queue and in progress (42_endpoint_ops.md R131). -/
def State.afterEnqueue (e : EpNum) (h : Handle) (s : State) : State :=
  { s with
    reqs := s.reqs.modify h.toNat fun r => { r with transferred := 0, status := .inProgress, ep := some e }
    eps := s.eps.modify e.toNat fun p => { p with queue := p.queue ++ [h] } }

end Sys2Proof.Machine
end

