-- ==== Sys2Proof/Certificates/Slice0/Obligations.lean ====
section
/-! DEFINITION. The statements for the provers. Results are written out field by field, or in the terms of Safety.lean; each
names every part of State it changes, the record update saying that nothing else is. -/

open Sys2Proof Sys2Proof.Machine

/-! ## Encoding -/

/-- Words written out from the tables of 30_encoding.md and 95_test_vectors.md decode to the operations they stand for.
The model's own in it: log 2. -/
def Obligations.DecodeOfWrittenWords : Prop :=
  decode .setup [0x80, 0x00, 0x00, 0x00, 0x00, 0x00, 0x02, 0x00] = .ok (.getStatusDev true 0 0 2, []) ∧
  decode .setup [0x02, 0x01, 0x00, 0x00, 0x81, 0x00, 0x00, 0x00] = .ok (.clearFeatureHalt false 0x81 0, []) ∧
  decode .setup [0xC0, 0x01, 0x00, 0x00, 0x00, 0x00, 0x0A, 0x00] = .ok (.forward ⟨0xC0, 0x01, 0, 0, 10⟩, []) ∧
  decode .client [0x10, 0x52, 0x00, 0x00, 0x40, 0x00, 0x00, 0x00] = .ok (.epen 2 true 2 64, []) ∧
  decode .client [0x16, 0x10, 0x03, 0x00, 0x82, 0x00, 0x00, 0x00] = .ok (.rqset 3 true 130, []) ∧
  decode .bus [0x24, 0x01, 0x00, 0x00, 0x02, 0x00, 0x00, 0x00, 0xAA, 0xBB, 0x25] =
    .ok (.bout 1 [0xAA, 0xBB], [0x25]) ∧
  decode .engine [0x43, 0x41, 0x00, 0x00, 0x00, 0x00, 0x00, 0x00] = .ok (.nuke 1 .stalled, [])

/-- Decoding the encoding of a well-formed operation gives it back, with what follows it (30_encoding.md R63 to R76).
Rests on the spec's own decisions D7, D19, D20, D21 (log 25); the model's own in it: log 2. -/
def Obligations.DecodeOfEncode : Prop :=
  ∀ (i : Instr) (rest : List Byte), i.wf = true → decode i.port (encode i ++ rest) = .ok (i, rest)

/-- A client or bus word that decodes is the encoding of what it decodes to: no bit of a legal word is ignored
(30_encoding.md R70, R80 b, R81). Rests on the spec's own decisions D7 (log 25). -/
def Obligations.EncodeOfDecode : Prop :=
  ∀ (p : Port) (bytes rest : List Byte) (i : Instr), p = .client ∨ p = .bus → decode p bytes = .ok (i, rest) →
    i.wf = true ∧ i.port = p ∧ encode i ++ rest = bytes

/-- The first row of 30_encoding.md R68 whose masked bits match selects the request, every setup word is a legal one,
and no bit of it is lost (R80 a). Rests on the spec's own decisions D7, D19 (log 25). -/
def Obligations.SetupDecodeIsFirstRow : Prop :=
  ∀ w : Word,
    (∃ r, setupRows[setupRowIndex w]? = some r ∧ w &&& r.mask = r.pattern ∧ (decodeSetup w).mnemonic = r.mnemonic) ∧
    (∀ j r, j < setupRowIndex w → setupRows[j]? = some r → w &&& r.mask ≠ r.pattern) ∧
    (decodeSetup w).wf = true ∧ setupWord (decodeSetup w).setupPkt = w

/-- A step runs the operation that what is next decodes to: on the client port, on the bus port, an internal operation
that is due, a setup packet that is due. The model's own in it: log 7, log 14. -/
def Obligations.StepRunsTheDecoded : Prop :=
  (∀ (s : State) (bytes rest : List Byte) (more : List Input) (i : Instr), s.settled = true →
    s.input = .client bytes :: more → decode .client bytes = .ok (i, rest) →
    step s = exec i { s with input := if rest.isEmpty then more else .client rest :: more }) ∧
  (∀ (s : State) (bytes rest : List Byte) (more : List Input) (i : Instr), s.settled = true →
    s.input = .bus bytes :: more → decode .bus bytes = .ok (i, rest) →
    step s = exec i { s with input := if rest.isEmpty then more else .bus rest :: more }) ∧
  (∀ (s : State) (o : IntOp) (fs : List Frame), s.stack = .op o :: fs → step s = exec o.instr { s with stack := fs }) ∧
  (∀ (s : State) (bytes : List Byte) (fs : List Frame) (i : Instr), s.stack = .setup bytes :: fs →
    decode .setup bytes = .ok (i, bytes.drop 8) → step s = exec i { s with stack := fs })

/-- An illegal client word is refused with `InvalidArgument` and an illegal bus word is refused; nothing else changes
but that the refused word is used up (30_encoding.md R80 b, R81). The model's choices: what is left of the input, the
payload that a refused bus word announces used up with it and the bytes of an incomplete word dropped (log 13), and the
field that keeps a bus step's result (log 9). Rests on the spec's own decisions D7 (log 25). -/
def Obligations.IllegalWordsRefused : Prop :=
  (∀ (s : State) (bytes : List Byte) (more : List Input) (q : Reject), s.settled = true →
    s.input = .client bytes :: more → decode .client bytes = .error q →
    step s = .next { s with cmdResult := -1, input := restOf .client (afterRefused false bytes q) more }) ∧
  (∀ (s : State) (bytes : List Byte) (more : List Input) (q : Reject), s.settled = true →
    s.input = .bus bytes :: more → decode .bus bytes = .error q →
    step s = .next { s with busResult := .invalid, input := restOf .bus (afterRefused true bytes q) more })

/-- The client's own accesses (10_state.md R18, R19): a byte written to a request's buffer reads back and no other byte
changes; a callback is set or removed of a request that is not queued (93_implementation_defined.md U6); a record that
does not exist is a fault. A return with no callback running is refused (log 7). Rests on the spec's own decisions D44
(log 25); the model's own in it: log 6, log 12. -/
def Obligations.ClientAccesses : Prop :=
  ∀ (s : State) (h : Handle) (offset : BitVec 32) (b : Byte) (present : Bool) (r : Int) (more : List Input),
    s.settled = true →
    (s.input = .writeBuf h offset b :: more →
      (h.toNat < s.params.numReq → s.mem.wf = true →
        ∃ m : Memory, step s = .next { s with mem := m, input := more } ∧ m.wf = true ∧
          m.read (bufAddr h offset.toNat) = b ∧ ∀ a, a ≠ bufAddr h offset.toNat → m.read a = s.mem.read a) ∧
      (s.params.numReq ≤ h.toNat → step s = .fault .noSuchRequest)) ∧
    (s.input = .setComplete h present :: more →
      (h.toNat < s.params.numReq → (s.reqAt h).status ≠ .inProgress →
        step s = .next { s with input := more, reqs := s.reqs.modify h.toNat fun q => { q with complete := present } }) ∧
      (h.toNat < s.params.numReq → (s.reqAt h).status = .inProgress → step s = .refused .clientWritesQueuedRequest) ∧
      (s.params.numReq ≤ h.toNat → step s = .fault .noSuchRequest)) ∧
    (s.input = .callbackReturn r :: more → s.stack = [] → step s = .refused .returnWithoutCallback)

/-! ## Setup requests (41_ep0_control.md) -/

/-- The requests answered in place with one packet. GET_STATUS of the device: self-powered in bit 0, remote wake-up in
bit 1, then 0 (R106). GET_CONFIGURATION: the configuration value (R109). GET_STATUS of an endpoint: it stalls for one
that is out of range or not enabled, and else answers the halt bit, then 0 (R107, R116, R69). Rests on the spec's own
decisions D21, D22 (log 25); the model's own in it: log 18, log 29. -/
def Obligations.GetRequestsAnswer : Prop :=
  ∀ (d : Bool) (v x l : BitVec 16) (s : State), s.Quiet → s.Shaped →
    let n : EpNum := x.extractLsb' 0 4
    let used := (s.hwAt 0).released.fifo.length
    (used + 2 ≤ s.params.fifoSize 0 →
      exec (.getStatusDev d v x l) s =
        .next (s.afterEp0Reply [BitVec.ofNat 8 (s.dev.selfPowered.toNat + 2 * s.dev.remoteWakeup.toNat), 0])) ∧
    (used + 1 ≤ s.params.fifoSize 0 → exec (.getConfiguration d v x l) s = .next (s.afterEp0Reply [s.dev.config])) ∧
    ((s.params.numEp ≤ n.toNat ∨ n ≠ 0 ∧ (s.epAt n).enabled = false) →
      exec (.getStatusEp d v x l) s = .next s.afterEp0Stall) ∧
    (n.toNat < s.params.numEp → n = 0 ∨ (s.epAt n).enabled = true → used + 2 ≤ s.params.fifoSize 0 →
      exec (.getStatusEp d v x l) s = .next (s.afterEp0Reply [BitVec.ofNat 8 (s.epAt n).halted.toNat, 0]))

/-- SET_ADDRESS writes wValue[6:0] to the record and to FUNC_ADDR, and begins the status phase (R108). Rests on the
spec's own decisions D23 (log 25); the model's own in it: log 18. -/
def Obligations.SetAddressEffect : Prop :=
  ∀ (d : Bool) (v x l : BitVec 16) (s : State), s.Quiet →
    exec (.setAddress d v x l) s =
      .next ({ s with dev := { s.dev with address := v.extractLsb' 0 7 }, funcAddr := v.extractLsb' 0 7 } :
        State).afterEp0Ack

/-- CLEAR_FEATURE(ENDPOINT_HALT): a bad endpoint stalls; EP0 has nothing to clear; an enabled data endpoint loses its
halt and SEND_STALL and its toggle becomes DATA0 (R110, 42_endpoint_ops.md R129). Rests on the spec's own decisions
D24, D36 (log 25); the model's own in it: log 18. -/
def Obligations.ClearFeatureHaltEffect : Prop :=
  ∀ (d : Bool) (x l : BitVec 16) (s : State), s.Quiet →
    let n : EpNum := x.extractLsb' 0 4
    ((s.params.numEp ≤ n.toNat ∨ n ≠ 0 ∧ (s.epAt n).enabled = false) →
      exec (.clearFeatureHalt d x l) s = .next s.afterEp0Stall) ∧
    (n.toNat < s.params.numEp → n = 0 → exec (.clearFeatureHalt d x l) s = .next s.afterEp0Ack) ∧
    (n.toNat < s.params.numEp → n ≠ 0 → (s.epAt n).enabled = true →
      exec (.clearFeatureHalt d x l) s =
        .next ({ s with
          eps := s.eps.modify n.toNat fun p => { p with halted := false }
          hw := s.hw.modify n.toNat fun w => { w with csr := { w.csr with sendStall := false }, toggle := .data0 } } :
          State).afterEp0Ack)

/-- SET_FEATURE(ENDPOINT_HALT): a bad endpoint and EP0 stall; an enabled data endpoint is halted with SEND_STALL set
and its toggle untouched (R111, 42_endpoint_ops.md R129). Rests on the spec's own decisions D24, D36 (log 25); the
model's own in it: log 18. -/
def Obligations.SetFeatureHaltEffect : Prop :=
  ∀ (d : Bool) (x l : BitVec 16) (s : State), s.Quiet →
    let n : EpNum := x.extractLsb' 0 4
    ((s.params.numEp ≤ n.toNat ∨ n = 0 ∨ (s.epAt n).enabled = false) →
      exec (.setFeatureHalt d x l) s = .next s.afterEp0Stall) ∧
    (n.toNat < s.params.numEp → n ≠ 0 → (s.epAt n).enabled = true →
      exec (.setFeatureHalt d x l) s =
        .next ({ s with
          eps := s.eps.modify n.toNat fun p => { p with halted := true }
          hw := s.hw.modify n.toNat fun w => { w with csr := { w.csr with sendStall := true } } } : State).afterEp0Ack)

/-- The device remote-wakeup feature is cleared or set and acknowledged; every other feature request stalls (R112).
Rests on the spec's own decisions D24 (log 25); the model's own in it: log 18. -/
def Obligations.FeatureRequestsEffect : Prop :=
  ∀ (d : Bool) (r : BitVec 5) (v x l : BitVec 16) (s : State), s.Quiet →
    exec (.clearFeatureRwk d x l) s =
      .next ({ s with dev := { s.dev with remoteWakeup := false } } : State).afterEp0Ack ∧
    exec (.setFeatureRwk d x l) s =
      .next ({ s with dev := { s.dev with remoteWakeup := true } } : State).afterEp0Ack ∧
    exec (.clearFeatureOther d r v x l) s = .next s.afterEp0Stall ∧
    exec (.setFeatureOther d r v x l) s = .next s.afterEp0Stall

/-- SET_CONFIGURATION records wValue[7:0] and calls the driver's `setup`; with no driver it stalls (R113).
SET_INTERFACE does the same without the record write (R114). With FORWARD_CONFIG false each is acknowledged at once
(93_implementation_defined.md U9). Rests on the spec's own decisions D25 (log 25); the model's own in it: log 7, log
18. -/
def Obligations.SetConfigurationSetInterfaceEffect : Prop :=
  ∀ (d : Bool) (v x l : BitVec 16) (s : State), s.Quiet →
    let call (pkt : SetupPkt) (t : State) : State :=
      if s.params.forwardConfig then
        if s.dev.driver = none then t.afterEp0Stall
        else { t with cbLog := s.cbLog ++ [.callback (.setup pkt)], stack := [.callback (.setup pkt), .afterConfig] ++ s.stack }
      else t.afterEp0Ack
    exec (.setConfiguration d v x l) s =
      .next (call ⟨if d then 0x80 else 0x00, 0x09, v, x, l⟩ { s with dev := { s.dev with config := v.extractLsb' 0 8 } }) ∧
    exec (.setInterface d v x l) s = .next (call ⟨if d then 0x81 else 0x01, 0x0B, v, x, l⟩ s)

/-- A forwarded request frees FIFO[0]; with no driver it stalls; else the data phase of its direction bit begins and
`setup` is called with it (R115). Rests on the spec's own decisions D19 (log 25); the model's own in it: log 7, log 18.
-/
def Obligations.ForwardEffect : Prop :=
  ∀ (pkt : SetupPkt) (s : State), s.Quiet →
    exec (.forward pkt) s =
      .next (if s.dev.driver = none then s.afterEp0Stall
        else
          { s with
            index := 0
            hw := s.hw.modify 0 Hw.released
            dev := { s.dev with ep0state := if pkt.bmRequestType.getLsbD 7 then .inData else .outData }
            cbLog := s.cbLog ++ [.callback (.setup pkt)]
            stack := [.callback (.setup pkt), .afterForward] ++ s.stack })

/-- When the client returns r from a callback, the work that called it goes on with r; with nothing pending behind the
callback only r is kept (42_endpoint_ops.md R140). When `setup` returns r: of SET_CONFIGURATION and SET_INTERFACE, r <
0 stalls and r ≥ 0 acknowledges (R113, R114); of a forwarded request, r < 0 stalls and r ≥ 0 leaves the data phase to
the driver (R115); what else is pending then goes on. Rests on the spec's own decisions D19, D25, D39 (log 25); the
model's own in it: log 7, log 18. -/
def Obligations.CallbackReturns : Prop :=
  ∀ (s : State) (c : Callback) (fs : List Frame) (r : Int) (more : List Input),
    s.stack = .callback c :: fs → s.input = .callbackReturn r :: more →
    (fs = [] → step s = .next { s with stack := [], input := more, cbResult := r }) ∧
    ∀ (f : Frame) (gs : List Frame), fs = f :: gs →
      let t : State := { s with stack := gs, input := more, cbResult := r }
      (f.isCallback = false → step s = thenDo (runFrame f t) settle) ∧
      (f.isCallback = true → step s = .next { t with stack := f :: gs }) ∧
      (s.race = [] → f = .afterConfig → step s = settle (if r < 0 then t.afterEp0Stall else t.afterEp0Ack)) ∧
      (s.race = [] → f = .afterForward → step s = settle (if r < 0 then t.afterEp0Stall else t))

/-! ## Client operations -/

/-- An endpoint number ≥ NUM_EP, or a handle that is out of range or not allocated, is `InvalidArgument` before every
other check, whatever else holds: nothing but the result is written (42_endpoint_ops.md R138). Rests on the spec's own
decisions D12 (log 25). -/
def Obligations.BadOperandsRefused : Prop :=
  ∀ (s : State) (e : EpNum) (h : Handle) (dir v zlp : Bool) (type : BitVec 2) (maxp : BitVec 11) (len : BitVec 32),
    s.settled = true →
    (s.params.numEp ≤ e.toNat → ∀ i ∈ [Instr.epen e dir type maxp, .epdis e, .ephalt e v, .epfstat e, .rqalloc e,
      .rqfree e h, .epqueue e h, .epdeq e h], exec i s = .next { s with cmdResult := -1 }) ∧
    (s.params.numReq ≤ h.toNat ∨ (s.reqAt h).allocated = false → ∀ i ∈ [Instr.rqfree e h, .rqset h zlp len, .epqueue e h,
      .epdeq e h], exec i s = .next { s with cmdResult := -1 })

/-- EPEN: the checks in the order of the rule, then the descriptor recorded, MAXP written, FIFO and toggle reset, the
event source enabled, INDEX = e and result 0 (42_endpoint_ops.md R126, R127). Rests on the spec's own decisions D12
(log 25). -/
def Obligations.EpenEffect : Prop :=
  ∀ (e : EpNum) (dir : Bool) (type : BitVec 2) (maxp : BitVec 11) (s : State), s.Quiet → e.toNat < s.params.numEp →
    exec (.epen e dir type maxp) s =
      .next (if e = 0 then { s with cmdResult := -1 }
        else if (s.epAt e).enabled then { s with cmdResult := -3 }
        else if ¬(type = 2 ∨ type = 3) ∨ maxp = 0 ∨ s.params.fifoSize e < maxp.toNat then { s with cmdResult := -1 }
        else if s.dev.driver = none then { s with cmdResult := -2 }
        else
          { s with
            eps := s.eps.modify e.toNat fun p =>
              { p with
                dir := if dir then .inward else .out, type := if type = 2 then .bulk else .interrupt
                maxp := maxp, halted := false, enabled := true }
            hw := s.hw.modify e.toNat fun w =>
              { w with
                maxp := maxp, csr := { w.csr with opr := false, ipr := false }, cnt := 0, fifo := [], toggle := .data0 }
            epEvtEn := (s.epEvtEn ||| 1#8 <<< e.toNat) &&& s.params.epMask
            index := e
            cmdResult := 0 })

/-- EPDIS: the checks; then, where no queued request has a callback, every queued request is failed with `Shutdown`,
the descriptor cleared, the FIFO flushed, SEND_STALL cleared and the event source disabled (42_endpoint_ops.md R128).
Rests on the spec's own decisions D45 (log 25). -/
def Obligations.EpdisEffect : Prop :=
  ∀ (e : EpNum) (s : State), s.Quiet → s.Shaped → s.QueuesSound → e.toNat < s.params.numEp → s.NoCallbacks e →
    exec (.epdis e) s =
      .next (if e = 0 then { s with cmdResult := -1 }
        else if (s.epAt e).enabled = false then { s with cmdResult := -2 }
        else { s.afterDisable e with cmdResult := 0 })

/-- EPHALT: on EP0 setting is the stall sequence and clearing is nothing; a disabled endpoint is `NotReady`; else
SEND_STALL and the record follow v, and clearing resets the toggle (42_endpoint_ops.md R129). Rests on the spec's own
decisions D36 (log 25); the model's own in it: log 18. -/
def Obligations.EphaltEffect : Prop :=
  ∀ (e : EpNum) (v : Bool) (s : State), s.Quiet → e.toNat < s.params.numEp →
    exec (.ephalt e v) s =
      .next (if e = 0 then { (if v then s.afterEp0Stall else s) with cmdResult := 0 }
        else if (s.epAt e).enabled = false then { s with cmdResult := -2 }
        else
          { s with
            eps := s.eps.modify e.toNat fun p => { p with halted := v }
            hw := s.hw.modify e.toNat fun w =>
              { w with csr := { w.csr with sendStall := v }, toggle := if v then w.toggle else .data0 }
            index := e
            cmdResult := 0 })

/-- Halting twice is halting once, and the toggle is reset by clearing alone (42_endpoint_ops.md R130): after set, set
and clear of an enabled endpoint, the toggle is as it was after both sets and DATA0 after the clear; a clear of one
that is not halted resets it too. -/
def Obligations.HaltIsIdempotent : Prop :=
  ∀ (e : EpNum) (s : State), s.Quiet → s.Shaped → e.toNat < s.params.numEp → e ≠ 0 → (s.epAt e).enabled = true →
    (∃ t u, exec (.ephalt e true) s = .next t ∧ exec (.ephalt e true) t = .next t ∧ exec (.ephalt e false) t = .next u ∧
      (t.epAt e).halted = true ∧ (t.csrAt e).sendStall = true ∧ (t.hwAt e).toggle = (s.hwAt e).toggle ∧
      (u.epAt e).halted = false ∧ (u.csrAt e).sendStall = false ∧ (u.hwAt e).toggle = .data0) ∧
    ∃ v, exec (.ephalt e false) s = .next v ∧ (v.epAt e).halted = false ∧ (v.hwAt e).toggle = .data0

/-- EPFSTAT: `NotReady` on a disabled endpoint; else CNT where OPR is 1 and 0 where it is not; only INDEX and the
result are written (42_endpoint_ops.md R137). Rests on the spec's own decisions D16 (log 25). -/
def Obligations.EpfstatEffect : Prop :=
  ∀ (e : EpNum) (s : State), s.Quiet → e.toNat < s.params.numEp →
    exec (.epfstat e) s =
      .next (if e ≠ 0 ∧ (s.epAt e).enabled = false then { s with cmdResult := -2 }
        else { s with index := e, cmdResult := if (s.csrAt e).opr then (s.hwAt e).cnt else 0 })

/-- RQALLOC answers the lowest handle that is free, its record fresh; with none free it is `Busy` (42_endpoint_ops.md
R135). Rests on the spec's own decisions D15 (log 25). -/
def Obligations.RqallocEffect : Prop :=
  ∀ (e : EpNum) (h : Handle) (s : State), s.Quiet → s.Shaped → e.toNat < s.params.numEp →
    (∀ h' : Handle, h'.toNat < h.toNat → (s.reqAt h').allocated = true) →
    (h.toNat < s.params.numReq → (s.reqAt h).allocated = false →
      exec (.rqalloc e) s =
        .next { s with
          reqs := s.reqs.modify h.toNat fun _ =>
            { allocated := true, length := 0, transferred := 0, status := .idle, zlp := false, complete := false, ep := none }
          cmdResult := h.toNat }) ∧
    (s.params.numReq ≤ h.toNat → exec (.rqalloc e) s = .next { s with cmdResult := -3 })

/-- RQFREE and RQSET of an allocated request: `InvalidArgument` while it is in progress; else the record is given back,
or its length and zlp are written (42_endpoint_ops.md R136, R139). Rests on the spec's own decisions D15 (log 25). -/
def Obligations.RqfreeRqsetEffect : Prop :=
  ∀ (e : EpNum) (h : Handle) (zlp : Bool) (len : BitVec 32) (s : State), s.Quiet → e.toNat < s.params.numEp →
    h.toNat < s.params.numReq → (s.reqAt h).allocated = true →
    exec (.rqfree e h) s =
      .next (if (s.reqAt h).status = .inProgress then { s with cmdResult := -1 }
        else { s with reqs := s.reqs.modify h.toNat fun r => { r with allocated := false }, cmdResult := 0 }) ∧
    exec (.rqset h zlp len) s =
      .next (if (s.reqAt h).status = .inProgress then { s with cmdResult := -1 }
        else { s with reqs := s.reqs.modify h.toNat fun r => { r with length := len, zlp := zlp }, cmdResult := 0 })

/-- EPQUEUE: the checks in the order of the rule; behind a head the request is appended and nothing is started
(42_endpoint_ops.md R131, R132). Rests on the spec's own decisions D13 (log 25). -/
def Obligations.EpqueueEffect : Prop :=
  ∀ (e : EpNum) (h : Handle) (s : State), s.Quiet → e.toNat < s.params.numEp → h.toNat < s.params.numReq →
    (s.reqAt h).allocated = true →
    ((s.reqAt h).status = .inProgress → exec (.epqueue e h) s = .next { s with cmdResult := -1 }) ∧
    ((s.reqAt h).status ≠ .inProgress → s.dev.driver = none → exec (.epqueue e h) s = .next { s with cmdResult := -2 }) ∧
    ((s.reqAt h).status ≠ .inProgress → e ≠ 0 → (s.epAt e).enabled = false →
      exec (.epqueue e h) s = .next { s with cmdResult := -2 }) ∧
    ((s.reqAt h).status ≠ .inProgress → s.dev.driver ≠ none → e = 0 ∨ (s.epAt e).enabled = true → (s.epAt e).queue ≠ [] →
      exec (.epqueue e h) s = .next { s.afterEnqueue e h with cmdResult := 0 })

/-- EPQUEUE of a request that becomes the head of a data endpoint serves it at once: an IN packet is moved and marked
ready if IPR is 0, an OUT packet that waits is drained, and else only INDEX is written; an IN packet with bytes already
in the FIFO is refused (40_fifo_engine.md R86; 93_implementation_defined.md U4); the result 0 is given when a callback
that ran inside has returned (42_endpoint_ops.md R131, R132; 40_fifo_engine.md R98). Rests on the spec's own decisions
D13 (log 25); the model's own in it: log 7, log 11, log 20. -/
def Obligations.EpqueueServesTheHead : Prop :=
  ∀ (e : EpNum) (h : Handle) (s : State), s.Quiet → s.Shaped → e.toNat < s.params.numEp → h.toNat < s.params.numReq →
    (s.reqAt h).allocated = true → (s.reqAt h).status ≠ .inProgress → s.dev.driver ≠ none → e ≠ 0 →
    (s.epAt e).enabled = true → (s.epAt e).queue = [] → 1 ≤ (s.epAt e).maxp.toNat →
    let t : State := { s.afterEnqueue e h with stack := .ret 0 :: s.stack }
    ((s.epAt e).dir = .inward → (s.csrAt e).ipr = false → (s.hwAt e).fifo = [] →
      (t.nextPacket e h).length ≤ s.params.fifoSize e → exec (.epqueue e h) s = settle (t.afterWrite e h)) ∧
    ((s.epAt e).dir = .inward → (s.csrAt e).ipr = false → (s.hwAt e).fifo ≠ [] →
      exec (.epqueue e h) s = .refused .fifoPrecondition) ∧
    ((s.epAt e).dir = .out → (s.csrAt e).opr = true → (s.hwAt e).cnt = (s.hwAt e).fifo.length →
      exec (.epqueue e h) s = settle (t.afterRead e h)) ∧
    (((s.epAt e).dir = .inward ∧ (s.csrAt e).ipr = true ∨ (s.epAt e).dir = .out ∧ (s.csrAt e).opr = false) →
      exec (.epqueue e h) s = .next { s.afterEnqueue e h with index := e, cmdResult := 0 })

/-- EPQUEUE of a request that becomes the head of EP0 (42_endpoint_ops.md R133; 41_ep0_control.md R123, R124): in the
IN phase its first packet is moved if IPR is 0, and refused if FIFO[0] holds bytes, a setup packet that arrived
meanwhile (40_fifo_engine.md R86; 93_implementation_defined.md U4); in the OUT phase a zero-length one ends the
transfer and a waiting packet is drained; outside a data phase a zero-length one completes with no hardware action and
a longer one waits. Rests on the spec's own decisions D29 (log 25); the model's own in it: log 7, log 11, log 20. -/
def Obligations.EpqueueKicksEp0 : Prop :=
  ∀ (h : Handle) (s : State), s.Quiet → s.Shaped → h.toNat < s.params.numReq → (s.reqAt h).allocated = true →
    (s.reqAt h).status ≠ .inProgress → s.dev.driver ≠ none → (s.epAt 0).queue = [] → 1 ≤ (s.epAt 0).maxp.toNat →
    let t : State := { s.afterEnqueue 0 h with stack := .ret 0 :: s.stack }
    let idle : State := { t with dev := { s.dev with ep0state := .idle } }
    (s.dev.ep0state = .inData → (s.csrAt 0).ipr = false → (s.hwAt 0).fifo = [] →
      (t.nextPacket 0 h).length ≤ s.params.fifoSize 0 → exec (.epqueue 0 h) s = settle (t.afterWrite 0 h)) ∧
    (s.dev.ep0state = .inData → (s.csrAt 0).ipr = false → (s.hwAt 0).fifo ≠ [] →
      exec (.epqueue 0 h) s = .refused .fifoPrecondition) ∧
    (s.dev.ep0state = .inData → (s.csrAt 0).ipr = true →
      exec (.epqueue 0 h) s = .next { s.afterEnqueue 0 h with index := 0, cmdResult := 0 }) ∧
    (s.dev.ep0state = .outData → (s.reqAt h).length = 0 →
      exec (.epqueue 0 h) s = settle (({ idle with
        index := 0, hw := s.hw.modify 0 fun w => { w with csr := { w.csr with dataEnd := true } } } :
        State).afterDone 0 h .ok)) ∧
    (s.dev.ep0state = .outData → (s.reqAt h).length ≠ 0 → (s.csrAt 0).opr = true →
      (s.hwAt 0).cnt = (s.hwAt 0).fifo.length → exec (.epqueue 0 h) s = settle (t.afterRead 0 h)) ∧
    (s.dev.ep0state = .outData → (s.reqAt h).length ≠ 0 → (s.csrAt 0).opr = false →
      exec (.epqueue 0 h) s = .next { s.afterEnqueue 0 h with index := 0, cmdResult := 0 }) ∧
    (s.dev.ep0state ≠ .inData → s.dev.ep0state ≠ .outData → (s.reqAt h).length = 0 →
      exec (.epqueue 0 h) s = settle (t.afterDone 0 h .ok)) ∧
    (s.dev.ep0state ≠ .inData → s.dev.ep0state ≠ .outData → (s.reqAt h).length ≠ 0 →
      exec (.epqueue 0 h) s = .next { s.afterEnqueue 0 h with cmdResult := 0 })

/-- EPDEQ of a request that is not in the queue is `InvalidArgument`; of one that is, it completes it with `Aborted`
and no other effect, and the result is 0 when its callback, if any, has returned (42_endpoint_ops.md R134). Rests on
the spec's own decisions D14 (log 25); the model's own in it: log 7, log 20. -/
def Obligations.EpdeqEffect : Prop :=
  ∀ (e : EpNum) (h : Handle) (s : State), s.Quiet → s.Shaped → e.toNat < s.params.numEp → h.toNat < s.params.numReq →
    (s.reqAt h).allocated = true →
    (h ∉ (s.epAt e).queue → exec (.epdeq e h) s = .next { s with cmdResult := -1 }) ∧
    (h ∈ (s.epAt e).queue → (s.reqAt h).complete = false →
      exec (.epdeq e h) s = .next { s.afterDone e h .aborted with cmdResult := 0 }) ∧
    (h ∈ (s.epAt e).queue → (s.reqAt h).complete = true →
      exec (.epdeq e h) s = .next (({ s with stack := .ret 0 :: s.stack } : State).afterDone e h .aborted))

/-- PULLUP calls the `udc_command` hook where the platform has one and records the pull-up; SELFPWR writes the
self-powered bit; both return 0 (44_lifecycle.md R159, R163). Rests on the spec's own decisions D35, D37 (log 25). -/
def Obligations.PullupSelfpwrEffect : Prop :=
  ∀ (v : Bool) (s : State), s.Quiet →
    exec (.pullup v) s =
      .next { s with
        plat := { s.plat with pullup := v }
        cbLog := s.cbLog ++ (if s.plat.udcCommand then [.udcCommand v] else [])
        cmdResult := 0 } ∧
    exec (.selfpwr v) s = .next { s with dev := { s.dev with selfPowered := v }, cmdResult := 0 }

/-- REGDRV: `Busy` inside a callback or the dispatcher, or with a driver registered; `InvalidArgument` for one that is
not full-speed or lacks `bind`, `setup` or `disconnect`; else the driver is stored and `bind` is called
(44_lifecycle.md R155; 30_encoding.md R76). UNREGDRV: `Busy` inside a callback or the dispatcher; `InvalidArgument` for
a driver that is not the registered one; else `disconnect` is called (R157). Rests on the spec's own decisions D7, D34
(log 25); the model's own in it: log 7. -/
def Obligations.RegdrvUnregdrvEffect : Prop :=
  ∀ (id : Handle) (caps : BitVec 7) (s : State), s.Quiet →
    exec (.regdrv id caps) s =
      .next (if s.stack ≠ [] ∨ s.dev.inDispatch = true ∨ s.dev.driver ≠ none then { s with cmdResult := -3 }
        else if caps.getLsbD 0 = false ∨ caps.getLsbD 1 = false ∨ caps.getLsbD 4 = false ∨ caps.getLsbD 3 = false then
          { s with cmdResult := -1 }
        else
          { s with
            dev := { s.dev with driver := some ⟨id, caps⟩ }
            cbLog := s.cbLog ++ [.callback .bind]
            stack := [.callback .bind, .afterBind] }) ∧
    exec (.unregdrv id) s =
      .next (if s.stack ≠ [] ∨ s.dev.inDispatch = true then { s with cmdResult := -3 }
        else if s.dev.driver.map Driver.id ≠ some id then { s with cmdResult := -1 }
        else
          { s with
            cbLog := s.cbLog ++ [.callback .disconnect]
            stack := [.callback .disconnect, .unregMain s.params.dataEndpoints] })

/-- When `bind` returns r: r < 0 undoes the registration and is the result, unchanged, and what `bind` did to endpoints
and requests stays (the literal reading, log 16); r ≥ 0 enables the controller and returns 0 (44_lifecycle.md R153,
R155, R156). Rests on the spec's own decisions D32, D33 (log 25); the model's own in it: log 7. -/
def Obligations.BindReturns : Prop :=
  ∀ (s : State) (r : Int) (more : List Input), s.race = [] → s.stack = [.callback .bind, .afterBind] →
    s.input = .callbackReturn r :: more →
    let t : State := { s with stack := [], input := more, cbResult := r }
    step s =
      .next (if r < 0 then { t with dev := { s.dev with driver := none }, cmdResult := r }
        else
          { t with
            plat := { s.plat with padMode := .device, clkGated := false, sysintUnmasked := true }
            busEvt := 0
            epEvt := s.epEvt &&& ~~~s.params.epMask
            busEvtEn := 0b101#3
            epEvtEn := (s.epEvtEn ||| 1#8) &&& s.params.epMask
            cmdResult := 0 })

/-- When `disconnect` returns, no request of EP0 or of an enabled endpoint having a callback: the controller is
disabled, each enabled data endpoint is disabled in ascending order with its queue failed with `Shutdown`, EP0's queue
is failed with `Shutdown`, the EP0 state is idle, and `unbind` is called where the driver has it; else the driver is
forgotten and the result is 0 (44_lifecycle.md R154, R157, R158; 42_endpoint_ops.md R128). Rests on the spec's own
decisions D34, D35, D45 (log 25); the model's own in it: log 7. -/
def Obligations.UnregisterGoesOn : Prop :=
  ∀ (s : State) (r : Int) (more : List Input) (d : Driver), s.race = [] →
    s.stack = [.callback .disconnect, .unregMain s.params.dataEndpoints] → s.input = .callbackReturn r :: more →
    s.Shaped → s.QueuesSound → (∀ e, e = 0 ∨ (s.epAt e).enabled = true → s.NoCallbacks e) → s.dev.driver = some d →
    let t : State :=
      { s with
        input := more
        cbResult := r
        stack := []
        busEvtEn := 0
        epEvtEn := 0
        busEvt := 0
        epEvt := s.epEvt &&& ~~~s.params.epMask
        plat := { s.plat with sysintUnmasked := false, pullup := false }
        cbLog := s.cbLog ++ (if s.plat.udcCommand then [.udcCommand false] else [])
        dev := { s.dev with speed := .unknown, ep0state := .idle } }
    let flushed := s.params.dataEndpoints.foldl (fun x e => if (s.epAt e).enabled then x.afterDisable e else x) t
    let u := flushed.afterNuke 0 .shutdown
    step s =
      .next (if d.caps.getLsbD 2 then
          { u with cbLog := u.cbLog ++ [.callback .unbind], stack := [.callback .unbind, .unregEnd] }
        else { u with dev := { u.dev with driver := none }, cmdResult := 0 })

/-! ## The dispatcher (43_dispatcher.md) -/

/-- DISPATCH inside the dispatcher or inside a callback is `Busy` and changes nothing else, whatever the bus agent has
scheduled (R141; 42_endpoint_ops.md R140); with nothing pending it returns 0 and changes nothing else (R149). Rests on
the spec's own decisions D39 (log 25); the model's own in it: log 22. -/
def Obligations.NestedAndIdleDispatch : Prop :=
  ∀ (s : State),
    (s.settled = true → s.dev.inDispatch = true ∨ s.stack ≠ [] → exec .dispatch s = .next { s with cmdResult := -3 }) ∧
    (s.race = [] → s.stack = [] → s.dev.inDispatch = false → s.busEvt = 0 → s.epEvt = 0 →
      exec .dispatch s = .next { s with cmdResult := 0 })

/-- DISPATCH clears the bits it saw, and no others, and with no RESET among them hands out, in this order: RESUME,
SUSPEND, EP0, and the endpoints 1 .. NUM_EP-1 ascending, each once if its bit was set; then INDEX is restored (R141,
R142, R144 to R147, R150, R151). Rests on the spec's own decisions D31, D39 (log 25); the model's own in it: log 7. -/
def Obligations.DispatchHandsOut : Prop :=
  ∀ (s : State), s.race = [] → s.stack = [] → s.Shaped → s.dev.inDispatch = false → s.busEvt.getLsbD 2 = false →
    exec .dispatch s =
      settle { s with
        dev := { s.dev with inDispatch := true }
        busEvt := 0
        epEvt := 0
        stack :=
          (if s.busEvt.getLsbD 1 then [.notifyResume] else []) ++ (if s.busEvt.getLsbD 0 then [.notifySuspend] else []) ++
            (if s.epEvt.getLsbD 0 then [.op .ep0h] else []) ++
            ((List.range (s.params.numEp - 1)).filter (fun i => s.epEvt.getLsbD (i + 1))).map
              (fun i => .op (.epnh (BitVec.ofNat 4 (i + 1)))) ++
            [.dispatchExit s.index] }

/-- A DISPATCH that sees RESET sets the address to 0, EP0's max-packet to EP0_MAXP, the speed to full and the EP0 state
to idle, fails EP0's requests with `Aborted`, drops every other bit it saw, and restores INDEX (R141 to R143). Rests on
the spec's own decisions D30, D31, D39 (log 25). -/
def Obligations.DispatchOfReset : Prop :=
  ∀ (s : State), s.race = [] → s.stack = [] → s.dev.inDispatch = false → s.busEvt.getLsbD 2 = true → s.Shaped →
    s.QueuesSound → s.NoCallbacks 0 →
    let t := s.afterNuke 0 .aborted
    exec .dispatch s =
      .next { t with
        busEvt := 0
        epEvt := 0
        dev := { s.dev with address := 0, speed := .full, ep0state := .idle }
        funcAddr := 0
        eps := t.eps.modify 0 fun p => { p with maxp := s.params.ep0Maxp }
        hw := s.hw.modify 0 fun w => { w with maxp := s.params.ep0Maxp }
        cmdResult := 0 }

/-- `notify_resume` and `notify_suspend` call the driver's callback if the speed is known, a driver is registered and
it has one, and change nothing otherwise (R144, R145). Rests on the spec's own decisions D31 (log 25); the model's own
in it: log 7. -/
def Obligations.NotifyCallbacks : Prop :=
  ∀ (s : State) (fs : List Frame),
    (s.stack = .notifyResume :: fs → step s =
      (if s.dev.speed ≠ .unknown ∧ (s.dev.driver.any fun d => d.caps.getLsbD 6) = true then
        .next { s with cbLog := s.cbLog ++ [.callback .resume], stack := .callback .resume :: fs }
      else settle { s with stack := fs })) ∧
    (s.stack = .notifySuspend :: fs → step s =
      (if s.dev.speed ≠ .unknown ∧ (s.dev.driver.any fun d => d.caps.getLsbD 5) = true then
        .next { s with cbLog := s.cbLog ++ [.callback .suspend], stack := .callback .suspend :: fs }
      else settle { s with stack := fs }))

/-- POLL dispatches exactly when an enabled event is pending and the line is unmasked (30_encoding.md R83; 10_state.md
R28). RUN with nothing pending ends at once; where it answers a state, IRQ_PENDING is 0 and no operation it started is
pending, a callback included; and its answer does not depend on how many moves it is given (R83;
70_reset_and_hazards.md R215). Rests on the spec's own decisions D5, D7, D43 (log 25); the model's own in it: log 7,
log 8, log 15. -/
def Obligations.PollDispatches : Prop :=
  ∀ (s : State),
    (poll s =
      if (s.busEvt &&& s.busEvtEn ≠ 0 ∨ s.epEvt &&& s.epEvtEn ≠ 0) ∧ s.plat.sysintUnmasked = true then exec .dispatch s
      else .next s) ∧
    (∀ n, s.race = [] → s.busEvt &&& s.busEvtEn = 0 → s.epEvt &&& s.epEvtEn = 0 → run (n + 1) s = some (.next s)) ∧
    (∀ n t, run n s = some (.next t) →
      t.busEvt &&& t.busEvtEn = 0 ∧ t.epEvt &&& t.epEvtEn = 0 ∧ t.stack.length ≤ s.stack.length) ∧
    (∀ n k r, run n s = some r → run (n + k) s = some r)

/-! ## Bus events (45_bus_agent.md) -/

/-- BRESET, BSUSP and BRESUME while the host sees the device: the event bit; BRESET also closes the control transfer
and clears EP0's hardware. Else there is no move (R165, R167 to R169, R177). Rests on the spec's own decisions D10, D11
(log 25); the model's own in it: log 9. -/
def Obligations.BusEventsEffect : Prop :=
  ∀ (s : State),
    let live := s.plat.padMode = .device ∧ s.plat.clkGated = false ∧ (s.plat.pullup = true ∨ s.plat.udcCommand = false)
    (live → exec .breset s = .next { s with
      busEvt := s.busEvt ||| 0b100#3
      ctlActive := false
      hw := s.hw.modify 0 fun w => { w with csr := ⟨false, false, false, false, false, false⟩, fifo := [], cnt := 0 }
      busResult := .taken }) ∧
    (live → exec .bsusp s = .next { s with busEvt := s.busEvt ||| 0b001#3, busResult := .taken }) ∧
    (live → exec .bresume s = .next { s with busEvt := s.busEvt ||| 0b010#3, busResult := .taken }) ∧
    (¬live → ∀ i ∈ [Instr.breset, .bsusp, .bresume], exec i s = .next { s with busResult := .notEnabled })

/-- BSETUP: its guard, and its effect on EP0's hardware, CTL_ACTIVE and EP_EVT[0]: an open transfer whose data phase
has not ended raises SETUP_END (R170, R177). Rests on the spec's own decisions D10 (log 25); the model's own in it: log
9. -/
def Obligations.BsetupEffect : Prop :=
  ∀ (bytes : List Byte) (s : State), s.Shaped →
    exec (.bsetup bytes) s =
      .next (if s.live = true ∧ (s.csrAt 0).opr = false ∧ bytes.length ≤ 8 then
        { s with
          hw := s.hw.modify 0 fun w =>
            { maxp := w.maxp, cnt := bytes.length, fifo := bytes, toggle := .data1
              csr :=
                { opr := true, ipr := false, sentStall := w.csr.sentStall, dataEnd := false
                  setupEnd := w.csr.setupEnd || (s.ctlActive && !w.csr.dataEnd), sendStall := false } }
          ctlActive := true
          epEvt := s.epEvt ||| 1#8
          busResult := .taken }
      else { s with busResult := .notEnabled })

/-- BOUT: its guard, and its effect: the packet in the FIFO with its count, OPR, the toggle flipped, the event bit
(R171, R177). Rests on the spec's own decisions D10 (log 25); the model's own in it: log 9. -/
def Obligations.BoutEffect : Prop :=
  ∀ (e : EpNum) (bytes : List Byte) (s : State), e.toNat < s.params.numEp →
    exec (.bout e bytes) s =
      .next (if s.live = true ∧ (s.csrAt e).opr = false ∧ (s.csrAt e).sendStall = false ∧
          bytes.length ≤ s.params.fifoSize e ∧
          (if e = 0 then s.ctlActive = true ∧ (s.csrAt 0).dataEnd = false ∧ (s.csrAt 0).ipr = false
            else (s.epAt e).enabled = true ∧ (s.epAt e).dir = .out) then
        { s with
          hw := s.hw.modify e.toNat fun w =>
            { w with csr := { w.csr with opr := true }, fifo := bytes, cnt := bytes.length, toggle := w.toggle.flip }
          epEvt := s.epEvt ||| 1#8 <<< e.toNat
          busResult := .taken }
      else { s with busResult := .notEnabled })

/-- BIN: its guard, and its effect: the FIFO's bytes to TX, the FIFO empty, IPR 0, the toggle flipped, the event bit
(R172, R177). Rests on the spec's own decisions D10 (log 25); the model's own in it: log 9. -/
def Obligations.BinEffect : Prop :=
  ∀ (e : EpNum) (s : State), e.toNat < s.params.numEp →
    exec (.bin e) s =
      .next (if s.live = true ∧ (s.csrAt e).ipr = true ∧ (s.csrAt e).sendStall = false ∧
          (if e = 0 then s.ctlActive = true else (s.epAt e).enabled = true ∧ (s.epAt e).dir = .inward) then
        { s with
          tx := s.tx ++ [(e, (s.hwAt e).fifo)]
          hw := s.hw.modify e.toNat fun w =>
            { w with csr := { w.csr with ipr := false }, fifo := [], toggle := w.toggle.flip }
          epEvt := s.epEvt ||| 1#8 <<< e.toNat
          busResult := .taken }
      else { s with busResult := .notEnabled })

/-- BSTALL and BSTATUS: their guards and effects (R173, R174, R177). Rests on the spec's own decisions D10 (log 25);
the model's own in it: log 9. -/
def Obligations.BstallBstatusEffect : Prop :=
  ∀ (e : EpNum) (s : State), e.toNat < s.params.numEp →
    exec (.bstall e) s =
      .next (if s.live = true ∧ (s.csrAt e).sendStall = true ∧
          (if e = 0 then s.ctlActive = true else (s.epAt e).enabled = true) then
        { s with
          hw := s.hw.modify e.toNat fun w =>
            { w with
              csr := { w.csr with
                       sentStall := true
                       sendStall := if e = 0 then false else w.csr.sendStall
                       dataEnd := if e = 0 then false else w.csr.dataEnd } }
          ctlActive := if e = 0 then false else s.ctlActive
          epEvt := s.epEvt ||| 1#8 <<< e.toNat
          busResult := .taken }
      else { s with busResult := .notEnabled }) ∧
    exec .bstatus s =
      .next (if s.live = true ∧ s.ctlActive = true ∧ (s.csrAt 0).dataEnd = true ∧ (s.csrAt 0).ipr = false ∧
          (s.csrAt 0).opr = false ∧ (s.csrAt 0).sendStall = false then
        { s with
          hw := s.hw.modify 0 fun w => { w with csr := { w.csr with dataEnd := false } }
          ctlActive := false
          epEvt := s.epEvt ||| 1#8
          busResult := .taken }
      else { s with busResult := .notEnabled })

/-- What the bus agent never does, over all its steps together (R180): it clears no event bit; but for BRESET on EP0 it
clears no OPR, SENT_STALL or SETUP_END; it sets no IPR, DATA_END or SEND_STALL; MAXP, the records, the buffers, INDEX,
FUNC_ADDR and the enables stand. For an endpoint that does not exist it does nothing (30_encoding.md R80 c). Rests on
the spec's own decisions D7, D10 (log 25); the model's own in it: log 9. -/
def Obligations.BusAgentFrame : Prop :=
  ∀ (i : Instr) (s t : State), i.port = .bus → exec i s = .next t →
    (∀ j : Nat, s.busEvt.getLsbD j = true → t.busEvt.getLsbD j = true) ∧
    (∀ j : Nat, s.epEvt.getLsbD j = true → t.epEvt.getLsbD j = true) ∧
    (∀ e : EpNum, (i = .breset → e ≠ 0) →
      ((s.csrAt e).opr = true → (t.csrAt e).opr = true) ∧
      ((s.csrAt e).sentStall = true → (t.csrAt e).sentStall = true) ∧
      ((s.csrAt e).setupEnd = true → (t.csrAt e).setupEnd = true)) ∧
    (∀ e : EpNum,
      ((s.csrAt e).ipr = false → (t.csrAt e).ipr = false) ∧ ((s.csrAt e).dataEnd = false → (t.csrAt e).dataEnd = false) ∧
      ((s.csrAt e).sendStall = false → (t.csrAt e).sendStall = false) ∧ (t.hwAt e).maxp = (s.hwAt e).maxp) ∧
    t.dev = s.dev ∧ t.eps = s.eps ∧ t.reqs = s.reqs ∧ t.plat = s.plat ∧ t.mem = s.mem ∧ t.index = s.index ∧
    t.funcAddr = s.funcAddr ∧ t.busEvtEn = s.busEvtEn ∧ t.epEvtEn = s.epEvtEn ∧ t.cmdResult = s.cmdResult ∧
    ((∃ e, (i = .bin e ∨ i = .bstall e ∨ ∃ p, i = .bout e p) ∧ s.params.numEp ≤ e.toNat) →
      t = { s with busResult := .invalid })

/-! ## Internal operations -/

/-- WRFIFO moves one packet of the head request into the empty FIFO, in increasing offset, marks it ready in one write,
and completes the request with the last packet (40_fifo_engine.md R86 to R90, R96, R99). RDFIFO drains one packet into
the head request's buffer, releases the FIFO in one write, and completes the request when it is full, overflows, or, on
a data endpoint only, the packet is short (R91 to R93). The buffer then holds the bytes moved, and every other byte of
memory is as before. Rests on the spec's own decisions D17, D18, D42 (log 25); the model's own in it: log 7, log 20. -/
def Obligations.WrfifoRdfifoEffect : Prop :=
  ∀ (e : EpNum) (h : Handle) (s : State), s.Quiet → s.Shaped → s.head e = some h →
    ((s.csrAt e).ipr = false → 1 ≤ (s.epAt e).maxp.toNat → (e = 0 → s.dev.ep0state = .inData) →
      (s.hwAt e).fifo = [] → (s.nextPacket e h).length ≤ s.params.fifoSize e →
      exec (.wrfifo e) s = .next (s.afterWrite e h)) ∧
    ((s.csrAt e).opr = true → (e = 0 → s.dev.ep0state = .outData) → (s.hwAt e).cnt = (s.hwAt e).fifo.length →
      exec (.rdfifo e) s = .next (s.afterRead e h) ∧
      (s.mem.wf = true →
        let start := (s.reqAt h).transferred.toNat
        let n := min (s.hwAt e).cnt ((s.reqAt h).length.toNat - start)
        (∀ i, i < n → (s.hwAt e).fifo[i]? = some ((s.afterRead e h).mem.read (bufAddr h (start + i)))) ∧
        ∀ a, (∀ i, i < n → a ≠ bufAddr h (start + i)) → (s.afterRead e h).mem.read a = s.mem.read a))

/-- The stops: `write_fifo` and `read_fifo` entered with a precondition false (40_fifo_engine.md R86, R91;
93_implementation_defined.md U4: no head request, IPR 1, FIFO not empty, max-packet 0, EP0 not in the IN phase; no head
request, OPR 0, EP0 not in the OUT phase), `done` for a request that is not queued (R94), and a push into a full FIFO
(U1), alone, by `write_fifo`, or by a reply. Rests on the spec's own decisions D18 (log 25); the model's own in it: log
11, log 29, log 31. -/
def Obligations.PreconditionsRefused : Prop :=
  ∀ (e : EpNum) (h : Handle) (k : Kind) (s : State),
    (s.head e = none ∨ (s.csrAt e).ipr = true ∨ (s.hwAt e).fifo ≠ [] ∨ (s.epAt e).maxp = 0 ∨
      e = 0 ∧ s.dev.ep0state ≠ .inData → exec (.wrfifo e) s = .refused .fifoPrecondition) ∧
    (s.head e = none ∨ (s.csrAt e).opr = false ∨ e = 0 ∧ s.dev.ep0state ≠ .outData →
      exec (.rdfifo e) s = .refused .fifoPrecondition) ∧
    (h ∉ (s.epAt e).queue → exec (.done e h k) s = .refused .requestNotQueued) ∧
    (∀ b : Byte, s.params.fifoSize e ≤ (s.turn.hwAt e).fifo.length → fifoPush e b s = .refused .fifoFull) ∧
    (s.Quiet → s.Shaped → s.head e = some h → (s.csrAt e).ipr = false → (s.hwAt e).fifo = [] →
      1 ≤ (s.epAt e).maxp.toNat → (e = 0 → s.dev.ep0state = .inData) →
      s.params.fifoSize e < (s.nextPacket e h).length → exec (.wrfifo e) s = .refused .fifoFull) ∧
    (s.Quiet → s.Shaped → ∀ (d : Bool) (v x l : BitVec 16),
      let n : EpNum := x.extractLsb' 0 4
      let used := (s.hwAt 0).released.fifo.length
      (s.params.fifoSize 0 < used + 2 → exec (.getStatusDev d v x l) s = .refused .fifoFull) ∧
      (s.params.fifoSize 0 < used + 1 → exec (.getConfiguration d v x l) s = .refused .fifoFull) ∧
      (n.toNat < s.params.numEp → n = 0 ∨ (s.epAt n).enabled = true → s.params.fifoSize 0 < used + 2 →
        exec (.getStatusEp d v x l) s = .refused .fifoFull))

/-- DONE of a queued request dequeues it, sets its status once, traces it, and then calls its callback if it has one
(40_fifo_engine.md R94). That the callback is a frame the client returns from, and its entry in CB_LOG, are the model's
(log 7, log 20). -/
def Obligations.DoneEffect : Prop :=
  ∀ (e : EpNum) (h : Handle) (k : Kind) (s : State), s.Quiet → s.Shaped → h.toNat < s.params.numReq →
    h ∈ (s.epAt e).queue → exec (.done e h k) s = .next (s.afterDone e h k)

/-- NUKE fails the requests queued at entry, in order; a callback runs before the rest, which is kept
(40_fifo_engine.md R95). Rests on the spec's own decisions D44 (log 25); the model's own in it: log 7, log 20, log 31.
-/
def Obligations.NukeEffect : Prop :=
  ∀ (e : EpNum) (k : Kind) (s : State), s.Quiet → s.Shaped → s.QueuesSound →
    (s.NoCallbacks e → exec (.nuke e k) s = .next (s.afterNuke e k)) ∧
    (∀ h hs, (s.epAt e).queue = h :: hs → (s.reqAt h).complete = true →
      exec (.nuke e k) s = .next (({ s with stack := .nukeRest e k hs :: s.stack } : State).afterDone e h k))

/-- EP0H with no sent-stall and no setup-end (41_ep0_control.md R100, R101, R118 to R121): in a data phase the packet
that is ready is moved, an IN packet with bytes already in FIFO[0] is refused (40_fifo_engine.md R86;
93_implementation_defined.md U4); with nothing ready only INDEX is written; in a state no rule enters the state becomes
idle. Rests on the spec's own decisions D27, D28 (log 25); the model's own in it: log 7, log 11, log 20. -/
def Obligations.Ep0hDataPhases : Prop :=
  ∀ (s : State), s.Quiet → s.Shaped → (s.csrAt 0).sentStall = false → (s.csrAt 0).setupEnd = false →
    (s.dev.ep0state = .idle → (s.csrAt 0).opr = false → exec .ep0h s = .next { s with index := 0 }) ∧
    (∀ h, s.dev.ep0state = .inData → s.head 0 = some h → (s.csrAt 0).ipr = false → 1 ≤ (s.epAt 0).maxp.toNat →
      (s.hwAt 0).fifo = [] → (s.nextPacket 0 h).length ≤ s.params.fifoSize 0 →
      exec .ep0h s = .next (s.afterWrite 0 h)) ∧
    (∀ h, s.dev.ep0state = .inData → s.head 0 = some h → (s.csrAt 0).ipr = false → (s.hwAt 0).fifo ≠ [] →
      exec .ep0h s = .refused .fifoPrecondition) ∧
    (s.dev.ep0state = .inData → s.head 0 = none ∨ (s.csrAt 0).ipr = true → exec .ep0h s = .next { s with index := 0 }) ∧
    (∀ h, s.dev.ep0state = .outData → s.head 0 = some h → (s.csrAt 0).opr = true →
      (s.hwAt 0).cnt = (s.hwAt 0).fifo.length → exec .ep0h s = .next (s.afterRead 0 h)) ∧
    (s.dev.ep0state = .outData → s.head 0 = none ∨ (s.csrAt 0).opr = false → exec .ep0h s = .next { s with index := 0 }) ∧
    (s.dev.ep0state = .setupPending ∨ s.dev.ep0state = .endXfer ∨ s.dev.ep0state = .stall →
      exec .ep0h s = .next { s with index := 0, dev := { s.dev with ep0state := .idle } })

/-- EP0H that sees setup-end, no sent-stall and no queued request with a callback: the bit is cleared, which raises
EP_EVT[0] again if a packet waits, the queue is failed with `Aborted`, the state is idle, and the waiting setup packet
is left for the next pass (41_ep0_control.md R103, R125; 10_state.md R41). Rests on the spec's own decisions D47 (log
25). -/
def Obligations.Ep0hSetupEnd : Prop :=
  ∀ (s : State), s.Quiet → s.Shaped → s.QueuesSound → s.NoCallbacks 0 → (s.csrAt 0).sentStall = false →
    (s.csrAt 0).setupEnd = true →
    let t := s.afterNuke 0 .aborted
    exec .ep0h s =
      .next { t with
        index := 0
        hw := s.hw.modify 0 fun w => { w with csr := { w.csr with setupEnd := false } }
        epEvt := if (s.csrAt 0).opr then s.epEvt ||| 1#8 else s.epEvt
        dev := { s.dev with ep0state := .idle } }

/-- EP0H that sees sent-stall, with no queued request having a callback: SENT_STALL and SEND_STALL are cleared, the
queue is failed with `Stalled`, the state is idle. With setup-end that bit is cleared too and the pass ends; with no
packet waiting nothing more happens; with a packet waiting it is taken as a setup packet in the same pass: fewer than
eight bytes are stalled, else the request they decode to is executed (41_ep0_control.md R102, R104, R105, R125). Rests
on the spec's own decisions D26, D28 (log 25). -/
def Obligations.Ep0hSentStall : Prop :=
  ∀ (s : State) (b rest : List Byte) (i : Instr), s.Quiet → s.Shaped → s.QueuesSound → s.NoCallbacks 0 →
    (s.csrAt 0).sentStall = true →
    let t : State :=
      { s.afterNuke 0 .stalled with
        index := 0
        hw := s.hw.modify 0 fun w =>
          { w with csr := { w.csr with sentStall := false, sendStall := false, setupEnd := false } }
        epEvt := if (s.csrAt 0).setupEnd ∧ (s.csrAt 0).opr then s.epEvt ||| 1#8 else s.epEvt
        dev := { s.dev with ep0state := .idle } }
    ((s.csrAt 0).setupEnd = true ∨ (s.csrAt 0).opr = false → exec .ep0h s = .next t) ∧
    ((s.csrAt 0).setupEnd = false → (s.csrAt 0).opr = true → (s.hwAt 0).cnt < 8 → exec .ep0h s = .next t.afterEp0Stall) ∧
    ((s.csrAt 0).setupEnd = false → (s.csrAt 0).opr = true → 8 ≤ (s.hwAt 0).cnt → b.length = 8 →
      (s.hwAt 0).fifo = b ++ rest → decode .setup b = .ok (i, []) →
      exec .ep0h s = exec i { t with hw := t.hw.modify 0 fun w => { w with fifo := rest } })

/-- EP0H in the idle state with a packet waiting: the requests left on EP0, none with a callback, are failed with
`Aborted`; then fewer than eight bytes are malformed and stalled, else the first eight bytes are read and the request
they decode to is executed (41_ep0_control.md R104, R105). Rests on the spec's own decisions D26 (log 25). -/
def Obligations.Ep0hSetupPacket : Prop :=
  ∀ (s : State) (b rest : List Byte) (i : Instr), s.Quiet → s.Shaped → s.QueuesSound → s.NoCallbacks 0 →
    (s.csrAt 0).sentStall = false → (s.csrAt 0).setupEnd = false → (s.csrAt 0).opr = true → s.dev.ep0state = .idle →
    let t := s.afterNuke 0 .aborted
    ((s.hwAt 0).cnt < 8 → exec .ep0h s = .next t.afterEp0Stall) ∧
    (8 ≤ (s.hwAt 0).cnt → b.length = 8 → (s.hwAt 0).fifo = b ++ rest → decode .setup b = .ok (i, []) →
      exec .ep0h s = exec i { t with index := 0, hw := s.hw.modify 0 fun w => { w with fifo := rest } })

/-- SERVICE of a data endpoint with no request does nothing; else it moves at most one packet, on an IN endpoint where
IPR is 0 and on an OUT endpoint where OPR is 1, and an IN packet with bytes already in the FIFO is refused
(40_fifo_engine.md R86, R98; 93_implementation_defined.md U4). EPNH clears the endpoint's sent-stall bit if it is set
and then serves the head request: SEND_STALL and the halt stay (43_dispatcher.md R148). Rests on the spec's own
decisions D13 (log 25); the model's own in it: log 7, log 11, log 20, log 31. -/
def Obligations.ServiceEpnhEffect : Prop :=
  ∀ (e : EpNum) (s : State), s.Quiet → s.Shaped → e ≠ 0 →
    (s.head e = none → exec (.service e) s = .next s) ∧
    (∀ h, s.head e = some h → (s.epAt e).dir = .inward → (s.csrAt e).ipr = true →
      exec (.service e) s = .next { s with index := e }) ∧
    (∀ h, s.head e = some h → (s.epAt e).dir = .inward → (s.csrAt e).ipr = false → 1 ≤ (s.epAt e).maxp.toNat →
      (s.hwAt e).fifo = [] → (s.nextPacket e h).length ≤ s.params.fifoSize e →
      exec (.service e) s = .next (s.afterWrite e h)) ∧
    (∀ h, s.head e = some h → (s.epAt e).dir = .inward → (s.csrAt e).ipr = false → (s.hwAt e).fifo ≠ [] →
      exec (.service e) s = .refused .fifoPrecondition) ∧
    (∀ h, s.head e = some h → (s.epAt e).dir = .out → (s.csrAt e).opr = false →
      exec (.service e) s = .next { s with index := e }) ∧
    (∀ h, s.head e = some h → (s.epAt e).dir = .out → (s.csrAt e).opr = true →
      (s.hwAt e).cnt = (s.hwAt e).fifo.length → exec (.service e) s = .next (s.afterRead e h)) ∧
    (let t : State := { s with
      index := e, hw := s.hw.modify e.toNat fun w => { w with csr := { w.csr with sentStall := false } } }
    (s.head e = none → exec (.epnh e) s = .next t) ∧ exec (.epnh e) s = exec (.service e) t)

/-- CTLEN, CTLDIS and EP0STALL (44_lifecycle.md R153, R154; 41_ep0_control.md R122). Rests on the spec's own decisions
D32, D35, D36 (log 25); the model's own in it: log 18. -/
def Obligations.ControllerOpsEffect : Prop :=
  ∀ (s : State), s.Quiet →
    exec .ctlen s =
      .next { s with
        plat := { s.plat with padMode := .device, clkGated := false, sysintUnmasked := true }
        busEvt := 0
        epEvt := s.epEvt &&& ~~~s.params.epMask
        busEvtEn := 0b101#3
        epEvtEn := (s.epEvtEn ||| 1#8) &&& s.params.epMask } ∧
    exec .ctldis s =
      .next { s with
        busEvtEn := 0
        epEvtEn := 0
        busEvt := 0
        epEvt := s.epEvt &&& ~~~s.params.epMask
        plat := { s.plat with sysintUnmasked := false, pullup := false }
        cbLog := s.cbLog ++ (if s.plat.udcCommand then [.udcCommand false] else [])
        dev := { s.dev with speed := .unknown } } ∧
    exec .ep0stall s = .next s.afterEp0Stall

/-! ## Registers -/

/-- `classify` (40_fifo_engine.md R88): fewer than a full packet is complete-short; a full one is complete-full exactly
when the length is reached and no zero-length packet is asked for, and continues otherwise; and so in the five cases of
what is left of the request. -/
def Obligations.ClassifyCases : Prop :=
  ∀ (start length maxp : Nat) (zlp : Bool), start ≤ length → 1 ≤ maxp →
    let n := min (length - start) maxp
    let outcome := classify n (start + n) length zlp maxp
    (n < maxp → outcome = .completeShort) ∧
    (maxp ≤ n → start + n = length → zlp = false → outcome = .completeFull) ∧
    (maxp ≤ n → start + n ≠ length ∨ zlp = true → outcome = .continues) ∧
    (maxp < length - start → outcome = .continues) ∧
    (length - start = maxp → zlp = false → outcome = .completeFull) ∧
    (length - start = maxp → zlp = true → outcome = .continues) ∧
    (length - start < maxp → outcome = .completeShort)

/-- A read-modify-write of CSR through its byte has exactly the effect of the one write that names the fields, on the
endpoint INDEX selects, whatever the bus agent changes between the read and the write, but for an unnamed SEND_STALL
that it changes there (20_memory.md R51, R52). Byte reads and writes of every offset: the layout and the write
semantics of the registers, a FIFO data register pops and pushes, CNT is read-only, a full FIFO is a stop, and a
reserved offset, an indexed register with INDEX ≥ NUM_EP and an empty FIFO read as a free value (30_encoding.md R78,
R79; 10_state.md R25 to R35; 93_implementation_defined.md U1, U2, U3). The model's choices in the writes of CSR: a
written OPR of 0 empties the FIFO only where OPR was 1, as 41_ep0_control.md R122 has it and not R31 (log 18); a flush
wins over an IPR written 1 (log 34); an IPR written 1 is set on an OUT endpoint too (log 35). Rests on the spec's own
decisions D5, D6, D36, D40 (log 25); the model's own in it: log 8, log 10, log 19, log 26, log 29, log 32. -/
def Obligations.ByteWriteIsFieldWrite : Prop :=
  (∀ (s : State) (u : CsrUpdate), s.index.toNat < s.params.numEp →
    u.sendStall ≠ none ∨ (s.turn.turn.csrAt s.index).sendStall = (s.turn.csrAt s.index).sendStall →
    csrReadModifyWrite u s = .next (s.turn.turn.applyCsr s.index u)) ∧
  (∀ (s : State),
    let t := s.turn
    let w := t.hwAt s.index
    let free : Byte × State := (Config.freeByte t.freeCount, { t with freeCount := t.freeCount + 1 })
    regRead 0x00 s = (0#1 ++ t.funcAddr, t) ∧ regRead 0x02 s = (t.epEvt, t) ∧ regRead 0x03 s = (0#5 ++ t.busEvt, t) ∧
    regRead 0x04 s = (t.epEvtEn, t) ∧ regRead 0x05 s = (0#5 ++ t.busEvtEn, t) ∧ regRead 0x06 s = (0#4 ++ t.index, t) ∧
    (s.index.toNat < s.params.numEp →
      regRead 0x08 s = (w.maxp.extractLsb' 0 8, t) ∧
      regRead 0x09 s = (BitVec.ofNat 8 (w.csr.opr.toNat + 2 * w.csr.ipr.toNat + 4 * w.csr.sentStall.toNat +
        (if s.index = 0 then 8 * w.csr.dataEnd.toNat + 16 * w.csr.setupEnd.toNat else 0) + 32 * w.csr.sendStall.toNat), t) ∧
      regRead 0x0A s = (BitVec.ofNat 8 w.cnt, t)) ∧
    (s.params.numEp ≤ s.index.toNat → ∀ a ∈ [0x08, 0x09, 0x0A], regRead a s = free) ∧
    (∀ e : EpNum, e.toNat < s.params.numEp →
      (∀ b rest, (t.hwAt e).fifo = b :: rest →
        regRead (0x10 + e.toNat) s = (b, { t with hw := t.hw.modify e.toNat fun x => { x with fifo := rest } })) ∧
      ((t.hwAt e).fifo = [] → regRead (0x10 + e.toNat) s = free)) ∧
    (∀ a, a ∉ [0x00, 0x02, 0x03, 0x04, 0x05, 0x06, 0x08, 0x09, 0x0A] → a < 0x10 ∨ 0x10 + s.params.numEp ≤ a →
      regRead a s = free)) ∧
  (∀ (s : State) (v : Byte),
    let t := s.turn
    regWrite 0x00 v s = .next { t with funcAddr := v.extractLsb' 0 7 } ∧
    regWrite 0x02 v s = .next { t with epEvt := t.epEvt &&& ~~~v } ∧
    regWrite 0x03 v s = .next { t with busEvt := t.busEvt &&& ~~~(v.extractLsb' 0 3) } ∧
    regWrite 0x04 v s = .next { t with epEvtEn := v &&& s.params.epMask } ∧
    regWrite 0x05 v s = .next { t with busEvtEn := v.extractLsb' 0 3 } ∧
    regWrite 0x06 v s = .next { t with index := v.extractLsb' 0 4 } ∧
    regWrite 0x0A v s = .next t ∧
    (s.index.toNat < s.params.numEp →
      regWrite 0x08 v s = .next { t with hw := t.hw.modify s.index.toNat fun w => { w with maxp := 0#3 ++ v } }) ∧
    (s.index = 0 → s.params.numEp ≠ 0 →
      regWrite 0x09 v s = .next { t with
        hw := t.hw.modify 0 fun w =>
          let x := if v.getLsbD 0 then w else w.released
          { x with csr :=
            { opr := x.csr.opr, ipr := w.csr.ipr || v.getLsbD 1, sentStall := w.csr.sentStall && v.getLsbD 2
              dataEnd := w.csr.dataEnd || v.getLsbD 3, setupEnd := w.csr.setupEnd && v.getLsbD 4
              sendStall := v.getLsbD 5 } }
        epEvt := if (t.csrAt 0).setupEnd && !v.getLsbD 4 && (t.csrAt 0).opr && v.getLsbD 0 then t.epEvt ||| 1#8
          else t.epEvt }) ∧
    (s.index ≠ 0 → s.index.toNat < s.params.numEp →
      regWrite 0x09 v s = .next { t with
        hw := t.hw.modify s.index.toNat fun w =>
          let x := if v.getLsbD 0 then w else w.released
          let y := { x with csr :=
            { x.csr with
              ipr := w.csr.ipr || v.getLsbD 1, sentStall := w.csr.sentStall && v.getLsbD 2, sendStall := v.getLsbD 5 } }
          let z := if v.getLsbD 6 then { y with csr := { y.csr with opr := false, ipr := false }, cnt := 0, fifo := [] } else y
          if v.getLsbD 7 then { z with toggle := .data0 } else z }) ∧
    (s.params.numEp ≤ s.index.toNat → ∀ a ∈ [0x08, 0x09], regWrite a v s = .next t) ∧
    (∀ e : EpNum, e.toNat < s.params.numEp → regWrite (0x10 + e.toNat) v s =
      (if (t.hwAt e).fifo.length < s.params.fifoSize e then
        .next { t with hw := t.hw.modify e.toNat fun x => { x with fifo := x.fifo ++ [v] } }
      else .refused .fifoFull)) ∧
    (∀ a, a ∉ [0x00, 0x02, 0x03, 0x04, 0x05, 0x06, 0x08, 0x09, 0x0A] → a < 0x10 ∨ 0x10 + s.params.numEp ≤ a →
      regWrite a v s = .next t))

/-- Read-then-write-back of an event register clears exactly the bits that were read: a bit the bus agent raises
between the read and the write stays (20_memory.md R53; 10_state.md R26, R27). -/
def Obligations.SnapshotAndClear : Prop :=
  ∀ (s : State) (evs : List BusEvent) (j : Nat), s.race = [evs] →
    let t := busEvtWrite s.busEvt s
    let u := epEvtWrite s.epEvt s
    (s.busEvt.getLsbD j = true → t.busEvt.getLsbD j = false) ∧
    (s.busEvt.getLsbD j = false → t.busEvt.getLsbD j = s.turn.busEvt.getLsbD j) ∧
    (s.epEvt.getLsbD j = true → u.epEvt.getLsbD j = false) ∧
    (s.epEvt.getLsbD j = false → u.epEvt.getLsbD j = s.turn.epEvt.getLsbD j)

/-- What power-on leaves, for every value of what it leaves unspecified (10_state.md R40). The values `State.reset`
takes for the unspecified ones are the model's choice (log 3, log 4, log 5), and so is `EP[0].dir` (log 30). Rests on
the spec's own decisions D38 (log 25). -/
def Obligations.PowerOnValues : Prop :=
  ∀ (p : Params) (u v : Bool) (b : BitVec 3) (ev : BitVec 8) (g : Bool),
    let s := State.powerOn p u v b ev g
    s.dev = ⟨.unknown, 0, 0, p.selfPoweredInit, false, .idle, none, false⟩ ∧
    s.epAt 0 = ⟨0, .out, .control, p.ep0Maxp, true, false, []⟩ ∧
    (∀ e : EpNum, e ≠ 0 → s.epAt e = ⟨e, .out, .bulk, 0, false, false, []⟩) ∧
    (∀ h : Handle, (s.reqAt h).allocated = false ∧ (s.reqAt h).status = .idle ∧ (s.reqAt h).ep = none) ∧
    s.hwAt 0 = ⟨p.ep0Maxp, ⟨false, false, false, false, false, false⟩, 0, [], .data0⟩ ∧
    (∀ e : EpNum, e ≠ 0 → s.hwAt e = ⟨0, ⟨false, false, false, false, false, false⟩, 0, [], .data0⟩) ∧
    s.funcAddr = 0 ∧ s.busEvtEn = 0 ∧ s.epEvtEn = 0 ∧ s.index = 0 ∧ s.ctlActive = false ∧
    s.plat.padMode = .unset ∧ s.plat.sysintUnmasked = false ∧ s.plat.pullup = false ∧
    s.tx = [] ∧ s.doneLog = [] ∧ s.cbLog = [] ∧ State.reset = State.powerOn Params.vectors false false 7 5 true

/-! ## Every step -/

/-- Every step keeps the invariants of `State.Inv`, whatever the bus agent does between the register accesses: the
records exist for the numbers the parameters give, EP0 is fixed, max-packets fit their FIFOs, queues and requests
agree, `transferred` ≤ `length`, FIFOs and counts fit and CNT is 0 while OPR is 0, reserved event bits are 0, memory is
canonical, EP0's state is one some rule enters, pending work is sound (10_state.md R15, R16 a, b, e, R17 to R19, R27,
R28, R33, R34). R16 c, d and f are not in it: by the rules a completion callback inside EPDIS can break them (log 24).
Rests on the spec's own decisions D3, D5, D44 (log 25); the model's own in it: log 7. -/
def Obligations.InvariantKept : Prop := ∀ s t : State, s.Inv → step s = .next t → t.Inv

/-- Power-on meets the invariants, for every choice of the parameters and of what is unspecified. The model's own in
it: log 3, log 4, log 5. -/
def Obligations.InvariantAtPowerOn : Prop :=
  ∀ (p : Params) (u v : Bool) (b : BitVec 3) (ev : BitVec 8) (g : Bool), p.wf = true → (State.powerOn p u v b ev g).Inv

/-- Whole-machine rules over every step: the parameters and the platform's hooks are constant, and the three traces
only grow (10_state.md R23, R38; 00_scope.md R6). Rests on the spec's own decisions D35, D43 (log 25); the model's own
in it: log 20. -/
def Obligations.TracesOnlyGrow : Prop :=
  ∀ s t : State, s.Inv → step s = .next t →
    t.params = s.params ∧ t.plat.udcCommand = s.plat.udcCommand ∧ t.plat.vbusDraw = s.plat.vbusDraw ∧
    s.tx <+: t.tx ∧ s.doneLog <+: t.doneLog ∧ s.cbLog <+: t.cbLog

/-- Operations run to completion: after every step that answers a next state nothing is due before the client or the
bus agent moves (42_endpoint_ops.md R140; 20_memory.md R60). Rests on the spec's own decisions D39 (log 25); the
model's own in it: log 7. -/
def Obligations.RunsToCompletion : Prop := ∀ s t : State, step s = .next t → t.settled = true
end

