-- ==== Sys2Proof/Laws/Codec.lean ====
section
/-! SUPPORT. What decoding and encoding are built from, once: bytes against words, the fields of a port word and of a setup
word, and what the masks of 30_encoding.md R68 say of the fields. -/

namespace Sys2Proof

/-! ## Bytes against words -/

/-- A concatenation read back at its upper part. -/
theorem extract_append_high {m n : Nat} (a : BitVec m) (b : BitVec n) : (a ++ b).extractLsb' n m = a := by
  ext i hi
  simp only [BitVec.getElem_extractLsb', BitVec.getLsbD_append]
  rw [if_neg (by omega), Nat.add_sub_cancel_left, BitVec.getLsbD_eq_getElem]

/-- A concatenation read back inside its lower part. -/
theorem extract_append_low {m n : Nat} (a : BitVec m) (b : BitVec n) (start len : Nat) (h : start + len ≤ n) :
    (a ++ b).extractLsb' start len = b.extractLsb' start len := by
  ext i hi
  simp only [BitVec.getElem_extractLsb', BitVec.getLsbD_append]
  rw [if_pos (by omega)]

/-- A concatenation read back above its lower part. -/
theorem extract_append_above {m n : Nat} (a : BitVec m) (b : BitVec n) (start len : Nat) (h : n ≤ start) :
    (a ++ b).extractLsb' start len = a.extractLsb' (start - n) len := by
  ext i hi
  simp only [BitVec.getElem_extractLsb', BitVec.getLsbD_append]
  rw [if_neg (by omega)]
  congr 1
  omega

/-- The bytes of a word make it again. -/
theorem wordOfBytes_bytesOfWord (w : Word) (rest : List Byte) : wordOfBytes (bytesOfWord w ++ rest) = w := by
  show w.extractLsb' 56 8 ++ w.extractLsb' 48 8 ++ w.extractLsb' 40 8 ++ w.extractLsb' 32 8 ++ w.extractLsb' 24 8 ++
    w.extractLsb' 16 8 ++ w.extractLsb' 8 8 ++ w.extractLsb' 0 8 = w
  ext i hi
  simp only [BitVec.getElem_append, BitVec.getElem_extractLsb']
  repeat' split
  all_goals (rw [← BitVec.getLsbD_eq_getElem]; congr 1; omega)

/-- The word of eight bytes has those bytes. -/
theorem bytesOfWord_wordOfBytes (b : List Byte) (h : 8 ≤ b.length) : bytesOfWord (wordOfBytes b) = b.take 8 := by
  match b, h with
  | b0 :: b1 :: b2 :: b3 :: b4 :: b5 :: b6 :: b7 :: rest, _ =>
    simp only [bytesOfWord, wordOfBytes, List.getD_cons_zero, List.getD_cons_succ, List.take_succ_cons, List.take_zero,
      List.cons.injEq, and_true]
    refine ⟨?_, ?_, ?_, ?_, ?_, ?_, ?_, ?_⟩ <;> ext i hi <;>
      simp only [BitVec.getElem_extractLsb', BitVec.getLsbD_append] <;> split_ifs <;>
      first | omega | (rw [← BitVec.getLsbD_eq_getElem]; congr 1; omega)

@[simp] theorem bytesOfWord_length (w : Word) : (bytesOfWord w).length = 8 := rfl

/-! ## The fields of a port word (30_encoding.md R70) -/

section
variable (op : BitVec 8) (ep : EpNum) (f : BitVec 4) (h : Handle) (v : BitVec 32)

@[simp] theorem opField_portWord : opField (portWord op ep f h v) = op := by
  ext i hi
  simp only [opField, portWord, BitVec.getElem_extractLsb', BitVec.getLsbD_append]
  split_ifs <;> first | omega | (rw [← BitVec.getLsbD_eq_getElem]; congr 1; omega)

@[simp] theorem epField_portWord : epField (portWord op ep f h v) = ep := by
  ext i hi
  simp only [epField, portWord, BitVec.getElem_extractLsb', BitVec.getLsbD_append]
  split_ifs <;> first | omega | (rw [← BitVec.getLsbD_eq_getElem]; congr 1; omega)

@[simp] theorem flagField_portWord : flagField (portWord op ep f h v) = f := by
  ext i hi
  simp only [flagField, portWord, BitVec.getElem_extractLsb', BitVec.getLsbD_append]
  split_ifs <;> first | omega | (rw [← BitVec.getLsbD_eq_getElem]; congr 1; omega)

@[simp] theorem handleField_portWord : handleField (portWord op ep f h v) = h := by
  ext i hi
  simp only [handleField, portWord, BitVec.getElem_extractLsb', BitVec.getLsbD_append]
  split_ifs <;> first | omega | (rw [← BitVec.getLsbD_eq_getElem]; congr 1; omega)

@[simp] theorem valueField_portWord : valueField (portWord op ep f h v) = v := by
  ext i hi
  simp only [valueField, portWord, BitVec.getElem_extractLsb', BitVec.getLsbD_append]
  split_ifs <;> first | omega | (rw [← BitVec.getLsbD_eq_getElem]; congr 1; omega)

end

/-- A word is made of its fields. -/
theorem portWord_fields (w : Word) : portWord (opField w) (epField w) (flagField w) (handleField w) (valueField w) = w := by
  refine BitVec.eq_of_getLsbD_eq fun i hi => ?_
  simp only [portWord, opField, epField, flagField, handleField, valueField, BitVec.getLsbD_append,
    BitVec.getLsbD_extractLsb']
  split_ifs <;> (rw [decide_eq_true (by omega), Bool.true_and]; congr 1; omega)

/-! ## The fields of a setup word (30_encoding.md R64) -/

@[simp] theorem setupPktOf_setupWord (p : SetupPkt) : setupPktOf (setupWord p) = p := by
  rcases p with ⟨a, b, c, d, e⟩
  simp only [setupPktOf, setupWord, SetupPkt.mk.injEq]
  refine ⟨?_, ?_, ?_, ?_, ?_⟩ <;> ext i hi <;> simp only [BitVec.getElem_extractLsb', BitVec.getLsbD_append] <;>
    split_ifs <;> first | omega | (rw [← BitVec.getLsbD_eq_getElem]; congr 1; omega)

@[simp] theorem setupWord_setupPktOf (w : Word) : setupWord (setupPktOf w) = w := by
  refine BitVec.eq_of_getLsbD_eq fun i hi => ?_
  simp only [setupWord, setupPktOf, BitVec.getLsbD_append, BitVec.getLsbD_extractLsb']
  split_ifs <;> (rw [decide_eq_true (by omega), Bool.true_and]; congr 1; omega)

/-! ## The rows of 30_encoding.md R68, by field -/

/-- A conjunction of concatenations, part by part. -/
theorem and_append {m n : Nat} (a c : BitVec m) (b d : BitVec n) : (a ++ b) &&& (c ++ d) = (a &&& c) ++ (b &&& d) := by
  ext i hi
  simp [BitVec.getElem_append]

/-- Equal concatenations have equal parts. -/
theorem append_inj {m n : Nat} {a c : BitVec m} {b d : BitVec n} : a ++ b = c ++ d ↔ a = c ∧ b = d := by
  refine ⟨fun h => ?_, fun h => by rw [h.1, h.2]⟩
  have high := congrArg (BitVec.extractLsb' n m) h
  have low := congrArg (BitVec.extractLsb' 0 n) h
  rw [extract_append_high, extract_append_high] at high
  rw [extract_append_low _ _ _ _ (by omega), extract_append_low _ _ _ _ (by omega)] at low
  exact ⟨high, by simpa using low⟩

/-- A masked comparison of setup words is one of their fields. -/
theorem setupWord_and_eq (p m q : SetupPkt) :
    setupWord p &&& setupWord m = setupWord q ↔
      p.bmRequestType &&& m.bmRequestType = q.bmRequestType ∧ p.bRequest &&& m.bRequest = q.bRequest ∧
        p.wValue &&& m.wValue = q.wValue ∧ p.wIndex &&& m.wIndex = q.wIndex ∧ p.wLength &&& m.wLength = q.wLength := by
  have key : ∀ (a a' a'' b b' b'' : BitVec 8) (u v w u' v' w' x y z : BitVec 16),
      (u ++ v ++ w ++ a ++ b : BitVec (16 + 16 + 16 + 8 + 8)) &&& (u' ++ v' ++ w' ++ a' ++ b') =
          (x ++ y ++ z ++ a'' ++ b'') ↔
        b &&& b' = b'' ∧ a &&& a' = a'' ∧ w &&& w' = z ∧ v &&& v' = y ∧ u &&& u' = x := by
    intros
    simp only [and_append, append_inj]
    tauto
  exact key ..

/-- A row whose mask covers `bmRequestType`, `bRequest` and `wValue` alone. -/
theorem takes_row (p : SetupPkt) (mn : String) (mt qt mr qr : BitVec 8) (mv qv : BitVec 16) :
    SetupRow.takes ⟨mn, setupWord ⟨qt, qr, qv, 0, 0⟩, setupWord ⟨mt, mr, mv, 0, 0⟩⟩ (setupWord p) =
      (p.bmRequestType &&& mt == qt && p.bRequest &&& mr == qr && p.wValue &&& mv == qv) := by
  rw [Bool.eq_iff_iff]
  simp only [SetupRow.takes, beq_iff_eq, setupWord_and_eq, Bool.and_eq_true]
  simp
  tauto

/-- Which row takes a packet first, said of its fields. -/
theorem setupRowIndex_setupWord (p : SetupPkt) :
    setupRowIndex (setupWord p) =
      let t := p.bmRequestType &&& 0x7F
      let r := p.bRequest
      let standard := p.bmRequestType &&& 0x60 == 0
      if t == 0 && r == 0 then 0 else if t == 2 && r == 0 then 1
      else if t == 2 && r == 1 && p.wValue == 0 then 2 else if t == 2 && r == 3 && p.wValue == 0 then 3
      else if t == 0 && r == 1 && p.wValue == 1 then 4 else if t == 0 && r == 3 && p.wValue == 1 then 5
      else if standard && r == 1 then 6 else if standard && r == 3 then 7
      else if t == 0 && r == 5 then 8 else if t == 0 && r == 8 then 9 else if t == 0 && r == 9 then 10
      else if t == 1 && r == 11 then 11 else 12 := by
  have rows : setupRows =
      [⟨"GET_STATUS.dev", setupWord ⟨0, 0, 0, 0, 0⟩, setupWord ⟨0x7F, 0xFF, 0, 0, 0⟩⟩,
       ⟨"GET_STATUS.ep", setupWord ⟨2, 0, 0, 0, 0⟩, setupWord ⟨0x7F, 0xFF, 0, 0, 0⟩⟩,
       ⟨"CLEAR_FEATURE.halt", setupWord ⟨2, 1, 0, 0, 0⟩, setupWord ⟨0x7F, 0xFF, 0xFFFF, 0, 0⟩⟩,
       ⟨"SET_FEATURE.halt", setupWord ⟨2, 3, 0, 0, 0⟩, setupWord ⟨0x7F, 0xFF, 0xFFFF, 0, 0⟩⟩,
       ⟨"CLEAR_FEATURE.rwk", setupWord ⟨0, 1, 1, 0, 0⟩, setupWord ⟨0x7F, 0xFF, 0xFFFF, 0, 0⟩⟩,
       ⟨"SET_FEATURE.rwk", setupWord ⟨0, 3, 1, 0, 0⟩, setupWord ⟨0x7F, 0xFF, 0xFFFF, 0, 0⟩⟩,
       ⟨"CLEAR_FEATURE.other", setupWord ⟨0, 1, 0, 0, 0⟩, setupWord ⟨0x60, 0xFF, 0, 0, 0⟩⟩,
       ⟨"SET_FEATURE.other", setupWord ⟨0, 3, 0, 0, 0⟩, setupWord ⟨0x60, 0xFF, 0, 0, 0⟩⟩,
       ⟨"SET_ADDRESS", setupWord ⟨0, 5, 0, 0, 0⟩, setupWord ⟨0x7F, 0xFF, 0, 0, 0⟩⟩,
       ⟨"GET_CONFIGURATION", setupWord ⟨0, 8, 0, 0, 0⟩, setupWord ⟨0x7F, 0xFF, 0, 0, 0⟩⟩,
       ⟨"SET_CONFIGURATION", setupWord ⟨0, 9, 0, 0, 0⟩, setupWord ⟨0x7F, 0xFF, 0, 0, 0⟩⟩,
       ⟨"SET_INTERFACE", setupWord ⟨1, 11, 0, 0, 0⟩, setupWord ⟨0x7F, 0xFF, 0, 0, 0⟩⟩,
       ⟨"FORWARD", setupWord ⟨0, 0, 0, 0, 0⟩, setupWord ⟨0, 0, 0, 0, 0⟩⟩] := by decide
  have f8 : ∀ x : BitVec 8, x &&& 0xFF = x := fun x => BitVec.and_allOnes
  have f16 : ∀ x : BitVec 16, x &&& 0xFFFF = x := fun x => BitVec.and_allOnes
  have z16 : ∀ x : BitVec 16, (x &&& 0 == 0) = true := fun x => by simp
  unfold setupRowIndex
  rw [rows]
  simp only [List.findIdx_cons, takes_row, f8, f16, z16, Bool.and_true, List.findIdx_nil, cond_eq_ite,
    apply_ite (· + 1)]
  simp

end Sys2Proof
end

