-- ==== Sys2Proof/Laws/Memory.lean ====
section
/-! SUPPORT. Client buffer memory: a byte read after a write, and the canonical form that every write keeps. -/

namespace Sys2Proof.Machine

/-- The canonical form of a list with a head. -/
theorem Memory.wf_cons {c : Host.Cell} {m : Memory} :
    Memory.wf (c :: m) = true ↔ c.2 ≠ Memory.unwritten ∧ (∀ x ∈ m, c.1 < x.1) ∧ Memory.wf m = true := by
  simp [Memory.wf, and_assoc]

/-- The entries of a written memory are the written one and old ones. -/
theorem Memory.mem_write {m : Memory} {a : Nat} {b : Byte} {x : Host.Cell} (h : x ∈ m.write a b) :
    x = (a, b) ∨ x ∈ m := by
  induction m with
  | nil => simp only [Memory.write] at h; split at h <;> simp_all
  | cons c m ih =>
    simp only [Memory.write] at h
    split at h
    · split at h <;> simp_all
    · split at h
      · split at h <;> simp_all
        rcases h with h | h <;> simp [h]
      · rcases List.mem_cons.mp h with h | h
        · simp [h]
        · rcases ih h with h | h <;> simp [h]

/-- Every write keeps the canonical form. -/
theorem Memory.write_wf {m : Memory} (a : Nat) (b : Byte) (h : Memory.wf m = true) : Memory.wf (m.write a b) = true := by
  induction m with
  | nil => simp only [Memory.write]; split <;> simp_all [Memory.wf]
  | cons c m ih =>
    obtain ⟨hc, hlt, hm⟩ := Memory.wf_cons.mp h
    simp only [Memory.write]
    split
    · split
      · exact h
      · refine Memory.wf_cons.mpr ⟨by assumption, ?_, h⟩
        intro x hx
        rcases List.mem_cons.mp hx with rfl | hx
        · assumption
        · exact lt_trans (by assumption) (hlt x hx)
    · split
      · split
        · exact hm
        · refine Memory.wf_cons.mpr ⟨by assumption, ?_, hm⟩
          intro x hx; simp only; rw [‹a = c.1›]; exact hlt x hx
      · refine Memory.wf_cons.mpr ⟨hc, ?_, ih hm⟩
        intro x hx
        rcases Memory.mem_write hx with rfl | hx
        · simp only; omega
        · exact hlt x hx

/-- Below every listed address a memory reads as unwritten. -/
theorem Memory.read_below {m : Memory} {a : Nat} (h : ∀ x ∈ m, a < x.1) : m.read a = Memory.unwritten := by
  induction m with
  | nil => rfl
  | cons c m ih =>
    have hc := h c (List.mem_cons_self ..)
    simp only [Memory.read]
    rw [if_neg (by omega)]
    exact ih fun x hx => h x (List.mem_cons_of_mem _ hx)

/-- A byte read at the address of a write is the byte written. -/
theorem Memory.read_write_self {m : Memory} (a : Nat) (b : Byte) (h : Memory.wf m = true) : (m.write a b).read a = b := by
  induction m with
  | nil => simp only [Memory.write]; split <;> simp_all [Memory.read]
  | cons c m ih =>
    obtain ⟨hc, hlt, hm⟩ := Memory.wf_cons.mp h
    simp only [Memory.write]
    split
    · split
      · rename_i hac hb
        rw [hb]
        exact Memory.read_below fun x hx => by
          rcases List.mem_cons.mp hx with rfl | hx
          · exact hac
          · exact lt_trans hac (hlt x hx)
      · simp [Memory.read]
    · split
      · rename_i hac
        split
        · rename_i hb
          rw [hb]
          exact Memory.read_below fun x hx => hac ▸ hlt x hx
        · simp [Memory.read]
      · rename_i hac
        simp only [Memory.read]
        rw [if_neg (fun h => hac h.symm)]
        exact ih hm

/-- A byte read at another address is as before. -/
theorem Memory.read_write_ne {m : Memory} {a a' : Nat} (b : Byte) (h : a' ≠ a) : (m.write a b).read a' = m.read a' := by
  induction m with
  | nil => simp only [Memory.write]; split <;> simp [Memory.read, Ne.symm h]
  | cons c m ih =>
    simp only [Memory.write]
    split
    · split
      · rfl
      · simp [Memory.read, Ne.symm h]
    · split
      · rename_i hac
        have hca : c.1 ≠ a' := by omega
        split <;> simp [Memory.read, hca, Ne.symm h]
      · simp only [Memory.read, ih]

/-- Two bytes of buffers, each at an offset of `LEN_BITS` bits, have one address only if they are the same byte. -/
theorem bufAddr_inj {h h' : Handle} {i i' : Nat} (hi : i < 2 ^ 32) (hi' : i' < 2 ^ 32) (e : bufAddr h i = bufAddr h' i') :
    h = h' ∧ i = i' := by
  simp only [bufAddr] at e
  have : h.toNat = h'.toNat := by omega
  exact ⟨BitVec.eq_of_toNat_eq this, by omega⟩

end Sys2Proof.Machine
end

