-- ==== Sys2Proof/Laws/State.lean ====
section
/-! SUPPORT. Each field of State after each named update, and each record after an update of something else: true by
unfolding once, so that no later proof unfolds a record update. -/

namespace Sys2Proof.Machine

variable (s : State)

/-! ### `setEp` -/

@[simp] theorem State.setEp_params (e : EpNum) (f : Ep → Ep) : (s.setEp e f).params = s.params := rfl
@[simp] theorem State.setEp_dev (e : EpNum) (f : Ep → Ep) : (s.setEp e f).dev = s.dev := rfl
@[simp] theorem State.setEp_eps (e : EpNum) (f : Ep → Ep) : (s.setEp e f).eps = s.eps.modify e.toNat f := rfl
@[simp] theorem State.setEp_reqs (e : EpNum) (f : Ep → Ep) : (s.setEp e f).reqs = s.reqs := rfl
@[simp] theorem State.setEp_plat (e : EpNum) (f : Ep → Ep) : (s.setEp e f).plat = s.plat := rfl
@[simp] theorem State.setEp_funcAddr (e : EpNum) (f : Ep → Ep) : (s.setEp e f).funcAddr = s.funcAddr := rfl
@[simp] theorem State.setEp_busEvt (e : EpNum) (f : Ep → Ep) : (s.setEp e f).busEvt = s.busEvt := rfl
@[simp] theorem State.setEp_epEvt (e : EpNum) (f : Ep → Ep) : (s.setEp e f).epEvt = s.epEvt := rfl
@[simp] theorem State.setEp_busEvtEn (e : EpNum) (f : Ep → Ep) : (s.setEp e f).busEvtEn = s.busEvtEn := rfl
@[simp] theorem State.setEp_epEvtEn (e : EpNum) (f : Ep → Ep) : (s.setEp e f).epEvtEn = s.epEvtEn := rfl
@[simp] theorem State.setEp_index (e : EpNum) (f : Ep → Ep) : (s.setEp e f).index = s.index := rfl
@[simp] theorem State.setEp_hw (e : EpNum) (f : Ep → Ep) : (s.setEp e f).hw = s.hw := rfl
@[simp] theorem State.setEp_ctlActive (e : EpNum) (f : Ep → Ep) : (s.setEp e f).ctlActive = s.ctlActive := rfl
@[simp] theorem State.setEp_tx (e : EpNum) (f : Ep → Ep) : (s.setEp e f).tx = s.tx := rfl
@[simp] theorem State.setEp_doneLog (e : EpNum) (f : Ep → Ep) : (s.setEp e f).doneLog = s.doneLog := rfl
@[simp] theorem State.setEp_cbLog (e : EpNum) (f : Ep → Ep) : (s.setEp e f).cbLog = s.cbLog := rfl
@[simp] theorem State.setEp_mem (e : EpNum) (f : Ep → Ep) : (s.setEp e f).mem = s.mem := rfl
@[simp] theorem State.setEp_stack (e : EpNum) (f : Ep → Ep) : (s.setEp e f).stack = s.stack := rfl
@[simp] theorem State.setEp_input (e : EpNum) (f : Ep → Ep) : (s.setEp e f).input = s.input := rfl
@[simp] theorem State.setEp_race (e : EpNum) (f : Ep → Ep) : (s.setEp e f).race = s.race := rfl
@[simp] theorem State.setEp_cmdResult (e : EpNum) (f : Ep → Ep) : (s.setEp e f).cmdResult = s.cmdResult := rfl
@[simp] theorem State.setEp_busResult (e : EpNum) (f : Ep → Ep) : (s.setEp e f).busResult = s.busResult := rfl
@[simp] theorem State.setEp_cbResult (e : EpNum) (f : Ep → Ep) : (s.setEp e f).cbResult = s.cbResult := rfl
@[simp] theorem State.setEp_freeCount (e : EpNum) (f : Ep → Ep) : (s.setEp e f).freeCount = s.freeCount := rfl
@[simp] theorem State.setEp_reqAt (e : EpNum) (f : Ep → Ep) (h' : Handle) : (s.setEp e f).reqAt h' = s.reqAt h' := rfl
@[simp] theorem State.setEp_hwAt (e : EpNum) (f : Ep → Ep) (e' : EpNum) : (s.setEp e f).hwAt e' = s.hwAt e' := rfl
@[simp] theorem State.setEp_csrAt (e : EpNum) (f : Ep → Ep) (e' : EpNum) : (s.setEp e f).csrAt e' = s.csrAt e' := rfl
@[simp] theorem State.setEp_validEp (e : EpNum) (f : Ep → Ep) (e' : EpNum) :
    (s.setEp e f).validEp e' = s.validEp e' := rfl

/-! ### `setReq` -/

@[simp] theorem State.setReq_params (h : Handle) (f : Req → Req) : (s.setReq h f).params = s.params := rfl
@[simp] theorem State.setReq_dev (h : Handle) (f : Req → Req) : (s.setReq h f).dev = s.dev := rfl
@[simp] theorem State.setReq_eps (h : Handle) (f : Req → Req) : (s.setReq h f).eps = s.eps := rfl
@[simp] theorem State.setReq_reqs (h : Handle) (f : Req → Req) : (s.setReq h f).reqs = s.reqs.modify h.toNat f := rfl
@[simp] theorem State.setReq_plat (h : Handle) (f : Req → Req) : (s.setReq h f).plat = s.plat := rfl
@[simp] theorem State.setReq_funcAddr (h : Handle) (f : Req → Req) : (s.setReq h f).funcAddr = s.funcAddr := rfl
@[simp] theorem State.setReq_busEvt (h : Handle) (f : Req → Req) : (s.setReq h f).busEvt = s.busEvt := rfl
@[simp] theorem State.setReq_epEvt (h : Handle) (f : Req → Req) : (s.setReq h f).epEvt = s.epEvt := rfl
@[simp] theorem State.setReq_busEvtEn (h : Handle) (f : Req → Req) : (s.setReq h f).busEvtEn = s.busEvtEn := rfl
@[simp] theorem State.setReq_epEvtEn (h : Handle) (f : Req → Req) : (s.setReq h f).epEvtEn = s.epEvtEn := rfl
@[simp] theorem State.setReq_index (h : Handle) (f : Req → Req) : (s.setReq h f).index = s.index := rfl
@[simp] theorem State.setReq_hw (h : Handle) (f : Req → Req) : (s.setReq h f).hw = s.hw := rfl
@[simp] theorem State.setReq_ctlActive (h : Handle) (f : Req → Req) : (s.setReq h f).ctlActive = s.ctlActive := rfl
@[simp] theorem State.setReq_tx (h : Handle) (f : Req → Req) : (s.setReq h f).tx = s.tx := rfl
@[simp] theorem State.setReq_doneLog (h : Handle) (f : Req → Req) : (s.setReq h f).doneLog = s.doneLog := rfl
@[simp] theorem State.setReq_cbLog (h : Handle) (f : Req → Req) : (s.setReq h f).cbLog = s.cbLog := rfl
@[simp] theorem State.setReq_mem (h : Handle) (f : Req → Req) : (s.setReq h f).mem = s.mem := rfl
@[simp] theorem State.setReq_stack (h : Handle) (f : Req → Req) : (s.setReq h f).stack = s.stack := rfl
@[simp] theorem State.setReq_input (h : Handle) (f : Req → Req) : (s.setReq h f).input = s.input := rfl
@[simp] theorem State.setReq_race (h : Handle) (f : Req → Req) : (s.setReq h f).race = s.race := rfl
@[simp] theorem State.setReq_cmdResult (h : Handle) (f : Req → Req) : (s.setReq h f).cmdResult = s.cmdResult := rfl
@[simp] theorem State.setReq_busResult (h : Handle) (f : Req → Req) : (s.setReq h f).busResult = s.busResult := rfl
@[simp] theorem State.setReq_cbResult (h : Handle) (f : Req → Req) : (s.setReq h f).cbResult = s.cbResult := rfl
@[simp] theorem State.setReq_freeCount (h : Handle) (f : Req → Req) : (s.setReq h f).freeCount = s.freeCount := rfl
@[simp] theorem State.setReq_epAt (h : Handle) (f : Req → Req) (e' : EpNum) : (s.setReq h f).epAt e' = s.epAt e' := rfl
@[simp] theorem State.setReq_hwAt (h : Handle) (f : Req → Req) (e' : EpNum) : (s.setReq h f).hwAt e' = s.hwAt e' := rfl
@[simp] theorem State.setReq_csrAt (h : Handle) (f : Req → Req) (e' : EpNum) :
    (s.setReq h f).csrAt e' = s.csrAt e' := rfl
@[simp] theorem State.setReq_head (h : Handle) (f : Req → Req) (e' : EpNum) : (s.setReq h f).head e' = s.head e' := rfl
@[simp] theorem State.setReq_validEp (h : Handle) (f : Req → Req) (e' : EpNum) :
    (s.setReq h f).validEp e' = s.validEp e' := rfl

/-! ### `setHw` -/

@[simp] theorem State.setHw_params (e : EpNum) (f : Hw → Hw) : (s.setHw e f).params = s.params := rfl
@[simp] theorem State.setHw_dev (e : EpNum) (f : Hw → Hw) : (s.setHw e f).dev = s.dev := rfl
@[simp] theorem State.setHw_eps (e : EpNum) (f : Hw → Hw) : (s.setHw e f).eps = s.eps := rfl
@[simp] theorem State.setHw_reqs (e : EpNum) (f : Hw → Hw) : (s.setHw e f).reqs = s.reqs := rfl
@[simp] theorem State.setHw_plat (e : EpNum) (f : Hw → Hw) : (s.setHw e f).plat = s.plat := rfl
@[simp] theorem State.setHw_funcAddr (e : EpNum) (f : Hw → Hw) : (s.setHw e f).funcAddr = s.funcAddr := rfl
@[simp] theorem State.setHw_busEvt (e : EpNum) (f : Hw → Hw) : (s.setHw e f).busEvt = s.busEvt := rfl
@[simp] theorem State.setHw_epEvt (e : EpNum) (f : Hw → Hw) : (s.setHw e f).epEvt = s.epEvt := rfl
@[simp] theorem State.setHw_busEvtEn (e : EpNum) (f : Hw → Hw) : (s.setHw e f).busEvtEn = s.busEvtEn := rfl
@[simp] theorem State.setHw_epEvtEn (e : EpNum) (f : Hw → Hw) : (s.setHw e f).epEvtEn = s.epEvtEn := rfl
@[simp] theorem State.setHw_index (e : EpNum) (f : Hw → Hw) : (s.setHw e f).index = s.index := rfl
@[simp] theorem State.setHw_hw (e : EpNum) (f : Hw → Hw) : (s.setHw e f).hw = s.hw.modify e.toNat f := rfl
@[simp] theorem State.setHw_ctlActive (e : EpNum) (f : Hw → Hw) : (s.setHw e f).ctlActive = s.ctlActive := rfl
@[simp] theorem State.setHw_tx (e : EpNum) (f : Hw → Hw) : (s.setHw e f).tx = s.tx := rfl
@[simp] theorem State.setHw_doneLog (e : EpNum) (f : Hw → Hw) : (s.setHw e f).doneLog = s.doneLog := rfl
@[simp] theorem State.setHw_cbLog (e : EpNum) (f : Hw → Hw) : (s.setHw e f).cbLog = s.cbLog := rfl
@[simp] theorem State.setHw_mem (e : EpNum) (f : Hw → Hw) : (s.setHw e f).mem = s.mem := rfl
@[simp] theorem State.setHw_stack (e : EpNum) (f : Hw → Hw) : (s.setHw e f).stack = s.stack := rfl
@[simp] theorem State.setHw_input (e : EpNum) (f : Hw → Hw) : (s.setHw e f).input = s.input := rfl
@[simp] theorem State.setHw_race (e : EpNum) (f : Hw → Hw) : (s.setHw e f).race = s.race := rfl
@[simp] theorem State.setHw_cmdResult (e : EpNum) (f : Hw → Hw) : (s.setHw e f).cmdResult = s.cmdResult := rfl
@[simp] theorem State.setHw_busResult (e : EpNum) (f : Hw → Hw) : (s.setHw e f).busResult = s.busResult := rfl
@[simp] theorem State.setHw_cbResult (e : EpNum) (f : Hw → Hw) : (s.setHw e f).cbResult = s.cbResult := rfl
@[simp] theorem State.setHw_freeCount (e : EpNum) (f : Hw → Hw) : (s.setHw e f).freeCount = s.freeCount := rfl
@[simp] theorem State.setHw_epAt (e : EpNum) (f : Hw → Hw) (e' : EpNum) : (s.setHw e f).epAt e' = s.epAt e' := rfl
@[simp] theorem State.setHw_reqAt (e : EpNum) (f : Hw → Hw) (h' : Handle) : (s.setHw e f).reqAt h' = s.reqAt h' := rfl
@[simp] theorem State.setHw_head (e : EpNum) (f : Hw → Hw) (e' : EpNum) : (s.setHw e f).head e' = s.head e' := rfl
@[simp] theorem State.setHw_validEp (e : EpNum) (f : Hw → Hw) (e' : EpNum) :
    (s.setHw e f).validEp e' = s.validEp e' := rfl

/-! ### `setDev` -/

@[simp] theorem State.setDev_params (f : Dev → Dev) : (s.setDev f).params = s.params := rfl
@[simp] theorem State.setDev_dev (f : Dev → Dev) : (s.setDev f).dev = f s.dev := rfl
@[simp] theorem State.setDev_eps (f : Dev → Dev) : (s.setDev f).eps = s.eps := rfl
@[simp] theorem State.setDev_reqs (f : Dev → Dev) : (s.setDev f).reqs = s.reqs := rfl
@[simp] theorem State.setDev_plat (f : Dev → Dev) : (s.setDev f).plat = s.plat := rfl
@[simp] theorem State.setDev_funcAddr (f : Dev → Dev) : (s.setDev f).funcAddr = s.funcAddr := rfl
@[simp] theorem State.setDev_busEvt (f : Dev → Dev) : (s.setDev f).busEvt = s.busEvt := rfl
@[simp] theorem State.setDev_epEvt (f : Dev → Dev) : (s.setDev f).epEvt = s.epEvt := rfl
@[simp] theorem State.setDev_busEvtEn (f : Dev → Dev) : (s.setDev f).busEvtEn = s.busEvtEn := rfl
@[simp] theorem State.setDev_epEvtEn (f : Dev → Dev) : (s.setDev f).epEvtEn = s.epEvtEn := rfl
@[simp] theorem State.setDev_index (f : Dev → Dev) : (s.setDev f).index = s.index := rfl
@[simp] theorem State.setDev_hw (f : Dev → Dev) : (s.setDev f).hw = s.hw := rfl
@[simp] theorem State.setDev_ctlActive (f : Dev → Dev) : (s.setDev f).ctlActive = s.ctlActive := rfl
@[simp] theorem State.setDev_tx (f : Dev → Dev) : (s.setDev f).tx = s.tx := rfl
@[simp] theorem State.setDev_doneLog (f : Dev → Dev) : (s.setDev f).doneLog = s.doneLog := rfl
@[simp] theorem State.setDev_cbLog (f : Dev → Dev) : (s.setDev f).cbLog = s.cbLog := rfl
@[simp] theorem State.setDev_mem (f : Dev → Dev) : (s.setDev f).mem = s.mem := rfl
@[simp] theorem State.setDev_stack (f : Dev → Dev) : (s.setDev f).stack = s.stack := rfl
@[simp] theorem State.setDev_input (f : Dev → Dev) : (s.setDev f).input = s.input := rfl
@[simp] theorem State.setDev_race (f : Dev → Dev) : (s.setDev f).race = s.race := rfl
@[simp] theorem State.setDev_cmdResult (f : Dev → Dev) : (s.setDev f).cmdResult = s.cmdResult := rfl
@[simp] theorem State.setDev_busResult (f : Dev → Dev) : (s.setDev f).busResult = s.busResult := rfl
@[simp] theorem State.setDev_cbResult (f : Dev → Dev) : (s.setDev f).cbResult = s.cbResult := rfl
@[simp] theorem State.setDev_freeCount (f : Dev → Dev) : (s.setDev f).freeCount = s.freeCount := rfl
@[simp] theorem State.setDev_epAt (f : Dev → Dev) (e' : EpNum) : (s.setDev f).epAt e' = s.epAt e' := rfl
@[simp] theorem State.setDev_reqAt (f : Dev → Dev) (h' : Handle) : (s.setDev f).reqAt h' = s.reqAt h' := rfl
@[simp] theorem State.setDev_hwAt (f : Dev → Dev) (e' : EpNum) : (s.setDev f).hwAt e' = s.hwAt e' := rfl
@[simp] theorem State.setDev_csrAt (f : Dev → Dev) (e' : EpNum) : (s.setDev f).csrAt e' = s.csrAt e' := rfl
@[simp] theorem State.setDev_head (f : Dev → Dev) (e' : EpNum) : (s.setDev f).head e' = s.head e' := rfl
@[simp] theorem State.setDev_validEp (f : Dev → Dev) (e' : EpNum) : (s.setDev f).validEp e' = s.validEp e' := rfl

/-! ### `setPlat` -/

@[simp] theorem State.setPlat_params (f : Plat → Plat) : (s.setPlat f).params = s.params := rfl
@[simp] theorem State.setPlat_dev (f : Plat → Plat) : (s.setPlat f).dev = s.dev := rfl
@[simp] theorem State.setPlat_eps (f : Plat → Plat) : (s.setPlat f).eps = s.eps := rfl
@[simp] theorem State.setPlat_reqs (f : Plat → Plat) : (s.setPlat f).reqs = s.reqs := rfl
@[simp] theorem State.setPlat_plat (f : Plat → Plat) : (s.setPlat f).plat = f s.plat := rfl
@[simp] theorem State.setPlat_funcAddr (f : Plat → Plat) : (s.setPlat f).funcAddr = s.funcAddr := rfl
@[simp] theorem State.setPlat_busEvt (f : Plat → Plat) : (s.setPlat f).busEvt = s.busEvt := rfl
@[simp] theorem State.setPlat_epEvt (f : Plat → Plat) : (s.setPlat f).epEvt = s.epEvt := rfl
@[simp] theorem State.setPlat_busEvtEn (f : Plat → Plat) : (s.setPlat f).busEvtEn = s.busEvtEn := rfl
@[simp] theorem State.setPlat_epEvtEn (f : Plat → Plat) : (s.setPlat f).epEvtEn = s.epEvtEn := rfl
@[simp] theorem State.setPlat_index (f : Plat → Plat) : (s.setPlat f).index = s.index := rfl
@[simp] theorem State.setPlat_hw (f : Plat → Plat) : (s.setPlat f).hw = s.hw := rfl
@[simp] theorem State.setPlat_ctlActive (f : Plat → Plat) : (s.setPlat f).ctlActive = s.ctlActive := rfl
@[simp] theorem State.setPlat_tx (f : Plat → Plat) : (s.setPlat f).tx = s.tx := rfl
@[simp] theorem State.setPlat_doneLog (f : Plat → Plat) : (s.setPlat f).doneLog = s.doneLog := rfl
@[simp] theorem State.setPlat_cbLog (f : Plat → Plat) : (s.setPlat f).cbLog = s.cbLog := rfl
@[simp] theorem State.setPlat_mem (f : Plat → Plat) : (s.setPlat f).mem = s.mem := rfl
@[simp] theorem State.setPlat_stack (f : Plat → Plat) : (s.setPlat f).stack = s.stack := rfl
@[simp] theorem State.setPlat_input (f : Plat → Plat) : (s.setPlat f).input = s.input := rfl
@[simp] theorem State.setPlat_race (f : Plat → Plat) : (s.setPlat f).race = s.race := rfl
@[simp] theorem State.setPlat_cmdResult (f : Plat → Plat) : (s.setPlat f).cmdResult = s.cmdResult := rfl
@[simp] theorem State.setPlat_busResult (f : Plat → Plat) : (s.setPlat f).busResult = s.busResult := rfl
@[simp] theorem State.setPlat_cbResult (f : Plat → Plat) : (s.setPlat f).cbResult = s.cbResult := rfl
@[simp] theorem State.setPlat_freeCount (f : Plat → Plat) : (s.setPlat f).freeCount = s.freeCount := rfl
@[simp] theorem State.setPlat_epAt (f : Plat → Plat) (e' : EpNum) : (s.setPlat f).epAt e' = s.epAt e' := rfl
@[simp] theorem State.setPlat_reqAt (f : Plat → Plat) (h' : Handle) : (s.setPlat f).reqAt h' = s.reqAt h' := rfl
@[simp] theorem State.setPlat_hwAt (f : Plat → Plat) (e' : EpNum) : (s.setPlat f).hwAt e' = s.hwAt e' := rfl
@[simp] theorem State.setPlat_csrAt (f : Plat → Plat) (e' : EpNum) : (s.setPlat f).csrAt e' = s.csrAt e' := rfl
@[simp] theorem State.setPlat_head (f : Plat → Plat) (e' : EpNum) : (s.setPlat f).head e' = s.head e' := rfl
@[simp] theorem State.setPlat_validEp (f : Plat → Plat) (e' : EpNum) : (s.setPlat f).validEp e' = s.validEp e' := rfl

/-! ### `setEp0State` -/

@[simp] theorem State.setEp0State_params (v : Ep0State) : (s.setEp0State v).params = s.params := rfl
@[simp] theorem State.setEp0State_dev (v : Ep0State) : (s.setEp0State v).dev = { s.dev with ep0state := v } := rfl
@[simp] theorem State.setEp0State_eps (v : Ep0State) : (s.setEp0State v).eps = s.eps := rfl
@[simp] theorem State.setEp0State_reqs (v : Ep0State) : (s.setEp0State v).reqs = s.reqs := rfl
@[simp] theorem State.setEp0State_plat (v : Ep0State) : (s.setEp0State v).plat = s.plat := rfl
@[simp] theorem State.setEp0State_funcAddr (v : Ep0State) : (s.setEp0State v).funcAddr = s.funcAddr := rfl
@[simp] theorem State.setEp0State_busEvt (v : Ep0State) : (s.setEp0State v).busEvt = s.busEvt := rfl
@[simp] theorem State.setEp0State_epEvt (v : Ep0State) : (s.setEp0State v).epEvt = s.epEvt := rfl
@[simp] theorem State.setEp0State_busEvtEn (v : Ep0State) : (s.setEp0State v).busEvtEn = s.busEvtEn := rfl
@[simp] theorem State.setEp0State_epEvtEn (v : Ep0State) : (s.setEp0State v).epEvtEn = s.epEvtEn := rfl
@[simp] theorem State.setEp0State_index (v : Ep0State) : (s.setEp0State v).index = s.index := rfl
@[simp] theorem State.setEp0State_hw (v : Ep0State) : (s.setEp0State v).hw = s.hw := rfl
@[simp] theorem State.setEp0State_ctlActive (v : Ep0State) : (s.setEp0State v).ctlActive = s.ctlActive := rfl
@[simp] theorem State.setEp0State_tx (v : Ep0State) : (s.setEp0State v).tx = s.tx := rfl
@[simp] theorem State.setEp0State_doneLog (v : Ep0State) : (s.setEp0State v).doneLog = s.doneLog := rfl
@[simp] theorem State.setEp0State_cbLog (v : Ep0State) : (s.setEp0State v).cbLog = s.cbLog := rfl
@[simp] theorem State.setEp0State_mem (v : Ep0State) : (s.setEp0State v).mem = s.mem := rfl
@[simp] theorem State.setEp0State_stack (v : Ep0State) : (s.setEp0State v).stack = s.stack := rfl
@[simp] theorem State.setEp0State_input (v : Ep0State) : (s.setEp0State v).input = s.input := rfl
@[simp] theorem State.setEp0State_race (v : Ep0State) : (s.setEp0State v).race = s.race := rfl
@[simp] theorem State.setEp0State_cmdResult (v : Ep0State) : (s.setEp0State v).cmdResult = s.cmdResult := rfl
@[simp] theorem State.setEp0State_busResult (v : Ep0State) : (s.setEp0State v).busResult = s.busResult := rfl
@[simp] theorem State.setEp0State_cbResult (v : Ep0State) : (s.setEp0State v).cbResult = s.cbResult := rfl
@[simp] theorem State.setEp0State_freeCount (v : Ep0State) : (s.setEp0State v).freeCount = s.freeCount := rfl
@[simp] theorem State.setEp0State_epAt (v : Ep0State) (e' : EpNum) : (s.setEp0State v).epAt e' = s.epAt e' := rfl
@[simp] theorem State.setEp0State_reqAt (v : Ep0State) (h' : Handle) : (s.setEp0State v).reqAt h' = s.reqAt h' := rfl
@[simp] theorem State.setEp0State_hwAt (v : Ep0State) (e' : EpNum) : (s.setEp0State v).hwAt e' = s.hwAt e' := rfl
@[simp] theorem State.setEp0State_csrAt (v : Ep0State) (e' : EpNum) : (s.setEp0State v).csrAt e' = s.csrAt e' := rfl
@[simp] theorem State.setEp0State_head (v : Ep0State) (e' : EpNum) : (s.setEp0State v).head e' = s.head e' := rfl
@[simp] theorem State.setEp0State_validEp (v : Ep0State) (e' : EpNum) :
    (s.setEp0State v).validEp e' = s.validEp e' := rfl

/-! ### `writeBuf` -/

@[simp] theorem State.writeBuf_params (h : Handle) (i : Nat) (b : Byte) : (s.writeBuf h i b).params = s.params := rfl
@[simp] theorem State.writeBuf_dev (h : Handle) (i : Nat) (b : Byte) : (s.writeBuf h i b).dev = s.dev := rfl
@[simp] theorem State.writeBuf_eps (h : Handle) (i : Nat) (b : Byte) : (s.writeBuf h i b).eps = s.eps := rfl
@[simp] theorem State.writeBuf_reqs (h : Handle) (i : Nat) (b : Byte) : (s.writeBuf h i b).reqs = s.reqs := rfl
@[simp] theorem State.writeBuf_plat (h : Handle) (i : Nat) (b : Byte) : (s.writeBuf h i b).plat = s.plat := rfl
@[simp] theorem State.writeBuf_funcAddr (h : Handle) (i : Nat) (b : Byte) : (s.writeBuf h i b).funcAddr = s.funcAddr := rfl
@[simp] theorem State.writeBuf_busEvt (h : Handle) (i : Nat) (b : Byte) : (s.writeBuf h i b).busEvt = s.busEvt := rfl
@[simp] theorem State.writeBuf_epEvt (h : Handle) (i : Nat) (b : Byte) : (s.writeBuf h i b).epEvt = s.epEvt := rfl
@[simp] theorem State.writeBuf_busEvtEn (h : Handle) (i : Nat) (b : Byte) : (s.writeBuf h i b).busEvtEn = s.busEvtEn := rfl
@[simp] theorem State.writeBuf_epEvtEn (h : Handle) (i : Nat) (b : Byte) : (s.writeBuf h i b).epEvtEn = s.epEvtEn := rfl
@[simp] theorem State.writeBuf_index (h : Handle) (i : Nat) (b : Byte) : (s.writeBuf h i b).index = s.index := rfl
@[simp] theorem State.writeBuf_hw (h : Handle) (i : Nat) (b : Byte) : (s.writeBuf h i b).hw = s.hw := rfl
@[simp] theorem State.writeBuf_ctlActive (h : Handle) (i : Nat) (b : Byte) : (s.writeBuf h i b).ctlActive = s.ctlActive := rfl
@[simp] theorem State.writeBuf_tx (h : Handle) (i : Nat) (b : Byte) : (s.writeBuf h i b).tx = s.tx := rfl
@[simp] theorem State.writeBuf_doneLog (h : Handle) (i : Nat) (b : Byte) : (s.writeBuf h i b).doneLog = s.doneLog := rfl
@[simp] theorem State.writeBuf_cbLog (h : Handle) (i : Nat) (b : Byte) : (s.writeBuf h i b).cbLog = s.cbLog := rfl
@[simp] theorem State.writeBuf_mem (h : Handle) (i : Nat) (b : Byte) : (s.writeBuf h i b).mem = s.mem.write (bufAddr h i) b := rfl
@[simp] theorem State.writeBuf_stack (h : Handle) (i : Nat) (b : Byte) : (s.writeBuf h i b).stack = s.stack := rfl
@[simp] theorem State.writeBuf_input (h : Handle) (i : Nat) (b : Byte) : (s.writeBuf h i b).input = s.input := rfl
@[simp] theorem State.writeBuf_race (h : Handle) (i : Nat) (b : Byte) : (s.writeBuf h i b).race = s.race := rfl
@[simp] theorem State.writeBuf_cmdResult (h : Handle) (i : Nat) (b : Byte) : (s.writeBuf h i b).cmdResult = s.cmdResult := rfl
@[simp] theorem State.writeBuf_busResult (h : Handle) (i : Nat) (b : Byte) : (s.writeBuf h i b).busResult = s.busResult := rfl
@[simp] theorem State.writeBuf_cbResult (h : Handle) (i : Nat) (b : Byte) : (s.writeBuf h i b).cbResult = s.cbResult := rfl
@[simp] theorem State.writeBuf_freeCount (h : Handle) (i : Nat) (b : Byte) : (s.writeBuf h i b).freeCount = s.freeCount := rfl
@[simp] theorem State.writeBuf_epAt (h : Handle) (i : Nat) (b : Byte) (e' : EpNum) :
    (s.writeBuf h i b).epAt e' = s.epAt e' := rfl
@[simp] theorem State.writeBuf_reqAt (h : Handle) (i : Nat) (b : Byte) (h' : Handle) :
    (s.writeBuf h i b).reqAt h' = s.reqAt h' := rfl
@[simp] theorem State.writeBuf_hwAt (h : Handle) (i : Nat) (b : Byte) (e' : EpNum) :
    (s.writeBuf h i b).hwAt e' = s.hwAt e' := rfl
@[simp] theorem State.writeBuf_csrAt (h : Handle) (i : Nat) (b : Byte) (e' : EpNum) :
    (s.writeBuf h i b).csrAt e' = s.csrAt e' := rfl
@[simp] theorem State.writeBuf_head (h : Handle) (i : Nat) (b : Byte) (e' : EpNum) :
    (s.writeBuf h i b).head e' = s.head e' := rfl
@[simp] theorem State.writeBuf_validEp (h : Handle) (i : Nat) (b : Byte) (e' : EpNum) :
    (s.writeBuf h i b).validEp e' = s.validEp e' := rfl

/-! ### `finish` -/

@[simp] theorem State.finish_params (v : Int) : (s.finish v).params = s.params := rfl
@[simp] theorem State.finish_dev (v : Int) : (s.finish v).dev = s.dev := rfl
@[simp] theorem State.finish_eps (v : Int) : (s.finish v).eps = s.eps := rfl
@[simp] theorem State.finish_reqs (v : Int) : (s.finish v).reqs = s.reqs := rfl
@[simp] theorem State.finish_plat (v : Int) : (s.finish v).plat = s.plat := rfl
@[simp] theorem State.finish_funcAddr (v : Int) : (s.finish v).funcAddr = s.funcAddr := rfl
@[simp] theorem State.finish_busEvt (v : Int) : (s.finish v).busEvt = s.busEvt := rfl
@[simp] theorem State.finish_epEvt (v : Int) : (s.finish v).epEvt = s.epEvt := rfl
@[simp] theorem State.finish_busEvtEn (v : Int) : (s.finish v).busEvtEn = s.busEvtEn := rfl
@[simp] theorem State.finish_epEvtEn (v : Int) : (s.finish v).epEvtEn = s.epEvtEn := rfl
@[simp] theorem State.finish_index (v : Int) : (s.finish v).index = s.index := rfl
@[simp] theorem State.finish_hw (v : Int) : (s.finish v).hw = s.hw := rfl
@[simp] theorem State.finish_ctlActive (v : Int) : (s.finish v).ctlActive = s.ctlActive := rfl
@[simp] theorem State.finish_tx (v : Int) : (s.finish v).tx = s.tx := rfl
@[simp] theorem State.finish_doneLog (v : Int) : (s.finish v).doneLog = s.doneLog := rfl
@[simp] theorem State.finish_cbLog (v : Int) : (s.finish v).cbLog = s.cbLog := rfl
@[simp] theorem State.finish_mem (v : Int) : (s.finish v).mem = s.mem := rfl
@[simp] theorem State.finish_stack (v : Int) : (s.finish v).stack = s.stack := rfl
@[simp] theorem State.finish_input (v : Int) : (s.finish v).input = s.input := rfl
@[simp] theorem State.finish_race (v : Int) : (s.finish v).race = s.race := rfl
@[simp] theorem State.finish_cmdResult (v : Int) : (s.finish v).cmdResult = v := rfl
@[simp] theorem State.finish_busResult (v : Int) : (s.finish v).busResult = s.busResult := rfl
@[simp] theorem State.finish_cbResult (v : Int) : (s.finish v).cbResult = s.cbResult := rfl
@[simp] theorem State.finish_freeCount (v : Int) : (s.finish v).freeCount = s.freeCount := rfl
@[simp] theorem State.finish_epAt (v : Int) (e' : EpNum) : (s.finish v).epAt e' = s.epAt e' := rfl
@[simp] theorem State.finish_reqAt (v : Int) (h' : Handle) : (s.finish v).reqAt h' = s.reqAt h' := rfl
@[simp] theorem State.finish_hwAt (v : Int) (e' : EpNum) : (s.finish v).hwAt e' = s.hwAt e' := rfl
@[simp] theorem State.finish_csrAt (v : Int) (e' : EpNum) : (s.finish v).csrAt e' = s.csrAt e' := rfl
@[simp] theorem State.finish_head (v : Int) (e' : EpNum) : (s.finish v).head e' = s.head e' := rfl
@[simp] theorem State.finish_validEp (v : Int) (e' : EpNum) : (s.finish v).validEp e' = s.validEp e' := rfl

/-! ### `logTx` -/

@[simp] theorem State.logTx_params (e : EpNum) (l : List Byte) : (s.logTx e l).params = s.params := rfl
@[simp] theorem State.logTx_dev (e : EpNum) (l : List Byte) : (s.logTx e l).dev = s.dev := rfl
@[simp] theorem State.logTx_eps (e : EpNum) (l : List Byte) : (s.logTx e l).eps = s.eps := rfl
@[simp] theorem State.logTx_reqs (e : EpNum) (l : List Byte) : (s.logTx e l).reqs = s.reqs := rfl
@[simp] theorem State.logTx_plat (e : EpNum) (l : List Byte) : (s.logTx e l).plat = s.plat := rfl
@[simp] theorem State.logTx_funcAddr (e : EpNum) (l : List Byte) : (s.logTx e l).funcAddr = s.funcAddr := rfl
@[simp] theorem State.logTx_busEvt (e : EpNum) (l : List Byte) : (s.logTx e l).busEvt = s.busEvt := rfl
@[simp] theorem State.logTx_epEvt (e : EpNum) (l : List Byte) : (s.logTx e l).epEvt = s.epEvt := rfl
@[simp] theorem State.logTx_busEvtEn (e : EpNum) (l : List Byte) : (s.logTx e l).busEvtEn = s.busEvtEn := rfl
@[simp] theorem State.logTx_epEvtEn (e : EpNum) (l : List Byte) : (s.logTx e l).epEvtEn = s.epEvtEn := rfl
@[simp] theorem State.logTx_index (e : EpNum) (l : List Byte) : (s.logTx e l).index = s.index := rfl
@[simp] theorem State.logTx_hw (e : EpNum) (l : List Byte) : (s.logTx e l).hw = s.hw := rfl
@[simp] theorem State.logTx_ctlActive (e : EpNum) (l : List Byte) : (s.logTx e l).ctlActive = s.ctlActive := rfl
@[simp] theorem State.logTx_tx (e : EpNum) (l : List Byte) : (s.logTx e l).tx = s.tx ++ [(e, l)] := rfl
@[simp] theorem State.logTx_doneLog (e : EpNum) (l : List Byte) : (s.logTx e l).doneLog = s.doneLog := rfl
@[simp] theorem State.logTx_cbLog (e : EpNum) (l : List Byte) : (s.logTx e l).cbLog = s.cbLog := rfl
@[simp] theorem State.logTx_mem (e : EpNum) (l : List Byte) : (s.logTx e l).mem = s.mem := rfl
@[simp] theorem State.logTx_stack (e : EpNum) (l : List Byte) : (s.logTx e l).stack = s.stack := rfl
@[simp] theorem State.logTx_input (e : EpNum) (l : List Byte) : (s.logTx e l).input = s.input := rfl
@[simp] theorem State.logTx_race (e : EpNum) (l : List Byte) : (s.logTx e l).race = s.race := rfl
@[simp] theorem State.logTx_cmdResult (e : EpNum) (l : List Byte) : (s.logTx e l).cmdResult = s.cmdResult := rfl
@[simp] theorem State.logTx_busResult (e : EpNum) (l : List Byte) : (s.logTx e l).busResult = s.busResult := rfl
@[simp] theorem State.logTx_cbResult (e : EpNum) (l : List Byte) : (s.logTx e l).cbResult = s.cbResult := rfl
@[simp] theorem State.logTx_freeCount (e : EpNum) (l : List Byte) : (s.logTx e l).freeCount = s.freeCount := rfl
@[simp] theorem State.logTx_epAt (e : EpNum) (l : List Byte) (e' : EpNum) : (s.logTx e l).epAt e' = s.epAt e' := rfl
@[simp] theorem State.logTx_reqAt (e : EpNum) (l : List Byte) (h' : Handle) : (s.logTx e l).reqAt h' = s.reqAt h' := rfl
@[simp] theorem State.logTx_hwAt (e : EpNum) (l : List Byte) (e' : EpNum) : (s.logTx e l).hwAt e' = s.hwAt e' := rfl
@[simp] theorem State.logTx_csrAt (e : EpNum) (l : List Byte) (e' : EpNum) : (s.logTx e l).csrAt e' = s.csrAt e' := rfl
@[simp] theorem State.logTx_head (e : EpNum) (l : List Byte) (e' : EpNum) : (s.logTx e l).head e' = s.head e' := rfl
@[simp] theorem State.logTx_validEp (e : EpNum) (l : List Byte) (e' : EpNum) :
    (s.logTx e l).validEp e' = s.validEp e' := rfl

/-! ### `logDone` -/

@[simp] theorem State.logDone_params (h : Handle) (st : Status) (n : BitVec 32) : (s.logDone h st n).params = s.params := rfl
@[simp] theorem State.logDone_dev (h : Handle) (st : Status) (n : BitVec 32) : (s.logDone h st n).dev = s.dev := rfl
@[simp] theorem State.logDone_eps (h : Handle) (st : Status) (n : BitVec 32) : (s.logDone h st n).eps = s.eps := rfl
@[simp] theorem State.logDone_reqs (h : Handle) (st : Status) (n : BitVec 32) : (s.logDone h st n).reqs = s.reqs := rfl
@[simp] theorem State.logDone_plat (h : Handle) (st : Status) (n : BitVec 32) : (s.logDone h st n).plat = s.plat := rfl
@[simp] theorem State.logDone_funcAddr (h : Handle) (st : Status) (n : BitVec 32) : (s.logDone h st n).funcAddr = s.funcAddr := rfl
@[simp] theorem State.logDone_busEvt (h : Handle) (st : Status) (n : BitVec 32) : (s.logDone h st n).busEvt = s.busEvt := rfl
@[simp] theorem State.logDone_epEvt (h : Handle) (st : Status) (n : BitVec 32) : (s.logDone h st n).epEvt = s.epEvt := rfl
@[simp] theorem State.logDone_busEvtEn (h : Handle) (st : Status) (n : BitVec 32) : (s.logDone h st n).busEvtEn = s.busEvtEn := rfl
@[simp] theorem State.logDone_epEvtEn (h : Handle) (st : Status) (n : BitVec 32) : (s.logDone h st n).epEvtEn = s.epEvtEn := rfl
@[simp] theorem State.logDone_index (h : Handle) (st : Status) (n : BitVec 32) : (s.logDone h st n).index = s.index := rfl
@[simp] theorem State.logDone_hw (h : Handle) (st : Status) (n : BitVec 32) : (s.logDone h st n).hw = s.hw := rfl
@[simp] theorem State.logDone_ctlActive (h : Handle) (st : Status) (n : BitVec 32) : (s.logDone h st n).ctlActive = s.ctlActive := rfl
@[simp] theorem State.logDone_tx (h : Handle) (st : Status) (n : BitVec 32) : (s.logDone h st n).tx = s.tx := rfl
@[simp] theorem State.logDone_doneLog (h : Handle) (st : Status) (n : BitVec 32) : (s.logDone h st n).doneLog = s.doneLog ++ [(h, st, n)] := rfl
@[simp] theorem State.logDone_cbLog (h : Handle) (st : Status) (n : BitVec 32) : (s.logDone h st n).cbLog = s.cbLog := rfl
@[simp] theorem State.logDone_mem (h : Handle) (st : Status) (n : BitVec 32) : (s.logDone h st n).mem = s.mem := rfl
@[simp] theorem State.logDone_stack (h : Handle) (st : Status) (n : BitVec 32) : (s.logDone h st n).stack = s.stack := rfl
@[simp] theorem State.logDone_input (h : Handle) (st : Status) (n : BitVec 32) : (s.logDone h st n).input = s.input := rfl
@[simp] theorem State.logDone_race (h : Handle) (st : Status) (n : BitVec 32) : (s.logDone h st n).race = s.race := rfl
@[simp] theorem State.logDone_cmdResult (h : Handle) (st : Status) (n : BitVec 32) : (s.logDone h st n).cmdResult = s.cmdResult := rfl
@[simp] theorem State.logDone_busResult (h : Handle) (st : Status) (n : BitVec 32) : (s.logDone h st n).busResult = s.busResult := rfl
@[simp] theorem State.logDone_cbResult (h : Handle) (st : Status) (n : BitVec 32) : (s.logDone h st n).cbResult = s.cbResult := rfl
@[simp] theorem State.logDone_freeCount (h : Handle) (st : Status) (n : BitVec 32) : (s.logDone h st n).freeCount = s.freeCount := rfl
@[simp] theorem State.logDone_epAt (h : Handle) (st : Status) (n : BitVec 32) (e' : EpNum) :
    (s.logDone h st n).epAt e' = s.epAt e' := rfl
@[simp] theorem State.logDone_reqAt (h : Handle) (st : Status) (n : BitVec 32) (h' : Handle) :
    (s.logDone h st n).reqAt h' = s.reqAt h' := rfl
@[simp] theorem State.logDone_hwAt (h : Handle) (st : Status) (n : BitVec 32) (e' : EpNum) :
    (s.logDone h st n).hwAt e' = s.hwAt e' := rfl
@[simp] theorem State.logDone_csrAt (h : Handle) (st : Status) (n : BitVec 32) (e' : EpNum) :
    (s.logDone h st n).csrAt e' = s.csrAt e' := rfl
@[simp] theorem State.logDone_head (h : Handle) (st : Status) (n : BitVec 32) (e' : EpNum) :
    (s.logDone h st n).head e' = s.head e' := rfl
@[simp] theorem State.logDone_validEp (h : Handle) (st : Status) (n : BitVec 32) (e' : EpNum) :
    (s.logDone h st n).validEp e' = s.validEp e' := rfl

/-! ### `logCb` -/

@[simp] theorem State.logCb_params (c : CbEntry) : (s.logCb c).params = s.params := rfl
@[simp] theorem State.logCb_dev (c : CbEntry) : (s.logCb c).dev = s.dev := rfl
@[simp] theorem State.logCb_eps (c : CbEntry) : (s.logCb c).eps = s.eps := rfl
@[simp] theorem State.logCb_reqs (c : CbEntry) : (s.logCb c).reqs = s.reqs := rfl
@[simp] theorem State.logCb_plat (c : CbEntry) : (s.logCb c).plat = s.plat := rfl
@[simp] theorem State.logCb_funcAddr (c : CbEntry) : (s.logCb c).funcAddr = s.funcAddr := rfl
@[simp] theorem State.logCb_busEvt (c : CbEntry) : (s.logCb c).busEvt = s.busEvt := rfl
@[simp] theorem State.logCb_epEvt (c : CbEntry) : (s.logCb c).epEvt = s.epEvt := rfl
@[simp] theorem State.logCb_busEvtEn (c : CbEntry) : (s.logCb c).busEvtEn = s.busEvtEn := rfl
@[simp] theorem State.logCb_epEvtEn (c : CbEntry) : (s.logCb c).epEvtEn = s.epEvtEn := rfl
@[simp] theorem State.logCb_index (c : CbEntry) : (s.logCb c).index = s.index := rfl
@[simp] theorem State.logCb_hw (c : CbEntry) : (s.logCb c).hw = s.hw := rfl
@[simp] theorem State.logCb_ctlActive (c : CbEntry) : (s.logCb c).ctlActive = s.ctlActive := rfl
@[simp] theorem State.logCb_tx (c : CbEntry) : (s.logCb c).tx = s.tx := rfl
@[simp] theorem State.logCb_doneLog (c : CbEntry) : (s.logCb c).doneLog = s.doneLog := rfl
@[simp] theorem State.logCb_cbLog (c : CbEntry) : (s.logCb c).cbLog = s.cbLog ++ [c] := rfl
@[simp] theorem State.logCb_mem (c : CbEntry) : (s.logCb c).mem = s.mem := rfl
@[simp] theorem State.logCb_stack (c : CbEntry) : (s.logCb c).stack = s.stack := rfl
@[simp] theorem State.logCb_input (c : CbEntry) : (s.logCb c).input = s.input := rfl
@[simp] theorem State.logCb_race (c : CbEntry) : (s.logCb c).race = s.race := rfl
@[simp] theorem State.logCb_cmdResult (c : CbEntry) : (s.logCb c).cmdResult = s.cmdResult := rfl
@[simp] theorem State.logCb_busResult (c : CbEntry) : (s.logCb c).busResult = s.busResult := rfl
@[simp] theorem State.logCb_cbResult (c : CbEntry) : (s.logCb c).cbResult = s.cbResult := rfl
@[simp] theorem State.logCb_freeCount (c : CbEntry) : (s.logCb c).freeCount = s.freeCount := rfl
@[simp] theorem State.logCb_epAt (c : CbEntry) (e' : EpNum) : (s.logCb c).epAt e' = s.epAt e' := rfl
@[simp] theorem State.logCb_reqAt (c : CbEntry) (h' : Handle) : (s.logCb c).reqAt h' = s.reqAt h' := rfl
@[simp] theorem State.logCb_hwAt (c : CbEntry) (e' : EpNum) : (s.logCb c).hwAt e' = s.hwAt e' := rfl
@[simp] theorem State.logCb_csrAt (c : CbEntry) (e' : EpNum) : (s.logCb c).csrAt e' = s.csrAt e' := rfl
@[simp] theorem State.logCb_head (c : CbEntry) (e' : EpNum) : (s.logCb c).head e' = s.head e' := rfl
@[simp] theorem State.logCb_validEp (c : CbEntry) (e' : EpNum) : (s.logCb c).validEp e' = s.validEp e' := rfl

/-! ### `push` -/

@[simp] theorem State.push_params (fs : List Frame) : (s.push fs).params = s.params := rfl
@[simp] theorem State.push_dev (fs : List Frame) : (s.push fs).dev = s.dev := rfl
@[simp] theorem State.push_eps (fs : List Frame) : (s.push fs).eps = s.eps := rfl
@[simp] theorem State.push_reqs (fs : List Frame) : (s.push fs).reqs = s.reqs := rfl
@[simp] theorem State.push_plat (fs : List Frame) : (s.push fs).plat = s.plat := rfl
@[simp] theorem State.push_funcAddr (fs : List Frame) : (s.push fs).funcAddr = s.funcAddr := rfl
@[simp] theorem State.push_busEvt (fs : List Frame) : (s.push fs).busEvt = s.busEvt := rfl
@[simp] theorem State.push_epEvt (fs : List Frame) : (s.push fs).epEvt = s.epEvt := rfl
@[simp] theorem State.push_busEvtEn (fs : List Frame) : (s.push fs).busEvtEn = s.busEvtEn := rfl
@[simp] theorem State.push_epEvtEn (fs : List Frame) : (s.push fs).epEvtEn = s.epEvtEn := rfl
@[simp] theorem State.push_index (fs : List Frame) : (s.push fs).index = s.index := rfl
@[simp] theorem State.push_hw (fs : List Frame) : (s.push fs).hw = s.hw := rfl
@[simp] theorem State.push_ctlActive (fs : List Frame) : (s.push fs).ctlActive = s.ctlActive := rfl
@[simp] theorem State.push_tx (fs : List Frame) : (s.push fs).tx = s.tx := rfl
@[simp] theorem State.push_doneLog (fs : List Frame) : (s.push fs).doneLog = s.doneLog := rfl
@[simp] theorem State.push_cbLog (fs : List Frame) : (s.push fs).cbLog = s.cbLog := rfl
@[simp] theorem State.push_mem (fs : List Frame) : (s.push fs).mem = s.mem := rfl
@[simp] theorem State.push_stack (fs : List Frame) : (s.push fs).stack = fs ++ s.stack := rfl
@[simp] theorem State.push_input (fs : List Frame) : (s.push fs).input = s.input := rfl
@[simp] theorem State.push_race (fs : List Frame) : (s.push fs).race = s.race := rfl
@[simp] theorem State.push_cmdResult (fs : List Frame) : (s.push fs).cmdResult = s.cmdResult := rfl
@[simp] theorem State.push_busResult (fs : List Frame) : (s.push fs).busResult = s.busResult := rfl
@[simp] theorem State.push_cbResult (fs : List Frame) : (s.push fs).cbResult = s.cbResult := rfl
@[simp] theorem State.push_freeCount (fs : List Frame) : (s.push fs).freeCount = s.freeCount := rfl
@[simp] theorem State.push_epAt (fs : List Frame) (e' : EpNum) : (s.push fs).epAt e' = s.epAt e' := rfl
@[simp] theorem State.push_reqAt (fs : List Frame) (h' : Handle) : (s.push fs).reqAt h' = s.reqAt h' := rfl
@[simp] theorem State.push_hwAt (fs : List Frame) (e' : EpNum) : (s.push fs).hwAt e' = s.hwAt e' := rfl
@[simp] theorem State.push_csrAt (fs : List Frame) (e' : EpNum) : (s.push fs).csrAt e' = s.csrAt e' := rfl
@[simp] theorem State.push_head (fs : List Frame) (e' : EpNum) : (s.push fs).head e' = s.head e' := rfl
@[simp] theorem State.push_validEp (fs : List Frame) (e' : EpNum) : (s.push fs).validEp e' = s.validEp e' := rfl

/-! ### `invoke` -/

@[simp] theorem State.invoke_params (c : Callback) : (s.invoke c).params = s.params := rfl
@[simp] theorem State.invoke_dev (c : Callback) : (s.invoke c).dev = s.dev := rfl
@[simp] theorem State.invoke_eps (c : Callback) : (s.invoke c).eps = s.eps := rfl
@[simp] theorem State.invoke_reqs (c : Callback) : (s.invoke c).reqs = s.reqs := rfl
@[simp] theorem State.invoke_plat (c : Callback) : (s.invoke c).plat = s.plat := rfl
@[simp] theorem State.invoke_funcAddr (c : Callback) : (s.invoke c).funcAddr = s.funcAddr := rfl
@[simp] theorem State.invoke_busEvt (c : Callback) : (s.invoke c).busEvt = s.busEvt := rfl
@[simp] theorem State.invoke_epEvt (c : Callback) : (s.invoke c).epEvt = s.epEvt := rfl
@[simp] theorem State.invoke_busEvtEn (c : Callback) : (s.invoke c).busEvtEn = s.busEvtEn := rfl
@[simp] theorem State.invoke_epEvtEn (c : Callback) : (s.invoke c).epEvtEn = s.epEvtEn := rfl
@[simp] theorem State.invoke_index (c : Callback) : (s.invoke c).index = s.index := rfl
@[simp] theorem State.invoke_hw (c : Callback) : (s.invoke c).hw = s.hw := rfl
@[simp] theorem State.invoke_ctlActive (c : Callback) : (s.invoke c).ctlActive = s.ctlActive := rfl
@[simp] theorem State.invoke_tx (c : Callback) : (s.invoke c).tx = s.tx := rfl
@[simp] theorem State.invoke_doneLog (c : Callback) : (s.invoke c).doneLog = s.doneLog := rfl
@[simp] theorem State.invoke_cbLog (c : Callback) : (s.invoke c).cbLog = s.cbLog ++ [.callback c] := rfl
@[simp] theorem State.invoke_mem (c : Callback) : (s.invoke c).mem = s.mem := rfl
@[simp] theorem State.invoke_stack (c : Callback) : (s.invoke c).stack = .callback c :: s.stack := rfl
@[simp] theorem State.invoke_input (c : Callback) : (s.invoke c).input = s.input := rfl
@[simp] theorem State.invoke_race (c : Callback) : (s.invoke c).race = s.race := rfl
@[simp] theorem State.invoke_cmdResult (c : Callback) : (s.invoke c).cmdResult = s.cmdResult := rfl
@[simp] theorem State.invoke_busResult (c : Callback) : (s.invoke c).busResult = s.busResult := rfl
@[simp] theorem State.invoke_cbResult (c : Callback) : (s.invoke c).cbResult = s.cbResult := rfl
@[simp] theorem State.invoke_freeCount (c : Callback) : (s.invoke c).freeCount = s.freeCount := rfl
@[simp] theorem State.invoke_epAt (c : Callback) (e' : EpNum) : (s.invoke c).epAt e' = s.epAt e' := rfl
@[simp] theorem State.invoke_reqAt (c : Callback) (h' : Handle) : (s.invoke c).reqAt h' = s.reqAt h' := rfl
@[simp] theorem State.invoke_hwAt (c : Callback) (e' : EpNum) : (s.invoke c).hwAt e' = s.hwAt e' := rfl
@[simp] theorem State.invoke_csrAt (c : Callback) (e' : EpNum) : (s.invoke c).csrAt e' = s.csrAt e' := rfl
@[simp] theorem State.invoke_head (c : Callback) (e' : EpNum) : (s.invoke c).head e' = s.head e' := rfl
@[simp] theorem State.invoke_validEp (c : Callback) (e' : EpNum) : (s.invoke c).validEp e' = s.validEp e' := rfl

end Sys2Proof.Machine
end

