-- ==== Sys2Proof/Laws/Records.lean ====
section
/-! SUPPORT. A record read after a write of a record, the bus agent's turn with nothing scheduled, and what one write of CSR
leaves alone. -/

namespace Sys2Proof.Machine

variable {s : State}

/-! ## A record after a write of one -/

theorem State.epAt_setEp_self {e : EpNum} {f : Ep → Ep} (h : e.toNat < s.eps.length) :
    (s.setEp e f).epAt e = f (s.epAt e) := by simp [State.epAt, h]

@[simp] theorem State.epAt_setEp_ne {e e' : EpNum} {f : Ep → Ep} (h : e' ≠ e) : (s.setEp e f).epAt e' = s.epAt e' := by
  have : e.toNat ≠ e'.toNat := fun hh => h (BitVec.eq_of_toNat_eq hh).symm
  simp [State.epAt, this]

theorem State.reqAt_setReq_self {h : Handle} {f : Req → Req} (hh : h.toNat < s.reqs.length) :
    (s.setReq h f).reqAt h = f (s.reqAt h) := by simp [State.reqAt, hh]

@[simp] theorem State.reqAt_setReq_ne {h h' : Handle} {f : Req → Req} (hh : h' ≠ h) :
    (s.setReq h f).reqAt h' = s.reqAt h' := by
  have : h.toNat ≠ h'.toNat := fun k => hh (BitVec.eq_of_toNat_eq k).symm
  simp [State.reqAt, this]

theorem State.hwAt_setHw_self {e : EpNum} {f : Hw → Hw} (h : e.toNat < s.hw.length) :
    (s.setHw e f).hwAt e = f (s.hwAt e) := by simp [State.hwAt, h]

@[simp] theorem State.hwAt_setHw_ne {e e' : EpNum} {f : Hw → Hw} (h : e' ≠ e) : (s.setHw e f).hwAt e' = s.hwAt e' := by
  have : e.toNat ≠ e'.toNat := fun hh => h (BitVec.eq_of_toNat_eq hh).symm
  simp [State.hwAt, this]

/-- Two changes of one endpoint's hardware are one. -/
theorem State.setHw_setHw (e : EpNum) (f g : Hw → Hw) : (s.setHw e f).setHw e g = s.setHw e (g ∘ f) := by
  simp [State.setHw, List.modify_modify_eq]

/-! ## The bus agent's turn -/

/-- With nothing scheduled the bus agent makes no move. -/
theorem State.turn_nil (h : s.race = []) : s.turn = s := by simp [State.turn, h]

theorem State.select_nil (e : EpNum) (h : s.race = []) : s.select e = { s with index := e } := by
  simp [State.select, State.turn, h]

theorem csrWrite_nil (e : EpNum) (u : CsrUpdate) (h : s.race = []) :
    csrWrite e u s = ({ s with index := e } : State).applyCsr e u := by simp [csrWrite, State.select_nil _ h]

/-! ## One write of CSR -/

/-- A CSR write changes the hardware of its endpoint and, re-raising, EP_EVT; nothing else. -/
theorem State.applyCsr_eq (e : EpNum) (u : CsrUpdate) :
    s.applyCsr e u =
      { s with
        hw := s.hw.modify e.toNat (Hw.csrWrite (e == 0) u)
        epEvt := if e == 0 && (s.hwAt 0).reraises u then s.epEvt ||| epBit 0 else s.epEvt } := by
  unfold State.applyCsr
  split <;> simp_all [State.setHw]

/-! ## Running what is pending -/

/-- With no work due, settling is nothing. -/
theorem settle_settled (h : s.settled = true) : settle s = .next s := by
  unfold settle
  unfold State.settled at h
  match hs : s.stack with
  | [] => simp [stackWeight, runPending]
  | f :: fs =>
    rw [hs] at h
    have hf : f.isCallback = true := h
    cases stackWeight (f :: fs) <;> simp [runPending, hs, hf]

@[simp] theorem runToEnd_next (t : State) : runToEnd (.next t) = settle t := rfl
@[simp] theorem runToEnd_refused (q : Refusal) : runToEnd (.refused q) = .refused q := rfl
@[simp] theorem runToEnd_fault (q : Fault) : runToEnd (.fault q) = .fault q := rfl
@[simp] theorem thenDo_next (t : State) (f : State → Res) : thenDo (.next t) f = f t := rfl
@[simp] theorem thenDo_refused (q : Refusal) (f : State → Res) : thenDo (.refused q) f = .refused q := rfl
@[simp] theorem thenDo_fault (q : Fault) (f : State → Res) : thenDo (.fault q) f = .fault q := rfl

/-- What answers next after `thenDo` came through a next state. -/
theorem thenDo_eq_next {r : Res} {f : State → Res} {t : State} (h : thenDo r f = .next t) :
    ∃ u, r = .next u ∧ f u = .next t := by
  cases r <;> simp_all [thenDo]

end Sys2Proof.Machine
end

