-- ==== Sys2Proof/Laws/Turn.lean ====
section
/-! SUPPORT. What a move of the bus agent, its turn, and the engine's register accesses leave alone. -/

namespace Sys2Proof.Machine

/-- A bus step changes the event registers, the hardware of the endpoints, CTL_ACTIVE, the transmit trace and its own result
field, and nothing else (45_bus_agent.md R180). -/
theorem act_frame (ev : BusEvent) (s : State) : ∃ b v h c x r, ev.act s =
    { s with busEvt := b, epEvt := v, hw := h, ctlActive := c, tx := x, busResult := r } := by
  unfold BusEvent.act
  split
  · exact ⟨s.busEvt, s.epEvt, s.hw, s.ctlActive, s.tx, _, rfl⟩
  · split
    · cases ev <;>
        simp only [BusEvent.effect, busReset, busSetup, busOut, busTake, busStall, busStatus, State.raiseEpEvt,
          State.setHw, State.logTx] <;>
        first
        | exact ⟨_, _, _, _, _, _, rfl⟩
        | (split <;> exact ⟨_, _, _, _, _, _, rfl⟩)
    · exact ⟨s.busEvt, s.epEvt, s.hw, s.ctlActive, s.tx, _, rfl⟩

theorem busAll_frame (evs : List BusEvent) (s : State) : ∃ b v h c x r, evs.foldl (fun t ev => ev.act t) s =
    { s with busEvt := b, epEvt := v, hw := h, ctlActive := c, tx := x, busResult := r } := by
  induction evs generalizing s with
  | nil => exact ⟨s.busEvt, s.epEvt, s.hw, s.ctlActive, s.tx, s.busResult, rfl⟩
  | cons ev evs ih =>
    obtain ⟨b, v, h, c, x, r, e⟩ := act_frame ev s
    obtain ⟨b', v', h', c', x', r', e'⟩ := ih (ev.act s)
    exact ⟨b', v', h', c', x', r', by rw [List.foldl_cons, e', e]⟩

/-- The bus agent's turn changes what its steps change, and uses up an entry of its schedule. -/
theorem turn_frame (s : State) : ∃ b v h c x r q, s.turn =
    { s with busEvt := b, epEvt := v, hw := h, ctlActive := c, tx := x, busResult := r, race := q } := by
  unfold State.turn
  split
  · exact ⟨s.busEvt, s.epEvt, s.hw, s.ctlActive, s.tx, s.busResult, s.race, rfl⟩
  · rename_i evs rest _
    obtain ⟨b, v, h, c, x, r, e⟩ := busAll_frame evs { s with race := rest }
    exact ⟨b, v, h, c, x, r, rest, e⟩

@[simp] theorem turn_params (s : State) : s.turn.params = s.params := by obtain ⟨_, _, _, _, _, _, _, e⟩ := turn_frame s; rw [e]
@[simp] theorem turn_dev (s : State) : s.turn.dev = s.dev := by obtain ⟨_, _, _, _, _, _, _, e⟩ := turn_frame s; rw [e]
@[simp] theorem turn_eps (s : State) : s.turn.eps = s.eps := by obtain ⟨_, _, _, _, _, _, _, e⟩ := turn_frame s; rw [e]
@[simp] theorem turn_reqs (s : State) : s.turn.reqs = s.reqs := by obtain ⟨_, _, _, _, _, _, _, e⟩ := turn_frame s; rw [e]
@[simp] theorem turn_plat (s : State) : s.turn.plat = s.plat := by obtain ⟨_, _, _, _, _, _, _, e⟩ := turn_frame s; rw [e]
@[simp] theorem turn_funcAddr (s : State) : s.turn.funcAddr = s.funcAddr := by obtain ⟨_, _, _, _, _, _, _, e⟩ := turn_frame s; rw [e]
@[simp] theorem turn_busEvtEn (s : State) : s.turn.busEvtEn = s.busEvtEn := by obtain ⟨_, _, _, _, _, _, _, e⟩ := turn_frame s; rw [e]
@[simp] theorem turn_epEvtEn (s : State) : s.turn.epEvtEn = s.epEvtEn := by obtain ⟨_, _, _, _, _, _, _, e⟩ := turn_frame s; rw [e]
@[simp] theorem turn_index (s : State) : s.turn.index = s.index := by obtain ⟨_, _, _, _, _, _, _, e⟩ := turn_frame s; rw [e]
@[simp] theorem turn_doneLog (s : State) : s.turn.doneLog = s.doneLog := by obtain ⟨_, _, _, _, _, _, _, e⟩ := turn_frame s; rw [e]
@[simp] theorem turn_cbLog (s : State) : s.turn.cbLog = s.cbLog := by obtain ⟨_, _, _, _, _, _, _, e⟩ := turn_frame s; rw [e]
@[simp] theorem turn_mem (s : State) : s.turn.mem = s.mem := by obtain ⟨_, _, _, _, _, _, _, e⟩ := turn_frame s; rw [e]
@[simp] theorem turn_stack (s : State) : s.turn.stack = s.stack := by obtain ⟨_, _, _, _, _, _, _, e⟩ := turn_frame s; rw [e]
@[simp] theorem turn_input (s : State) : s.turn.input = s.input := by obtain ⟨_, _, _, _, _, _, _, e⟩ := turn_frame s; rw [e]
@[simp] theorem turn_cmdResult (s : State) : s.turn.cmdResult = s.cmdResult := by obtain ⟨_, _, _, _, _, _, _, e⟩ := turn_frame s; rw [e]
@[simp] theorem turn_cbResult (s : State) : s.turn.cbResult = s.cbResult := by obtain ⟨_, _, _, _, _, _, _, e⟩ := turn_frame s; rw [e]
@[simp] theorem turn_freeCount (s : State) : s.turn.freeCount = s.freeCount := by obtain ⟨_, _, _, _, _, _, _, e⟩ := turn_frame s; rw [e]

@[simp] theorem turn_epAt (s : State) (e : EpNum) : s.turn.epAt e = s.epAt e := by simp [State.epAt]
@[simp] theorem turn_reqAt (s : State) (h : Handle) : s.turn.reqAt h = s.reqAt h := by simp [State.reqAt]
@[simp] theorem turn_head (s : State) (e : EpNum) : s.turn.head e = s.head e := by simp [State.head]
@[simp] theorem turn_validEp (s : State) (e : EpNum) : s.turn.validEp e = s.validEp e := by simp [State.validEp]

@[simp] theorem select_params (s : State) (e : EpNum) : (s.select e).params = s.params := by simp [State.select]
@[simp] theorem select_dev (s : State) (e : EpNum) : (s.select e).dev = s.dev := by simp [State.select]
@[simp] theorem select_eps (s : State) (e : EpNum) : (s.select e).eps = s.eps := by simp [State.select]
@[simp] theorem select_reqs (s : State) (e : EpNum) : (s.select e).reqs = s.reqs := by simp [State.select]
@[simp] theorem select_plat (s : State) (e : EpNum) : (s.select e).plat = s.plat := by simp [State.select]
@[simp] theorem select_funcAddr (s : State) (e : EpNum) : (s.select e).funcAddr = s.funcAddr := by simp [State.select]
@[simp] theorem select_busEvtEn (s : State) (e : EpNum) : (s.select e).busEvtEn = s.busEvtEn := by simp [State.select]
@[simp] theorem select_epEvtEn (s : State) (e : EpNum) : (s.select e).epEvtEn = s.epEvtEn := by simp [State.select]
@[simp] theorem select_index (s : State) (e : EpNum) : (s.select e).index = e := by simp [State.select]
@[simp] theorem select_doneLog (s : State) (e : EpNum) : (s.select e).doneLog = s.doneLog := by simp [State.select]
@[simp] theorem select_cbLog (s : State) (e : EpNum) : (s.select e).cbLog = s.cbLog := by simp [State.select]
@[simp] theorem select_mem (s : State) (e : EpNum) : (s.select e).mem = s.mem := by simp [State.select]
@[simp] theorem select_stack (s : State) (e : EpNum) : (s.select e).stack = s.stack := by simp [State.select]
@[simp] theorem select_input (s : State) (e : EpNum) : (s.select e).input = s.input := by simp [State.select]
@[simp] theorem select_cmdResult (s : State) (e : EpNum) : (s.select e).cmdResult = s.cmdResult := by simp [State.select]
@[simp] theorem select_cbResult (s : State) (e : EpNum) : (s.select e).cbResult = s.cbResult := by simp [State.select]
@[simp] theorem select_freeCount (s : State) (e : EpNum) : (s.select e).freeCount = s.freeCount := by simp [State.select]

@[simp] theorem select_epAt (s : State) (e e' : EpNum) : (s.select e).epAt e' = s.epAt e' := by simp [State.epAt]
@[simp] theorem select_reqAt (s : State) (e : EpNum) (h : Handle) : (s.select e).reqAt h = s.reqAt h := by simp [State.reqAt]
@[simp] theorem select_head (s : State) (e e' : EpNum) : (s.select e).head e' = s.head e' := by simp [State.head]

@[simp] theorem csrWrite_params (s : State) (e : EpNum) (u : CsrUpdate) : (csrWrite e u s).params = s.params := by
  simp [csrWrite, State.applyCsr_eq]
@[simp] theorem csrWrite_dev (s : State) (e : EpNum) (u : CsrUpdate) : (csrWrite e u s).dev = s.dev := by
  simp [csrWrite, State.applyCsr_eq]
@[simp] theorem csrWrite_eps (s : State) (e : EpNum) (u : CsrUpdate) : (csrWrite e u s).eps = s.eps := by
  simp [csrWrite, State.applyCsr_eq]
@[simp] theorem csrWrite_reqs (s : State) (e : EpNum) (u : CsrUpdate) : (csrWrite e u s).reqs = s.reqs := by
  simp [csrWrite, State.applyCsr_eq]
@[simp] theorem csrWrite_plat (s : State) (e : EpNum) (u : CsrUpdate) : (csrWrite e u s).plat = s.plat := by
  simp [csrWrite, State.applyCsr_eq]
@[simp] theorem csrWrite_funcAddr (s : State) (e : EpNum) (u : CsrUpdate) : (csrWrite e u s).funcAddr = s.funcAddr := by
  simp [csrWrite, State.applyCsr_eq]
@[simp] theorem csrWrite_busEvtEn (s : State) (e : EpNum) (u : CsrUpdate) : (csrWrite e u s).busEvtEn = s.busEvtEn := by
  simp [csrWrite, State.applyCsr_eq]
@[simp] theorem csrWrite_epEvtEn (s : State) (e : EpNum) (u : CsrUpdate) : (csrWrite e u s).epEvtEn = s.epEvtEn := by
  simp [csrWrite, State.applyCsr_eq]
@[simp] theorem csrWrite_index (s : State) (e : EpNum) (u : CsrUpdate) : (csrWrite e u s).index = e := by
  simp [csrWrite, State.applyCsr_eq]
@[simp] theorem csrWrite_doneLog (s : State) (e : EpNum) (u : CsrUpdate) : (csrWrite e u s).doneLog = s.doneLog := by
  simp [csrWrite, State.applyCsr_eq]
@[simp] theorem csrWrite_cbLog (s : State) (e : EpNum) (u : CsrUpdate) : (csrWrite e u s).cbLog = s.cbLog := by
  simp [csrWrite, State.applyCsr_eq]
@[simp] theorem csrWrite_mem (s : State) (e : EpNum) (u : CsrUpdate) : (csrWrite e u s).mem = s.mem := by
  simp [csrWrite, State.applyCsr_eq]
@[simp] theorem csrWrite_stack (s : State) (e : EpNum) (u : CsrUpdate) : (csrWrite e u s).stack = s.stack := by
  simp [csrWrite, State.applyCsr_eq]
@[simp] theorem csrWrite_input (s : State) (e : EpNum) (u : CsrUpdate) : (csrWrite e u s).input = s.input := by
  simp [csrWrite, State.applyCsr_eq]
@[simp] theorem csrWrite_cmdResult (s : State) (e : EpNum) (u : CsrUpdate) : (csrWrite e u s).cmdResult = s.cmdResult := by
  simp [csrWrite, State.applyCsr_eq]
@[simp] theorem csrWrite_cbResult (s : State) (e : EpNum) (u : CsrUpdate) : (csrWrite e u s).cbResult = s.cbResult := by
  simp [csrWrite, State.applyCsr_eq]
@[simp] theorem csrWrite_freeCount (s : State) (e : EpNum) (u : CsrUpdate) : (csrWrite e u s).freeCount = s.freeCount := by
  simp [csrWrite, State.applyCsr_eq]

@[simp] theorem csrWrite_epAt (s : State) (e e' : EpNum) (u : CsrUpdate) : (csrWrite e u s).epAt e' = s.epAt e' := by
  simp [State.epAt]
@[simp] theorem csrWrite_reqAt (s : State) (e : EpNum) (u : CsrUpdate) (h : Handle) :
    (csrWrite e u s).reqAt h = s.reqAt h := by simp [State.reqAt]

@[simp] theorem pullupWrite_stack (v : Bool) (s : State) : (pullupWrite v s).stack = s.stack := by simp [pullupWrite]
@[simp] theorem enabledClear_stack (e : EpNum) (s : State) : (enabledClear e s).stack = s.stack := by simp [enabledClear]

/-- With nothing scheduled the pull-up write writes the pull-up. -/
theorem pullupWrite_nil (v : Bool) {s : State} (h : s.race = []) : pullupWrite v s = s.setPlat ({ · with pullup := v }) := by
  rw [pullupWrite, State.turn_nil h]

/-- With nothing scheduled clearing `enabled` clears `enabled`. -/
theorem enabledClear_nil (e : EpNum) {s : State} (h : s.race = []) :
    enabledClear e s = s.setEp e ({ · with enabled := false }) := by
  rw [enabledClear, State.turn_nil h]

end Sys2Proof.Machine
end

