-- ==== Sys2Proof/Laws/Moves.lean ====
section
/-! SUPPORT. Everything a step can do, said once: a step that answers a next state is a sequence of the moves below, each with
the condition under which the rules make it. An invariant is kept by every step if every move keeps it. -/

namespace Sys2Proof.Machine

/-- One move of the block. -/
inductive Move : State → State → Prop
  | bus (s) (ev : BusEvent) : Move s (ev.act s)
  | outside (s) (r : List (List BusEvent)) (i : List Input) : Move s { s with race := r, input := i }
  | results (s) (a : Int) (b : BusResult) (c : Int) (n : Nat) :
      Move s { s with cmdResult := a, busResult := b, cbResult := c, freeCount := n }
  | index (s) (v : BitVec 4) : Move s { s with index := v }
  | address (s) (a : BitVec 7) : Move s { s with dev := { s.dev with address := a } }
  | funcAddr (s) (a : BitVec 7) : Move s { s with funcAddr := a }
  | busEvt (s) (v : BitVec 3) : Move s { s with busEvt := w1c s.busEvt v }
  | epEvt (s) (v : BitVec 8) : Move s { s with epEvt := w1c s.epEvt v }
  | busEvtEn (s) (v : BitVec 3) : Move s { s with busEvtEn := v }
  | epEvtEn (s) (v : BitVec 8) : Move s { s with epEvtEn := v &&& s.params.epMask }
  | maxp (s) (e : EpNum) (v : BitVec 11) (h : s.params.wf = true → v.toNat ≤ s.params.fifoSize e) :
      Move s (s.setHw e ({ · with maxp := v }))
  | csr (s) (e : EpNum) (u : CsrUpdate) : Move s (s.applyCsr e u)
  | push (s) (e : EpNum) (b : Byte) (h : (s.hwAt e).fifo.length < s.params.fifoSize e) :
      Move s (s.setHw e fun w => { w with fifo := w.fifo ++ [b] })
  | pop (s) (e : EpNum) (b : Byte) (rest : List Byte) (h : (s.hwAt e).fifo = b :: rest) :
      Move s (s.setHw e ({ · with fifo := rest }))
  | dev (s) (f : Dev → Dev) (ha : (f s.dev).address = s.dev.address)
      (hs : (f s.dev).ep0state = s.dev.ep0state ∨ (f s.dev).ep0state = .idle ∨ (f s.dev).ep0state = .inData ∨
        (f s.dev).ep0state = .outData) : Move s (s.setDev f)
  | plat (s) (f : Plat → Plat) (hu : (f s.plat).udcCommand = s.plat.udcCommand)
      (hv : (f s.plat).vbusDraw = s.plat.vbusDraw) : Move s (s.setPlat f)
  | descriptor (s) (e : EpNum) (f : Ep → Ep) (h0 : e ≠ 0) (hn : ∀ p, (f p).num = p.num) (hq : ∀ p, (f p).queue = p.queue)
      (hm : ∀ p, (f p).maxp = p.maxp ∨ (f p).maxp.toNat ≤ s.params.fifoSize e) : Move s (s.setEp e f)
  | ep0Maxp (s) : Move s (s.setEp 0 ({ · with maxp := s.params.ep0Maxp }))
  | enqueue (s) (e : EpNum) (h : Handle) (he : s.validEp e = true) (hr : s.validReq h = true)
      (hp : (s.reqAt h).status ≠ .inProgress) : Move s (enqueue e h s)
  | retire (s) (e : EpNum) (h : Handle) (k : Kind) (hq : h ∈ (s.epAt e).queue) : Move s (s.retire e h k)
  | transferred (s) (h : Handle) (n : BitVec 32)
      (hn : (s.reqAt h).transferred.toNat ≤ (s.reqAt h).length.toNat →
        (s.reqAt h).transferred.toNat ≤ n.toNat ∧ n.toNat ≤ (s.reqAt h).length.toNat) :
      Move s (s.setReq h ({ · with transferred := n }))
  | allocate (s) (h : Handle) (ha : s.freeHandle = some h) : Move s (s.setReq h fun _ => Req.allocatedFresh)
  | request (s) (h : Handle) (f : Req → Req) (hp : (s.reqAt h).status ≠ .inProgress)
      (hs : ∀ r, (f r).status = r.status) (he : ∀ r, (f r).ep = r.ep) : Move s (s.setReq h f)
  | writeBuf (s) (h : Handle) (i : Nat) (b : Byte) : Move s (s.writeBuf h i b)
  | logCb (s) (c : CbEntry) : Move s (s.logCb c)
  | stack (s) (fs : List Frame) (h : s.params.wf = true → s.FramesSound → ∀ f ∈ fs, f.dataOnly) :
      Move s { s with stack := fs }

/-- A sequence of moves. -/
abbrev Moves : State → State → Prop := Relation.ReflTransGen Move

/-- Every next state of a result is reached by moves. -/
def Reaches (s : State) (r : Res) : Prop := ∀ t, r = .next t → Moves s t

theorem Move.moves {s t : State} (h : Move s t) : Moves s t := Relation.ReflTransGen.single h

theorem Reaches.next {s t : State} (h : Moves s t) : Reaches s (.next t) := by
  intro u hu; cases hu; exact h

theorem Reaches.refused {s : State} {q : Refusal} : Reaches s (.refused q) := by
  intro u hu; cases hu

theorem Reaches.fault {s : State} {q : Fault} : Reaches s (.fault q) := by
  intro u hu; cases hu

theorem Reaches.after {s t : State} {r : Res} (h : Moves s t) (k : Reaches t r) : Reaches s r :=
  fun u hu => h.trans (k u hu)

theorem Reaches.thenDo {s : State} {r : Res} {f : State → Res} (h : Reaches s r) (k : ∀ t, r = .next t → Reaches t (f t)) :
    Reaches s (thenDo r f) := by
  intro u hu
  obtain ⟨t, ht, hf⟩ := thenDo_eq_next hu
  exact (h t ht).trans (k t ht u hf)

/-! ## The shared operations -/

theorem moves_busAll (evs : List BusEvent) (s : State) : Moves s (evs.foldl (fun t ev => ev.act t) s) := by
  induction evs generalizing s with
  | nil => exact .refl
  | cons ev evs ih => exact (Move.bus s ev).moves.trans (ih _)

theorem moves_turn (s : State) : Moves s s.turn := by
  unfold State.turn
  split
  · exact .refl
  · exact (Move.outside s _ s.input).moves.trans (moves_busAll _ _)

theorem moves_index (v : BitVec 4) {s t : State} (h : Moves s t) : Moves s { t with index := v } :=
  h.trans (Move.index t v).moves

theorem moves_select (e : EpNum) (s : State) : Moves s (s.select e) :=
  (moves_index e (moves_turn s)).trans (moves_turn _)

theorem moves_csrWrite (e : EpNum) (u : CsrUpdate) (s : State) : Moves s (csrWrite e u s) :=
  (moves_select e s).trans (Move.csr _ e u).moves

end Sys2Proof.Machine
end

