-- ==== Sys2Proof/Laws/Steps.lean ====
section
/-! SUPPORT. Each operation of the block is a sequence of moves, and so is every step. -/

namespace Sys2Proof.Machine

variable {s t : State}

/-! ## Register accesses -/

theorem moves_turned {s : State} : Moves s s.turn := moves_turn s

theorem moves_funcAddrWrite (v : BitVec 7) (s : State) : Moves s (funcAddrWrite v s) :=
  (moves_turn s).trans (Move.funcAddr _ v).moves

theorem moves_maxpWrite (e : EpNum) (v : BitVec 11) (s : State) (h : s.params.wf = true → v.toNat ≤ s.params.fifoSize e) :
    Moves s (maxpWrite e v s) :=
  (moves_select e s).trans (Move.maxp _ e v (by simpa using h)).moves

theorem moves_indexWrite (v : BitVec 4) (s : State) : Moves s (indexWrite v s) := moves_index v (moves_turn s)

theorem moves_busEvtWrite (v : BitVec 3) (s : State) : Moves s (busEvtWrite v s) :=
  (moves_turn s).trans (Move.busEvt _ v).moves

theorem moves_epEvtWrite (v : BitVec 8) (s : State) : Moves s (epEvtWrite v s) :=
  (moves_turn s).trans (Move.epEvt _ v).moves

theorem moves_busEvtEnWrite (v : BitVec 3) (s : State) : Moves s (busEvtEnWrite v s) :=
  (moves_turn s).trans (Move.busEvtEn _ v).moves

theorem moves_epEvtEnWrite (v : BitVec 8) (s : State) : Moves s (epEvtEnWrite v s) := by
  simpa only [epEvtEnWrite, turn_params] using (moves_turn s).trans (Move.epEvtEn s.turn v).moves

theorem moves_epEvtEnModify (f : BitVec 8 → BitVec 8) (s : State) : Moves s (epEvtEnModify f s) :=
  (moves_turn s).trans (moves_epEvtEnWrite _ _)

theorem reaches_fifoPush (e : EpNum) (b : Byte) (s : State) : Reaches s (fifoPush e b s) := by
  unfold fifoPush
  simp only
  split
  · exact .next ((moves_turn s).trans (Move.push _ e b (by assumption)).moves)
  · exact .refused

theorem reaches_fifoPushAll (e : EpNum) (bs : List Byte) (s : State) : Reaches s (fifoPushAll e bs s) := by
  induction bs generalizing s with
  | nil => exact .next .refl
  | cons b bs ih => exact .thenDo (reaches_fifoPush e b s) fun t _ => ih t

theorem moves_takeFree (s : State) : Moves s s.takeFree.2 := (Move.results s _ _ _ _).moves

theorem moves_fifoPop (e : EpNum) (s : State) : Moves s (fifoPop e s).2 := by
  unfold fifoPop
  simp only
  split
  · exact (moves_turn s).trans (moves_takeFree _)
  · exact (moves_turn s).trans (Move.pop _ e _ _ (by assumption)).moves

theorem moves_fifoPopAll (e : EpNum) (n : Nat) (s : State) : Moves s (fifoPopAll e n s).2 := by
  induction n generalizing s with
  | zero => exact .refl
  | succ n ih => exact (moves_fifoPop e s).trans (ih _)

theorem moves_drainInto (e : EpNum) (h : Handle) (i n : Nat) (s : State) : Moves s (drainInto e h i n s) := by
  induction n generalizing i s with
  | zero => exact .refl
  | succ n ih => exact ((moves_fifoPop e s).trans (Move.writeBuf _ _ _ _).moves).trans (ih _ _)

/-! ## Updates of the records and the traces -/

theorem moves_dev (f : Dev → Dev) (s : State) (ha : (f s.dev).address = s.dev.address)
    (hs : (f s.dev).ep0state = s.dev.ep0state ∨ (f s.dev).ep0state = .idle ∨ (f s.dev).ep0state = .inData ∨
      (f s.dev).ep0state = .outData) : Moves s (s.setDev f) := (Move.dev s f ha hs).moves

theorem moves_idle (s : State) : Moves s (s.setEp0State .idle) := (Move.dev s _ rfl (.inr (.inl rfl))).moves

theorem moves_finish (v : Int) (s : State) : Moves s (s.finish v) :=
  (Move.results s v s.busResult s.cbResult s.freeCount).moves

theorem moves_push (fs : List Frame) (s : State) (h : s.params.wf = true → ∀ f ∈ fs, f.dataOnly) : Moves s (s.push fs) :=
  (Move.stack s (fs ++ s.stack) fun hw hs f hf => (List.mem_append.mp hf).elim (h hw f) (hs f)).moves

theorem moves_push1 (f : Frame) (s : State) (h : s.params.wf = true → f.dataOnly) : Moves s (s.push [f]) :=
  moves_push [f] s fun hw g hg => by rw [List.mem_singleton.mp hg]; exact h hw

theorem moves_invoke (c : Callback) (s : State) : Moves s (s.invoke c) :=
  (Move.logCb s _).moves.trans (moves_push1 _ _ fun _ => trivial)

theorem moves_pushOp (o : IntOp) (s : State) : Moves s (s.push [.op o]) := moves_push1 _ _ fun _ => trivial

/-! ## The shared operations -/

theorem reaches_raise (k : Kind) (s : State) : Reaches s (s.raise k) := .next (moves_finish _ _)
theorem reaches_returns (v : Int) (s : State) : Reaches s (s.returns v) := .next (moves_finish _ _)

theorem moves_markReady (e : EpNum) (last : Bool) (s : State) : Moves s (markReady e last s) := by
  unfold markReady
  split
  · simp only
    split <;> exact (moves_turn s).trans (moves_csrWrite _ _ _)
  · exact moves_csrWrite _ _ _

theorem moves_complete (e : EpNum) (h : Handle) (k : Kind) (s : State) (hq : h ∈ (s.epAt e).queue) :
    Moves s (complete e h k s) := by
  unfold complete
  simp only
  split
  · exact (Move.retire s e h k hq).moves.trans (moves_invoke _ _)
  · exact (Move.retire s e h k hq).moves

theorem moves_nukeFrom (e : EpNum) (k : Kind) (hs : List Handle) (s : State) : Moves s (nukeFrom e k hs s) := by
  induction hs generalizing s with
  | nil => exact .refl
  | cons h hs ih =>
    unfold nukeFrom
    split
    · split
      · exact (moves_push1 (.nukeRest e k hs) _ fun _ => trivial).trans (moves_complete _ _ _ _ (by simpa using ‹h ∈ _›))
      · exact (moves_complete _ _ _ _ (by assumption)).trans (ih _)
    · exact ih s

theorem moves_nuke (e : EpNum) (k : Kind) (s : State) : Moves s (nuke e k s) := moves_nukeFrom _ _ _ _

theorem moves_ep0Stall (s : State) : Moves s (ep0Stall s) := (moves_csrWrite _ _ _).trans (moves_idle _)

theorem moves_ep0Ack (s : State) : Moves s (ep0Ack s) := moves_csrWrite _ _ _

theorem reaches_ep0Reply (bs : List Byte) (s : State) : Reaches s (ep0Reply bs s) :=
  .after (moves_csrWrite 0 _ s) (.thenDo (reaches_fifoPushAll _ _ _) fun _ _ => .next (moves_markReady _ _ _))

theorem moves_haltHw (e : EpNum) (v : Bool) (s : State) (h : e ≠ 0) : Moves s (haltHw e v s) := by
  unfold haltHw
  exact .trans (moves_csrWrite _ _ _)
    (Move.descriptor _ e ({ · with halted := v }) h (fun _ => rfl) (fun _ => rfl) (fun _ => .inl rfl)).moves

/-! ## The FIFO engine -/

/-- Pushing a packet's bytes leaves the records alone. -/
theorem fifoPushAll_records (e : EpNum) (bs : List Byte) (h : fifoPushAll e bs s = .next t) :
    t.params = s.params ∧ t.eps = s.eps ∧ t.reqs = s.reqs := by
  induction bs generalizing s with
  | nil => cases h; exact ⟨rfl, rfl, rfl⟩
  | cons b bs ih =>
    obtain ⟨u, hu, hr⟩ := thenDo_eq_next h
    unfold fifoPush at hu
    simp only at hu
    split at hu
    · cases hu
      obtain ⟨h1, h2, h3⟩ := ih hr
      exact ⟨by simpa using h1, by simpa using h2, by simpa using h3⟩
    · cases hu

/-- The new count of a request stays between the old one and its length. -/
theorem transferred_bounds {r : Req} {n : Nat} (hn : n ≤ r.length.toNat - r.transferred.toNat)
    (h : r.transferred.toNat ≤ r.length.toNat) :
    r.transferred.toNat ≤ (BitVec.ofNat 32 (r.transferred.toNat + n)).toNat ∧
      (BitVec.ofNat 32 (r.transferred.toNat + n)).toNat ≤ r.length.toNat := by
  have := r.length.isLt
  rw [BitVec.toNat_ofNat, Nat.mod_eq_of_lt (by omega)]
  omega

@[simp] theorem markReady_eps (e : EpNum) (last : Bool) (s : State) : (markReady e last s).eps = s.eps := by
  unfold markReady
  split
  · simp only; split <;> simp
  · simp

theorem markReady_epAt (e e' : EpNum) (last : Bool) (s : State) : (markReady e last s).epAt e' = s.epAt e' := by
  simp [State.epAt]

theorem moves_wrfifoFinish (e : EpNum) (h : Handle) (n : Nat) (s : State) (hq : h ∈ (s.epAt e).queue)
    (hn : n ≤ (s.reqAt h).length.toNat - (s.reqAt h).transferred.toNat) : Moves s (wrfifoFinish e h n s) := by
  unfold wrfifoFinish
  simp only
  have hm := fun last => (Move.transferred s h _ (transferred_bounds hn)).moves.trans (moves_markReady e last _)
  split
  · split
    · exact .trans (.trans (hm _) (moves_idle _)) (moves_complete _ _ _ _ (by simpa [markReady_epAt] using hq))
    · exact .trans (hm _) (moves_complete _ _ _ _ (by simpa [markReady_epAt] using hq))
  · exact hm _

/-- The head of a queue is in it. -/
theorem head_mem {e : EpNum} {h : Handle} (hh : s.head e = some h) : h ∈ (s.epAt e).queue := List.mem_of_head? hh

theorem reaches_wrfifo (e : EpNum) (s : State) : Reaches s (wrfifoBody e s) := by
  unfold wrfifoBody
  split
  · exact .refused
  · rename_i h hh
    split
    · refine .thenDo (reaches_fifoPushAll _ _ _) fun t ht => .next ?_
      obtain ⟨_, he, hr⟩ := fifoPushAll_records _ _ ht
      refine moves_wrfifoFinish e h _ t ?_ ?_
      · simpa [State.epAt, he] using head_mem hh
      · simp only [wrfifoCount, State.reqAt, hr]; omega
    · exact .refused

/-- Draining a FIFO leaves the records alone. -/
theorem drainInto_records (e : EpNum) (h : Handle) (i n : Nat) (s : State) :
    (drainInto e h i n s).params = s.params ∧ (drainInto e h i n s).eps = s.eps ∧
      (drainInto e h i n s).reqs = s.reqs := by
  induction n generalizing i s with
  | zero => exact ⟨rfl, rfl, rfl⟩
  | succ n ih =>
    obtain ⟨h1, h2, h3⟩ := ih (i + 1) ((fifoPop e s).2.writeBuf h i (fifoPop e s).1)
    have hp : (fifoPop e s).2.params = s.params ∧ (fifoPop e s).2.eps = s.eps ∧ (fifoPop e s).2.reqs = s.reqs := by
      unfold fifoPop State.takeFree
      simp only
      split <;> simp
    exact ⟨h1.trans (by simpa using hp.1), h2.trans (by simpa using hp.2.1), h3.trans (by simpa using hp.2.2)⟩

theorem moves_rdfifoFinish (e : EpNum) (h : Handle) (cnt n : Nat) (s : State) (hq : h ∈ (s.epAt e).queue)
    (hn : n ≤ (s.reqAt h).length.toNat - (s.reqAt h).transferred.toNat) : Moves s (rdfifoFinish e h cnt n s) := by
  unfold rdfifoFinish
  simp only
  have hm := (Move.transferred s h _ (transferred_bounds hn)).moves
  have hv : h ∈ ((s.setReq h ({ · with transferred := BitVec.ofNat 32 ((s.reqAt h).transferred.toNat + n) })).epAt e).queue :=
    hq
  generalize s.setReq h _ = v at hm hv ⊢
  generalize rdfifoFinishes .. = finished
  have hm' := fun u => hm.trans (moves_csrWrite e u v)
  split
  · refine .trans ?_ (moves_complete _ _ _ _ ?_)
    · split
      · exact .trans (hm' _) (moves_idle _)
      · exact hm' _
    · split <;> simpa using hv
  · exact hm' _

theorem moves_rdfifo (e : EpNum) (h : Handle) (s : State) (hq : h ∈ (s.epAt e).queue) : Moves s (rdfifoMove e h s) := by
  unfold rdfifoMove
  simp only
  refine (moves_select e s).trans (.trans (moves_drainInto e h _ _ _) (moves_rdfifoFinish _ _ _ _ _ ?_ ?_))
  · simpa [State.epAt, (drainInto_records ..).2.1] using hq
  · simp only [State.reqAt, (drainInto_records ..).2.2]
    exact Nat.min_le_right _ _

theorem reaches_rdfifo (e : EpNum) (s : State) : Reaches s (rdfifoBody e s) := by
  unfold rdfifoBody
  split
  · exact .refused
  · split
    · exact .next (moves_rdfifo _ _ _ (head_mem (by assumption)))
    · exact .refused

theorem reaches_service (e : EpNum) (s : State) : Reaches s (serviceBody e s) := by
  unfold serviceBody
  split
  · exact .next .refl
  · simp only
    split
    · split
      · exact .next (moves_select _ _)
      · exact .after (moves_select _ _) (reaches_wrfifo _ _)
    · split
      · exact .after (moves_select _ _) (reaches_rdfifo _ _)
      · exact .next (moves_select _ _)

theorem reaches_done (e : EpNum) (h : Handle) (k : Kind) (s : State) : Reaches s (doneBody e h k s) := by
  unfold doneBody
  split
  · exact .next (moves_complete _ _ _ _ (by assumption))
  · exact .refused

end Sys2Proof.Machine
end

