-- ==== Sys2Proof/Laws/StepMoves.lean ====
section
/-! SUPPORT. Every instruction and every step is a sequence of moves (what a step can do, said once). -/

namespace Sys2Proof.Machine

variable {s : State}

/-! ## The EP0 machine (41_ep0_control.md) -/

theorem moves_ep0Setup (s : State) : Moves s (ep0Setup s) :=
  (moves_push1 .ep0ReadSetup s fun _ => trivial).trans (moves_nuke _ _ _)

theorem moves_ep0ReadSetup (s : State) : Moves s (ep0ReadSetup s) := by
  unfold ep0ReadSetup
  simp only
  split
  · exact (moves_select _ _).trans (moves_ep0Stall _)
  · exact ((moves_select _ _).trans (moves_fifoPopAll _ _ _)).trans (moves_push1 _ _ fun _ => trivial)

theorem reaches_ep0Switch (c : Csr) (s : State) : Reaches s (ep0Switch c s) := by
  unfold ep0Switch
  split
  · split
    · exact .next (moves_ep0Setup s)
    · exact .next .refl
  · split
    · exact reaches_wrfifo _ _
    · exact .next .refl
  · split
    · exact reaches_rdfifo _ _
    · exact .next .refl
  all_goals exact .next (moves_idle s)

theorem reaches_ep0AfterStallTest (c : Csr) (s : State) : Reaches s (ep0AfterStallTest c s) := by
  unfold ep0AfterStallTest
  split
  · exact .next (((moves_csrWrite 0 _ s).trans (moves_push1 .ep0Idle _ fun _ => trivial)).trans (moves_nuke _ _ _))
  · exact reaches_ep0Switch _ _

theorem reaches_ep0h (s : State) : Reaches s (ep0hBody s) := by
  unfold ep0hBody
  simp only
  split
  · exact .next (((moves_select 0 s).trans (moves_csrWrite _ _ _)).trans
      ((moves_push1 (.ep0AfterStall _) _ fun _ => trivial).trans (moves_nuke _ _ _)))
  · exact .after (moves_select 0 s) (reaches_ep0AfterStallTest _ _)

theorem reaches_getStatusDev (s : State) : Reaches s (reqGetStatusDev s) := reaches_ep0Reply _ _

theorem reaches_getStatusEp (x : BitVec 16) (s : State) : Reaches s (reqGetStatusEp x s) := by
  unfold reqGetStatusEp
  split
  · exact .next (moves_ep0Stall s)
  · exact reaches_ep0Reply _ _

theorem reaches_setAddress (x : BitVec 16) (s : State) : Reaches s (reqSetAddress x s) :=
  .next (((Move.address s _).moves.trans (moves_funcAddrWrite _ _)).trans (moves_ep0Ack _))

theorem reaches_getConfiguration (s : State) : Reaches s (reqGetConfiguration s) := reaches_ep0Reply _ _

theorem reaches_clearFeatureHalt (x : BitVec 16) (s : State) : Reaches s (reqClearFeatureHalt x s) := by
  unfold reqClearFeatureHalt
  simp only
  split
  · exact .next (moves_ep0Stall s)
  · refine .next (.trans ?_ (moves_ep0Ack _))
    split
    · exact .refl
    · exact moves_haltHw _ _ _ (by simp_all)

theorem reaches_setFeatureHalt (x : BitVec 16) (s : State) : Reaches s (reqSetFeatureHalt x s) := by
  unfold reqSetFeatureHalt
  simp only
  split
  · exact .next (moves_ep0Stall s)
  · split
    · exact .next (moves_ep0Stall s)
    · exact .next (.trans (moves_haltHw _ _ _ (by simp_all)) (moves_ep0Ack _))

theorem reaches_remoteWakeup (v : Bool) (s : State) : Reaches s (reqRemoteWakeup v s) :=
  .next ((moves_dev _ s rfl (.inl rfl)).trans (moves_ep0Ack _))

theorem reaches_otherFeature (s : State) : Reaches s (reqOtherFeature s) := .next (moves_ep0Stall s)

theorem reaches_configCall (pkt : SetupPkt) (s : State) : Reaches s (configCall pkt s) := by
  unfold configCall
  split
  · split
    · exact .next (moves_ep0Stall s)
    · exact .next ((moves_push1 .afterConfig s fun _ => trivial).trans (moves_invoke _ _))
  · exact .next (moves_ep0Ack s)

theorem reaches_setConfiguration (pkt : SetupPkt) (s : State) : Reaches s (reqSetConfiguration pkt s) :=
  .after (moves_dev _ s rfl (.inl rfl)) (reaches_configCall _ _)

theorem reaches_setInterface (pkt : SetupPkt) (s : State) : Reaches s (reqSetInterface pkt s) := reaches_configCall _ _

theorem moves_afterConfig (s : State) : Moves s (afterConfig s) := by
  unfold afterConfig
  split
  · exact moves_ep0Stall s
  · exact moves_ep0Ack s

theorem reaches_forward (pkt : SetupPkt) (s : State) : Reaches s (reqForward pkt s) := by
  unfold reqForward
  simp only
  split
  · exact .next ((moves_csrWrite _ _ _).trans (moves_ep0Stall _))
  · refine .next (.trans (.trans (.trans (moves_csrWrite _ _ _) (Move.dev _ _ rfl ?_).moves)
      (moves_push1 .afterForward _ fun _ => trivial)) (moves_invoke _ _))
    split <;> simp

theorem moves_afterForward (s : State) : Moves s (afterForward s) := by
  unfold afterForward
  split
  · exact moves_ep0Stall s
  · exact .refl

theorem reaches_request (i : Instr) (s : State) : Reaches s (runRequest i s) := by
  cases i
  case getStatusDev => exact reaches_getStatusDev s
  case getStatusEp => exact reaches_getStatusEp _ s
  case clearFeatureHalt => exact reaches_clearFeatureHalt _ s
  case setFeatureHalt => exact reaches_setFeatureHalt _ s
  case clearFeatureRwk => exact reaches_remoteWakeup _ s
  case setFeatureRwk => exact reaches_remoteWakeup _ s
  case clearFeatureOther => exact reaches_otherFeature s
  case setFeatureOther => exact reaches_otherFeature s
  case setAddress => exact reaches_setAddress _ s
  case getConfiguration => exact reaches_getConfiguration s
  case setConfiguration => exact reaches_setConfiguration _ s
  case setInterface => exact reaches_setInterface _ s
  case forward => exact reaches_forward _ s
  all_goals exact .next .refl

theorem moves_zeroOut (h : Handle) (s : State) (hq : h ∈ (s.epAt 0).queue) : Moves s (zeroOut h s) := by
  have h1 := (moves_csrWrite 0 (CsrUpdate.mk none none none (some true) none none false false) s).trans (moves_idle _)
  have h2 : h ∈ (((csrWrite 0 (CsrUpdate.mk none none none (some true) none none false false) s).setEp0State .idle).epAt
    0).queue := by rw [State.setEp0State_epAt, csrWrite_epAt]; exact hq
  exact h1.trans (moves_complete 0 h .ok _ h2)

theorem reaches_ep0Kick (h : Handle) (s : State) (hq : h ∈ (s.epAt 0).queue) : Reaches s (ep0Kick h s) := by
  unfold ep0Kick
  simp only
  split
  · split
    · exact .next (moves_select _ _)
    · exact .after (moves_select _ _) (reaches_wrfifo _ _)
  · split
    · exact .next (moves_zeroOut _ _ hq)
    · split
      · exact .after (moves_select _ _) (reaches_rdfifo _ _)
      · exact .next (moves_select _ _)
  all_goals
    split
    · exact .next (moves_complete _ _ _ _ hq)
    · exact .next .refl

/-! ## Endpoint operations (42_endpoint_ops.md) -/

/-- A supported descriptor's max-packet fits the FIFO (R127). -/
theorem supportedType_maxp {p : Params} {e : EpNum} {type : BitVec 2} {maxp : BitVec 11} {ty : EpType}
    (h : supportedType p e type maxp = some ty) : maxp.toNat ≤ p.fifoSize e := by
  unfold supportedType at h
  split at h
  · simp_all
  · cases h

theorem reaches_epen (e : EpNum) (dir : Bool) (type : BitVec 2) (maxp : BitVec 11) (s : State) :
    Reaches s (epenBody e dir type maxp s) := by
  unfold epenBody
  split
  · exact reaches_raise _ _
  · split
    · exact reaches_raise _ _
    · split
      · exact reaches_raise _ _
      · split
        · exact reaches_raise _ _
        · rename_i ty hty
          split
          · exact reaches_raise _ _
          · have hm := supportedType_maxp hty
            have h1 := (Move.descriptor s e
              ({ · with dir := dirOf dir, type := ty, maxp := maxp, halted := false, enabled := true }) (by simp_all)
              (fun _ => rfl) (fun _ => rfl) (fun _ => .inr hm)).moves
            have h2 := h1.trans (moves_maxpWrite e maxp _ fun _ => hm)
            exact .after ((h2.trans (moves_csrWrite _ _ _)).trans (moves_epEvtEnModify _ _)) (reaches_returns _ _)

theorem moves_enabledClear (e : EpNum) (s : State) (h : e ≠ 0) : Moves s (enabledClear e s) :=
  (moves_turn s).trans
    (Move.descriptor _ e ({ · with enabled := false }) h (fun _ => rfl) (fun _ => rfl) (fun _ => .inl rfl)).moves

theorem moves_disableStart (e : EpNum) (s : State) (h : e ≠ 0) : Moves s (disableStart e s) :=
  .trans (.trans (moves_enabledClear e s h) (moves_push1 (.disableTail e) _ fun _ => h)) (moves_nuke _ _ _)

theorem moves_disableTail (e : EpNum) (s : State) (h : e ≠ 0) : Moves s (disableTail e s) := by
  unfold disableTail
  exact .trans (.trans (.trans
    (Move.descriptor s e ({ · with maxp := 0, dir := .out, type := .bulk, halted := false }) h (fun _ => rfl) (fun _ => rfl)
      (fun _ => .inr (Nat.zero_le _))).moves
    (moves_maxpWrite _ _ _ fun _ => Nat.zero_le _)) (moves_csrWrite _ _ _)) (moves_epEvtEnModify _ _)

theorem reaches_epdis (e : EpNum) (s : State) : Reaches s (epdisBody e s) := by
  unfold epdisBody
  split
  · exact reaches_raise _ _
  · split
    · exact reaches_raise _ _
    · split
      · exact reaches_raise _ _
      · exact .next ((moves_push1 (.ret 0) s fun _ => trivial).trans (moves_disableStart _ _ (by simp_all)))

theorem reaches_ephalt (e : EpNum) (v : Bool) (s : State) : Reaches s (ephaltBody e v s) := by
  unfold ephaltBody
  split
  · exact reaches_raise _ _
  · split
    · refine .after ?_ (reaches_returns _ _)
      split
      · exact moves_ep0Stall s
      · exact .refl
    · split
      · exact reaches_raise _ _
      · exact .after (moves_haltHw _ _ _ (by simp_all)) (reaches_returns _ _)

theorem reaches_epqueue (e : EpNum) (h : Handle) (s : State) (hsh : s.Shaped) : Reaches s (epqueueBody e h s) := by
  unfold epqueueBody
  split
  · exact reaches_raise _ _
  · rename_i hv
    split
    · exact reaches_raise _ _
    · rename_i hp
      split
      · exact reaches_raise _ _
      · split
        · exact reaches_raise _ _
        · simp only [Bool.or_eq_true, Bool.not_eq_true', not_or, Bool.not_eq_false] at hv
          have hm := (moves_push1 (.ret 0) s fun _ => trivial).trans
            (Move.enqueue (s.push [.ret 0]) e h hv.1 hv.2 (by simpa using hp)).moves
          have hq : h ∈ ((enqueue e h (s.push [.ret 0])).epAt e).queue := by
            have hl : e.toNat < s.eps.length := by rw [hsh.eps]; simpa [State.validEp] using hv.1
            unfold enqueue
            rw [State.epAt_setEp_self (by simpa using hl)]
            simp
          simp only
          split
          · split
            · rename_i h0
              obtain rfl := eq_of_beq h0
              exact .after hm (reaches_ep0Kick _ _ hq)
            · exact .after hm (reaches_service _ _)
          · exact .next hm

theorem reaches_epdeq (e : EpNum) (h : Handle) (s : State) : Reaches s (epdeqBody e h s) := by
  unfold epdeqBody
  split
  · exact reaches_raise _ _
  · split
    · exact .next ((moves_push1 (.ret 0) s fun _ => trivial).trans (moves_complete _ _ _ _ (by simpa)))
    · exact reaches_raise _ _

theorem reaches_rqalloc (e : EpNum) (s : State) : Reaches s (rqallocBody e s) := by
  unfold rqallocBody
  split
  · exact reaches_raise _ _
  · split
    · exact reaches_raise _ _
    · exact .after (Move.allocate s _ (by assumption)).moves (reaches_returns _ _)

theorem reaches_rqfree (e : EpNum) (h : Handle) (s : State) : Reaches s (rqfreeBody e h s) := by
  unfold rqfreeBody
  split
  · exact reaches_raise _ _
  · split
    · exact reaches_raise _ _
    · exact .after (Move.request s h ({ · with allocated := false }) (by simp_all) (fun _ => rfl) (fun _ => rfl)).moves
        (reaches_returns _ _)

theorem reaches_rqset (h : Handle) (zlp : Bool) (len : BitVec 32) (s : State) : Reaches s (rqsetBody h zlp len s) := by
  unfold rqsetBody
  split
  · exact reaches_raise _ _
  · split
    · exact reaches_raise _ _
    · exact .after (Move.request s h ({ · with length := len, zlp := zlp }) (by simp_all) (fun _ => rfl) (fun _ => rfl)).moves
        (reaches_returns _ _)

theorem reaches_epfstat (e : EpNum) (s : State) : Reaches s (epfstatBody e s) := by
  unfold epfstatBody
  split
  · exact reaches_raise _ _
  · split
    · exact reaches_raise _ _
    · simp only
      split
      · exact .after ((moves_select _ _).trans (moves_select _ _)) (reaches_returns _ _)
      · exact .after (moves_select _ _) (reaches_returns _ _)

/-! ## The lifecycle (44_lifecycle.md) -/

theorem moves_plat (f : Plat → Plat) (s : State) (hu : (f s.plat).udcCommand = s.plat.udcCommand)
    (hv : (f s.plat).vbusDraw = s.plat.vbusDraw) : Moves s (s.setPlat f) := (Move.plat s f hu hv).moves

theorem moves_enableController (s : State) : Moves s (enableController s) := by
  unfold enableController
  exact .trans (.trans (.trans (.trans (.trans
    (moves_plat ({ · with padMode := .device, clkGated := false }) s rfl rfl) (moves_busEvtWrite _ _)) (moves_epEvtWrite _ _))
    (moves_busEvtEnWrite _ _)) (moves_epEvtEnModify _ _)) (moves_plat ({ · with sysintUnmasked := true }) _ rfl rfl)

theorem moves_udcCommand (v : Bool) (s : State) : Moves s (udcCommand v s) := by
  unfold udcCommand
  split
  · exact (Move.logCb s _).moves
  · exact .refl

theorem moves_pullupWrite (v : Bool) (s : State) : Moves s (pullupWrite v s) :=
  (moves_turn s).trans (moves_plat ({ · with pullup := v }) _ rfl rfl)

theorem moves_disableController (s : State) : Moves s (disableController s) := by
  unfold disableController
  exact .trans (.trans (.trans (.trans (.trans (.trans (.trans (moves_busEvtEnWrite _ s) (moves_epEvtEnWrite _ _))
    (moves_plat ({ · with sysintUnmasked := false }) _ rfl rfl)) (moves_busEvtWrite _ _)) (moves_epEvtWrite _ _))
    (moves_udcCommand _ _)) (moves_pullupWrite _ _))
    (moves_dev ({ · with speed := .unknown }) _ rfl (.inl rfl))

theorem reaches_regdrv (id : Handle) (caps : BitVec 7) (s : State) : Reaches s (regdrvBody id caps s) := by
  unfold regdrvBody
  simp only
  repeat' split
  all_goals first
    | exact reaches_raise _ _
    | exact .next (((moves_dev ({ · with driver := some ⟨id, caps⟩ }) s rfl (.inl rfl)).trans
        (moves_push1 .afterBind _ fun _ => trivial)).trans (moves_invoke _ _))

theorem moves_afterBind (s : State) : Moves s (afterBind s) := by
  unfold afterBind
  split
  · exact (moves_dev ({ · with driver := none }) s rfl (.inl rfl)).trans (moves_finish _ _)
  · exact (moves_enableController s).trans (moves_finish _ _)

/-- No endpoint of `dataEndpoints` is EP0: NUM_EP ≤ 8 (00_scope.md R6). -/
theorem dataEndpoints_ne {p : Params} (hw : p.wf = true) {e : EpNum} (he : e ∈ p.dataEndpoints) : e ≠ 0 := by
  simp only [Params.dataEndpoints, List.mem_map, List.mem_range] at he
  obtain ⟨i, hi, rfl⟩ := he
  have hn : p.numEp ≤ 8 := by simp only [Params.wf, Bool.and_eq_true, decide_eq_true_eq] at hw; exact hw.1.1.1.1.1.1.2
  intro h0
  have := congrArg BitVec.toNat h0
  rw [BitVec.toNat_ofNat, Nat.mod_eq_of_lt (by omega)] at this
  simp at this

theorem reaches_unregdrv (id : Handle) (s : State) : Reaches s (unregdrvBody id s) := by
  unfold unregdrvBody
  split
  · exact reaches_raise _ _
  · split
    · exact reaches_raise _ _
    · exact .next ((moves_push1 (.unregMain s.params.dataEndpoints) s fun hw _ he => dataEndpoints_ne hw he).trans
        (moves_invoke _ _))

theorem moves_unregMain (es : List EpNum) (s : State) (h : ∀ e ∈ es, e ≠ 0) : Moves s (unregMain es s) :=
  (moves_disableController s).trans (moves_push1 (.flushRest es) _ fun _ => h)

theorem moves_flushRest (es : List EpNum) (s : State) (h : ∀ e ∈ es, e ≠ 0) : Moves s (flushRest es s) := by
  unfold flushRest
  split
  · exact (moves_push1 .unregUnbind s fun _ => trivial).trans (moves_nuke _ _ _)
  · rename_i e rest
    have hp := moves_push1 (.flushRest rest) s fun _ x hx => h x (List.mem_cons_of_mem _ hx)
    split
    · exact hp.trans (moves_disableStart _ _ (h e (List.mem_cons_self ..)))
    · exact hp

theorem moves_unregUnbind (s : State) : Moves s (unregUnbind s) := by
  unfold unregUnbind
  have h := (moves_idle s).trans (moves_push1 .unregEnd _ fun _ => trivial)
  simp only
  split
  · exact h.trans (moves_invoke _ _)
  · exact h

theorem moves_unregEnd (s : State) : Moves s (unregEnd s) :=
  (moves_dev ({ · with driver := none }) s rfl (.inl rfl)).trans (moves_finish _ _)

theorem reaches_pullup (v : Bool) (s : State) : Reaches s (pullupBody v s) :=
  .after ((moves_udcCommand v s).trans (moves_pullupWrite _ _)) (reaches_returns _ _)

theorem reaches_selfpwr (v : Bool) (s : State) : Reaches s (selfpwrBody v s) :=
  .after (moves_dev ({ · with selfPowered := v }) s rfl (.inl rfl)) (reaches_returns _ _)

/-! ## The dispatcher (43_dispatcher.md) -/

theorem moves_busResetSeen (s : State) : Moves s (busResetSeen s) := by
  unfold busResetSeen
  have hm : s.params.wf = true → s.params.ep0Maxp.toNat ≤ s.params.fifoSize 0 := by
    simp only [Params.wf, Bool.and_eq_true, decide_eq_true_eq]
    exact fun h => h.1.1.2
  have h1 := (Move.address s 0).moves.trans (moves_funcAddrWrite 0 _)
  have h2 : Moves s (State.setEp 0 ({ · with maxp := s.params.ep0Maxp })
      (funcAddrWrite 0 (s.setDev ({ · with address := 0 })))) := by
    have := (Move.ep0Maxp (funcAddrWrite 0 (s.setDev ({ · with address := 0 })))).moves
    rw [show (funcAddrWrite 0 (s.setDev ({ · with address := 0 }))).params = s.params by simp [funcAddrWrite]] at this
    exact h1.trans this
  refine .trans (.trans (h2.trans (moves_maxpWrite _ _ _ ?_))
    (moves_dev ({ · with speed := .full, ep0state := .idle }) _ rfl (.inr (.inl rfl)))) (moves_nuke _ _ _)
  simpa [funcAddrWrite] using hm

theorem moves_notifyResume (s : State) : Moves s (notifyResume s) := by
  unfold notifyResume
  split
  · exact moves_invoke _ _
  · exact .refl

theorem moves_notifySuspend (s : State) : Moves s (notifySuspend s) := by
  unfold notifySuspend
  split
  · exact moves_invoke _ _
  · exact .refl

theorem moves_enterDispatch (s : State) : Moves s (enterDispatch s).2.2.2 := by
  unfold enterDispatch
  exact .trans (.trans (.trans (.trans (moves_dev ({ · with inDispatch := true }) s rfl (.inl rfl)) (moves_turn _))
    (moves_turn _)) (moves_busEvtWrite _ _)) (.trans (moves_turn _) (moves_epEvtWrite _ _))

theorem dispatchWork_sound (p : Params) (b : BitVec 3) (v : BitVec 8) : ∀ f ∈ dispatchWork p b v, f.dataOnly := by
  intro f hf
  simp only [dispatchWork, List.mem_append, List.mem_map] at hf
  rcases hf with ((hf | hf) | hf) | ⟨i, _, rfl⟩
  · split at hf <;> simp_all [Frame.dataOnly]
  · split at hf <;> simp_all [Frame.dataOnly]
  · split at hf <;> simp_all [Frame.dataOnly]
  · trivial

theorem reaches_dispatch (s : State) : Reaches s (dispatchBody s) := by
  unfold dispatchBody
  split
  · exact reaches_raise _ _
  · simp only
    have h := (moves_enterDispatch s).trans (moves_push1 (.dispatchExit (enterDispatch s).1) _ fun _ => trivial)
    split
    · exact .next (h.trans (moves_busResetSeen _))
    · exact .next (h.trans (moves_push _ _ fun _ => dispatchWork_sound _ _ _))

theorem moves_leaveDispatch (saved : BitVec 4) (s : State) : Moves s (leaveDispatch saved s) :=
  ((moves_indexWrite saved s).trans (moves_dev ({ · with inDispatch := false }) _ rfl (.inl rfl))).trans (moves_finish _ _)

theorem reaches_epnh (e : EpNum) (s : State) : Reaches s (epnhBody e s) := by
  unfold epnhBody
  simp only
  refine .after ?_ (reaches_service _ _)
  split
  · exact (moves_select _ _).trans (moves_csrWrite _ _ _)
  · exact moves_select _ _

/-! ## Running -/

theorem reaches_op (o : IntOp) (s : State) : Reaches s (runOp o s) := by
  cases o with
  | wrfifo e => exact reaches_wrfifo e s
  | rdfifo e => exact reaches_rdfifo e s
  | done e h k => exact reaches_done e h k s
  | nuke e k => exact .next (moves_nuke e k s)
  | ep0h => exact reaches_ep0h s
  | epnh e => exact reaches_epnh e s
  | ctlen => exact .next (moves_enableController s)
  | ctldis => exact .next (moves_disableController s)
  | ep0stall => exact .next (moves_ep0Stall s)
  | service e => exact reaches_service e s

theorem reaches_frame (f : Frame) (s : State) (hf : f.dataOnly) : Reaches s (runFrame f s) := by
  cases f with
  | callback c => exact .next .refl
  | op o => exact reaches_op o s
  | setup b => exact reaches_request _ s
  | nukeRest e k hs => exact .next (moves_nukeFrom e k hs s)
  | ret v => exact .next (moves_finish v s)
  | dispatchExit v => exact .next (moves_leaveDispatch v s)
  | notifyResume => exact .next (moves_notifyResume s)
  | notifySuspend => exact .next (moves_notifySuspend s)
  | ep0AfterStall c => exact .after (moves_idle s) (reaches_ep0AfterStallTest c _)
  | ep0Idle => exact .next (moves_idle s)
  | ep0ReadSetup => exact .next (moves_ep0ReadSetup s)
  | afterConfig => exact .next (moves_afterConfig s)
  | afterForward => exact .next (moves_afterForward s)
  | afterBind => exact .next (moves_afterBind s)
  | disableTail e => exact .next (moves_disableTail e s hf)
  | unregMain es => exact .next (moves_unregMain es s hf)
  | flushRest es => exact .next (moves_flushRest es s hf)
  | unregUnbind => exact .next (moves_unregUnbind s)
  | unregEnd => exact .next (moves_unregEnd s)

/-! ## What running needs of the state is kept -/

theorem act_eq_or (ev : BusEvent) (s : State) (P : List Hw → Prop) (h0 : P s.hw) (h1 : ∀ hw e f, P hw → P (hw.modify e f)) :
    P (ev.act s).hw := by
  unfold BusEvent.act
  split
  · exact h0
  · split
    · cases ev <;>
        simp only [BusEvent.effect, busReset, busSetup, busOut, busTake, busStall, busStatus, State.raiseEpEvt,
          State.setHw, State.logTx]
      all_goals first
        | exact h0
        | exact h1 _ _ _ h0
        | (split <;> exact h1 _ _ _ h0)
    · exact h0

theorem act_hw_length (ev : BusEvent) (s : State) : (ev.act s).hw.length = s.hw.length :=
  act_eq_or ev s (·.length = s.hw.length) rfl fun hw e f h => by simpa using h

/-- Every move keeps the parameters. -/
theorem Move.params_eq {t : State} (h : Move s t) : t.params = s.params := by
  cases h
  case bus ev => obtain ⟨_, _, _, _, _, _, e⟩ := act_frame ev s; rw [e]
  case csr e u => simp [State.applyCsr_eq]
  case retire => simp [State.retire]
  case enqueue => simp [Machine.enqueue]
  all_goals rfl

/-- Every move keeps the shape of the records. -/
theorem Move.shaped {t : State} (h : Move s t) (hs : s.Shaped) : t.Shaped := by
  obtain ⟨hp, he, hh, hr, hn⟩ := hs
  have key : ∀ (l : List Ep), (∀ e : EpNum, ((l[e.toNat]?).getD (Ep.disabled e)).num = e) → ∀ (i : EpNum) (f : Ep → Ep),
      (∀ p, (f p).num = p.num) → ∀ e : EpNum, (((l.modify i.toNat f)[e.toNat]?).getD (Ep.disabled e)).num = e := by
    intro l hl i f hf e
    have := hl e
    rw [List.getElem?_modify]
    split
    · cases hx : l[e.toNat]? <;> simp_all
    · simpa using this
  cases h
  case bus ev =>
    have hl := act_hw_length ev s
    obtain ⟨_, _, _, _, _, _, e⟩ := act_frame ev s
    rw [e] at hl ⊢
    exact ⟨hp, he, hl.trans hh, hr, hn⟩
  case csr e u => rw [State.applyCsr_eq]; exact ⟨hp, he, by simpa using hh, hr, hn⟩
  case maxp => exact ⟨hp, he, by simpa using hh, hr, hn⟩
  case push => exact ⟨hp, he, by simpa using hh, hr, hn⟩
  case pop => exact ⟨hp, he, by simpa using hh, hr, hn⟩
  case descriptor e f _ hfn _ _ => exact ⟨hp, by simpa using he, hh, hr, key _ hn e f hfn⟩
  case ep0Maxp => exact ⟨hp, by simpa using he, hh, hr, key _ hn 0 _ fun _ => rfl⟩
  case enqueue e h _ _ _ => exact ⟨hp, by simpa [Machine.enqueue] using he, hh, by simpa [Machine.enqueue] using hr, key _ hn e _ fun _ => rfl⟩
  case retire e h k _ =>
    exact ⟨hp, by simpa [State.retire] using he, hh, by simpa [State.retire] using hr, key _ hn e _ fun _ => rfl⟩
  case transferred => exact ⟨hp, he, hh, by simpa using hr, hn⟩
  case allocate => exact ⟨hp, he, hh, by simpa using hr, hn⟩
  case request => exact ⟨hp, he, hh, by simpa using hr, hn⟩
  all_goals exact ⟨hp, he, hh, hr, hn⟩

/-- Every move keeps pending work sound. -/
theorem Move.framesSound {t : State} (h : Move s t) (hw : s.params.wf = true) (hs : s.FramesSound) : t.FramesSound := by
  cases h
  case stack fs hf => exact hf hw hs
  case bus ev => obtain ⟨_, _, _, _, _, _, e⟩ := act_frame ev s; rw [e]; exact hs
  case csr e u => rw [State.applyCsr_eq]; exact hs
  all_goals exact hs

/-- What is kept by every move is kept by a sequence of them. -/
theorem Moves.keeps {P : State → Prop} (hP : ∀ s t, Move s t → P s → P t) {s t : State} (h : Moves s t) (hs : P s) : P t := by
  induction h with
  | refl => exact hs
  | tail _ hm ih => exact hP _ _ hm ih

/-- What running the pending work needs. -/
def State.Runnable (s : State) : Prop := s.Shaped ∧ s.FramesSound

theorem Moves.runnable {s t : State} (h : Moves s t) (hs : s.Runnable) : t.Runnable :=
  Moves.keeps (P := State.Runnable) (fun _ _ hm hr => ⟨hm.shaped hr.1, hm.framesSound hr.1.params hr.2⟩) h hs

theorem reaches_runPending (n : Nat) (s : State) (hs : s.Runnable) : Reaches s (runPending n s) := by
  induction n generalizing s with
  | zero => exact .next .refl
  | succ n ih =>
    unfold runPending
    split
    · exact .next .refl
    · rename_i f rest hst
      split
      · exact .next .refl
      · have hm : Moves s { s with stack := rest } :=
          (Move.stack s rest fun _ h g hg => h g (by rw [hst]; exact List.mem_cons_of_mem _ hg)).moves
        have hr := hm.runnable hs
        have hf : f.dataOnly := hs.2 f (by rw [hst]; exact List.mem_cons_self ..)
        refine .after hm (.thenDo (reaches_frame f _ hf) fun t ht => ih t ?_)
        exact (reaches_frame f _ hf t ht).runnable hr

theorem reaches_settle (s : State) (hs : s.Runnable) : Reaches s (settle s) := reaches_runPending _ s hs

theorem reaches_runToEnd {r : Res} (h : Reaches s r) (hs : s.Runnable) : Reaches s (runToEnd r) :=
  .thenDo h fun t ht => reaches_settle t ((h t ht).runnable hs)

/-! ## Every instruction, every step -/

/-- An instruction that answers a next state made moves. -/
theorem reaches_exec (i : Instr) (s : State) (hs : s.Runnable) : Reaches s (exec i s) := by
  cases i
  case getStatusDev => exact reaches_runToEnd (reaches_getStatusDev s) hs
  case getStatusEp => exact reaches_runToEnd (reaches_getStatusEp _ s) hs
  case clearFeatureHalt => exact reaches_runToEnd (reaches_clearFeatureHalt _ s) hs
  case setFeatureHalt => exact reaches_runToEnd (reaches_setFeatureHalt _ s) hs
  case clearFeatureRwk => exact reaches_runToEnd (reaches_remoteWakeup _ s) hs
  case setFeatureRwk => exact reaches_runToEnd (reaches_remoteWakeup _ s) hs
  case clearFeatureOther => exact reaches_runToEnd (reaches_otherFeature s) hs
  case setFeatureOther => exact reaches_runToEnd (reaches_otherFeature s) hs
  case setAddress => exact reaches_runToEnd (reaches_setAddress _ s) hs
  case getConfiguration => exact reaches_runToEnd (reaches_getConfiguration s) hs
  case setConfiguration => exact reaches_runToEnd (reaches_setConfiguration _ s) hs
  case setInterface => exact reaches_runToEnd (reaches_setInterface _ s) hs
  case forward => exact reaches_runToEnd (reaches_forward _ s) hs
  case dispatch => exact reaches_runToEnd (reaches_dispatch s) hs
  case regdrv => exact reaches_runToEnd (reaches_regdrv _ _ s) hs
  case unregdrv => exact reaches_runToEnd (reaches_unregdrv _ s) hs
  case pullup => exact reaches_runToEnd (reaches_pullup _ s) hs
  case selfpwr => exact reaches_runToEnd (reaches_selfpwr _ s) hs
  case epen => exact reaches_runToEnd (reaches_epen _ _ _ _ s) hs
  case epdis => exact reaches_runToEnd (reaches_epdis _ s) hs
  case ephalt => exact reaches_runToEnd (reaches_ephalt _ _ s) hs
  case epfstat => exact reaches_runToEnd (reaches_epfstat _ s) hs
  case rqalloc => exact reaches_runToEnd (reaches_rqalloc _ s) hs
  case rqfree => exact reaches_runToEnd (reaches_rqfree _ _ s) hs
  case rqset => exact reaches_runToEnd (reaches_rqset _ _ _ s) hs
  case epqueue => exact reaches_runToEnd (reaches_epqueue _ _ s hs.1) hs
  case epdeq => exact reaches_runToEnd (reaches_epdeq _ _ s) hs
  case breset => exact .next (Move.bus s _).moves
  case bsusp => exact .next (Move.bus s _).moves
  case bresume => exact .next (Move.bus s _).moves
  case bsetup => exact .next (Move.bus s _).moves
  case bout => exact .next (Move.bus s _).moves
  case bin => exact .next (Move.bus s _).moves
  case bstall => exact .next (Move.bus s _).moves
  case bstatus => exact .next (Move.bus s _).moves
  case wrfifo => exact reaches_runToEnd (reaches_wrfifo _ s) hs
  case rdfifo => exact reaches_runToEnd (reaches_rdfifo _ s) hs
  case done => exact reaches_runToEnd (reaches_done _ _ _ s) hs
  case nuke => exact reaches_runToEnd (.next (moves_nuke _ _ s)) hs
  case ep0h => exact reaches_runToEnd (reaches_ep0h s) hs
  case epnh => exact reaches_runToEnd (reaches_epnh _ s) hs
  case ctlen => exact reaches_runToEnd (.next (moves_enableController s)) hs
  case ctldis => exact reaches_runToEnd (.next (moves_disableController s)) hs
  case ep0stall => exact reaches_runToEnd (.next (moves_ep0Stall s)) hs
  case service => exact reaches_runToEnd (reaches_service _ s) hs

theorem reaches_callbackReturn (r : Int) (s : State) (hs : s.Runnable) : Reaches s (callbackReturn r s) := by
  unfold callbackReturn
  split
  · exact .refused
  · rename_i f rest hst
    split
    · have h1 : Moves s { s with stack := rest } :=
        (Move.stack s rest fun _ h g hg => h g (by rw [hst]; exact List.mem_cons_of_mem _ hg)).moves
      have h2 := h1.trans (Move.results _ s.cmdResult s.busResult r s.freeCount).moves
      exact .after h2 (reaches_settle _ (Moves.runnable h2 hs))
    · exact .refused

theorem reaches_clientSetComplete (h : Handle) (b : Bool) (s : State) : Reaches s (clientSetComplete h b s) := by
  unfold clientSetComplete
  split
  · split
    · exact .refused
    · exact .next (Move.request s h ({ · with complete := b }) (by simp_all) (fun _ => rfl) (fun _ => rfl)).moves
  · exact .fault

theorem reaches_clientWriteBuf (h : Handle) (i : BitVec 32) (b : Byte) (s : State) : Reaches s (clientWriteBuf h i b s) := by
  unfold clientWriteBuf
  split
  · exact .next (Move.writeBuf s _ _ _).moves
  · exact .fault

theorem moves_input (i : List Input) (s : State) : Moves s { s with input := i } := (Move.outside s s.race i).moves

/-- What a fetch answers leads to a next state by moves only. -/
def Fetched.Sound (s : State) (r : Fetched) : Prop := Reaches s (match r with | .run i t => exec i t | .answer q => q)

theorem fetchInput_sound (s : State) (hs : s.Runnable) : Fetched.Sound s (fetchInput s) := by
  unfold fetchInput
  split
  · exact .next .refl
  · rename_i bytes more _
    unfold fetchClient
    split
    · rename_i i rest _
      have h := moves_input (restOf .client rest more) s
      exact .after h (reaches_exec _ _ (Moves.runnable h hs))
    · exact .after (moves_input _ s) (reaches_raise _ _)
  · rename_i bytes more _
    unfold fetchBus
    split
    · rename_i i rest _
      have h := moves_input (restOf .bus rest more) s
      exact .after h (reaches_exec _ _ (Moves.runnable h hs))
    · rename_i q _
      have h := moves_input (restOf .bus (afterRefused true bytes q) more) s
      exact .next (h.trans (Move.results _ s.cmdResult .invalid s.cbResult s.freeCount).moves)
  · rename_i r more _
    have h := moves_input more s
    exact .after h (reaches_callbackReturn _ _ (Moves.runnable h hs))
  · exact .after (moves_input _ s) (reaches_clientWriteBuf _ _ _ _)
  · exact .after (moves_input _ s) (reaches_clientSetComplete _ _ _)

theorem fetch_sound (s : State) (hs : s.Runnable) : Fetched.Sound s (fetch s) := by
  have due : ∀ f rest i, s.stack = f :: rest → Reaches s (exec i { s with stack := rest }) := by
    intro f rest i hst
    have h : Moves s { s with stack := rest } :=
      (Move.stack s rest fun _ h g hg => h g (by rw [hst]; exact List.mem_cons_of_mem _ hg)).moves
    exact .after h (reaches_exec i _ (Moves.runnable h hs))
  unfold fetch
  split
  · exact fetchInput_sound s hs
  · exact due _ _ _ (by assumption)
  · exact due _ _ _ (by assumption)
  · split
    · exact fetchInput_sound s hs
    · exact reaches_settle s hs

/-- A step that answers a next state is a sequence of moves. -/
theorem reaches_step (s : State) (hs : s.Runnable) : Reaches s (step s) := fetch_sound s hs

end Sys2Proof.Machine
end

