-- ==== Sys2Proof/Laws/Invariants.lean ====
section
/-! SUPPORT. Each invariant of Safety.lean against one move: the records by their number after a change of one, and for each
kind of state what the moves leave true. -/

namespace Sys2Proof.Machine

variable {s t : State}

/-! ## Records after a change -/

/-- A change of an endpoint record that keeps its queue keeps every queue. -/
theorem setEp_same {e : EpNum} {f : Ep →
    Ep} (hf : ∀ p, (f p).queue = p.queue) (e' : EpNum) : ((s.setEp e f).epAt e').queue = (s.epAt e').queue := by
  by_cases h : e' = e
  · subst h
    by_cases hl : e'.toNat < s.eps.length
    · rw [State.epAt_setEp_self hl, hf]
    · simp [State.epAt, hl]
  · rw [State.epAt_setEp_ne h]

/-- A request record after a change of one: as it was, or the changed one. -/
theorem setReq_cases {h : Handle} {f : Req → Req} (h' : Handle) : ((s.setReq h f).reqAt h') = s.reqAt h' ∨ (h' = h ∧
    h.toNat < s.reqs.length ∧ (s.setReq h f).reqAt h' = f (s.reqAt h)) := by
  by_cases e : h' = h
  · subst e
    by_cases hl : h'.toNat < s.reqs.length
    · right; exact ⟨rfl, hl, State.reqAt_setReq_self hl⟩
    · left; simp [State.reqAt, hl]
  · left; exact State.reqAt_setReq_ne e

/-! ## Reserved bits -/

/-- The bit of an endpoint that exists is inside the mask. -/
theorem epBit_mask {p : Params} {e : EpNum} (hn : p.numEp ≤ 8) (h : e.toNat < p.numEp) : epBit e &&& ~~~p.epMask = 0 := by
  have key : ∀ n ≤ 8, ∀ k < n, (1#8 <<< k) &&& ~~~(BitVec.ofNat 8 (2 ^ n - 1)) = 0 := by decide
  exact key _ hn _ h

theorem or_mask {v b m : BitVec 8} (h : v &&& ~~~m = 0) (h' : b &&& ~~~m = 0) : (v ||| b) &&& ~~~m = 0 := by
  rw [BitVec.and_or_distrib_right, h, h']; rfl

theorem act_reserved (ev : BusEvent) (hsh : s.Shaped) (hi : s.ReservedZero) : (ev.act s).ReservedZero := by
  obtain ⟨h1,h2⟩ := hi
  have hn : s.params.numEp ≤ 8 := by
    have := hsh.params
    simp only [Params.wf, Bool.and_eq_true, decide_eq_true_eq] at this
    omega
  have hn2 : 2 ≤ s.params.numEp := by
    have := hsh.params
    simp only [Params.wf, Bool.and_eq_true, decide_eq_true_eq] at this
    omega
  have h0 : epBit 0 &&& ~~~s.params.epMask = 0 := epBit_mask hn (by simp; omega)
  have key : (ev.act s).epEvt &&& ~~~s.params.epMask = 0 := by
    unfold BusEvent.act
    split
    · exact h1
    · rename_i ha
      have ha' : ev.addressed s = true := by simpa using ha
      split
      · cases ev <;> simp only [BusEvent.addressed, State.validEp, decide_eq_true_eq] at ha' <;> 
          simp only [BusEvent.effect, busReset, busSetup, busOut, busTake, busStall, busStatus, State.raiseEpEvt] <;>
          first
          | exact h1
          | exact or_mask h1 h0
          | exact or_mask h1 (epBit_mask hn ha')
          | (split; exact or_mask h1 h0; exact or_mask h1 (epBit_mask hn ha'))
      · exact h1
  refine ⟨?_, ?_⟩
  · obtain ⟨_, _, _, _, _, _, e⟩ := act_frame ev s; rw [e] at key ⊢; exact key
  · obtain ⟨_, _, _, _, _, _, e⟩ := act_frame ev s; rw [e]; exact h2

theorem Move.reserved (h : Move s t) (hsh : s.Shaped) (hi : s.ReservedZero) : t.ReservedZero := by
  obtain ⟨h1, h2⟩ := hi
  cases h
  case bus ev => exact act_reserved ev hsh ⟨h1, h2⟩
  case csr e u =>
    have hn : 2 ≤ s.params.numEp ∧ s.params.numEp ≤ 8 := by
      have := hsh.params
      simp only [Params.wf, Bool.and_eq_true, decide_eq_true_eq] at this
      omega
    have h0 : epBit 0 &&& ~~~s.params.epMask = 0 := epBit_mask hn.2 (by simp; omega)
    rw [State.applyCsr_eq]
    refine ⟨?_, h2⟩
    simp only
    split
    · exact or_mask h1 h0
    · exact h1
  case epEvt v =>
    exact ⟨by simp only [w1c]; rw [BitVec.and_assoc, BitVec.and_comm (~~~v), ← BitVec.and_assoc, h1]; simp, h2⟩
  case epEvtEn v => exact ⟨h1, by simp [BitVec.and_assoc]⟩
  all_goals exact ⟨h1, h2⟩

/-! ## Memory, EP0, the EP0 state -/

theorem Move.memory (h : Move s t) (hi : s.mem.wf = true) : t.mem.wf = true := by
  cases h
  case bus ev => obtain ⟨_, _, _, _, _, _, e⟩ := act_frame ev s; rw [e]; exact hi
  case csr e u => rw [State.applyCsr_eq]; exact hi
  case writeBuf => exact Memory.write_wf _ _ hi
  all_goals exact hi

theorem Move.ep0Fixed (h : Move s t) (hsh : s.Shaped) (hi : s.Ep0Fixed) : t.Ep0Fixed := by
  obtain ⟨h1,h2,h3,h4⟩ := hi
  have hl : (0:EpNum).toNat < s.eps.length := by
    have := hsh.params; have := hsh.eps
    simp [Params.wf] at *; omega
  cases h
  case bus ev => obtain ⟨_, _, _, _, _, _, e⟩ := act_frame ev s; rw [e]; exact ⟨h1,h2,h3,h4⟩
  case csr e u => rw [State.applyCsr_eq]; exact ⟨h1,h2,h3,h4⟩
  case descriptor e f h0 hn hq hm =>
    have : (s.setEp e f).epAt 0 = s.epAt 0 := State.epAt_setEp_ne (Ne.symm h0)
    exact ⟨by rw [this]; exact h1, by rw [this]; exact h2, by rw [this]; exact h3, by rw [this]; exact h4⟩
  case ep0Maxp =>
    have := State.epAt_setEp_self (s := s) (e := 0) (f := ({ · with maxp := s.params.ep0Maxp })) hl
    exact ⟨by rw [this]; exact h1, by rw [this]; exact h2, by rw [this]; exact h3, by rw [this]; rfl⟩
  case enqueue e h _ _ _ =>
    have key : ∃ q, (Machine.enqueue e h s).epAt 0 = { s.epAt 0 with queue := q } := by
      unfold Machine.enqueue
      by_cases h0 : e = 0
      · subst h0; rw [State.epAt_setEp_self (by simpa using hl)]; exact ⟨_, rfl⟩
      · rw [State.epAt_setEp_ne (Ne.symm h0)]; exact ⟨(s.epAt 0).queue, rfl⟩
    obtain ⟨q, key⟩ := key
    exact ⟨by rw [key]; exact h1, by rw [key]; exact h2, by rw [key]; exact h3, by rw [key]; exact h4⟩
  case retire e h k _ =>
    have key : ∃ q, (State.retire e h k s).epAt 0 = { s.epAt 0 with queue := q } := by
      unfold State.retire
      by_cases h0 : e = 0
      · subst h0
        simp only [State.logDone_epAt, State.setReq_epAt]
        rw [State.epAt_setEp_self (by simpa using hl)]
        exact ⟨_, rfl⟩
      · simp only [State.logDone_epAt, State.setReq_epAt]
        rw [State.epAt_setEp_ne (Ne.symm h0)]
        exact ⟨(s.epAt 0).queue, rfl⟩
    obtain ⟨q, key⟩ := key
    exact ⟨by rw [key]; exact h1, by rw [key]; exact h2, by rw [key]; exact h3, by rw [key]; exact h4⟩
  all_goals exact ⟨h1,h2,h3,h4⟩

theorem Move.ep0State (h : Move s t) (hi : s.Ep0StateReached) : t.Ep0StateReached := by
  unfold State.Ep0StateReached at *
  cases h
  case bus ev => obtain ⟨_, _, _, _, _, _, e⟩ := act_frame ev s; rw [e]; exact hi
  case csr e u => rw [State.applyCsr_eq]; exact hi
  case dev f _ hs => simp only [State.setDev_dev]; rcases hs with h | h | h | h <;> rw [h] <;> simp [hi]
  all_goals exact hi

/-! ## Max-packets and FIFOs -/

theorem Move.maxpRecord (h : Move s t) (hsh : s.Shaped) (hi : ∀ e, (s.epAt e).maxp.toNat ≤ s.params.fifoSize e)
    (e : EpNum) : (t.epAt e).maxp.toNat ≤ t.params.fifoSize e := by
  have change : ∀ (u : State) (e' : EpNum) (f : Ep → Ep), u.eps = s.eps →
      ((f (s.epAt e')).maxp.toNat ≤ s.params.fifoSize e') → ((u.setEp e' f).epAt e).maxp.toNat ≤ s.params.fifoSize e := by
    intro u e' f hu hf
    have same : u.epAt e = s.epAt e := by simp [State.epAt, hu]
    by_cases he : e = e'
    · subst he
      by_cases hl : e.toNat < u.eps.length
      · rw [State.epAt_setEp_self hl, same]; exact hf
      · have : (u.setEp e f).epAt e = u.epAt e := by simp [State.epAt, hl]
        rw [this, same]; exact hi e
    · rw [State.epAt_setEp_ne he, same]; exact hi e
  rw [h.params_eq]
  cases h
  case bus ev => obtain ⟨_, _, _, _, _, _, e⟩ := act_frame ev s; rw [e]; exact hi _
  case csr e u => rw [State.applyCsr_eq]; exact hi _
  case descriptor e' f h0 hn hq hm =>
    refine change s e' f rfl ?_
    rcases hm (s.epAt e') with h | h
    · rw [h]; exact hi e'
    · exact h
  case ep0Maxp =>
    refine change s 0 _ rfl ?_
    have := hsh.params
    simp only [Params.wf, Bool.and_eq_true, decide_eq_true_eq] at this
    exact this.1.1.2
  case enqueue e' h' _ _ _ => exact change _ e' _ rfl (hi e')
  case retire e' h' k _ =>
    unfold State.retire
    exact change _ e' _ rfl (hi e')
  all_goals exact hi e

/-- What a FIFO bound of n says of one endpoint's hardware (10_state.md R16, R33, R34). -/
def HwOk (n : Nat) (w : Hw) : Prop := w.maxp.toNat ≤ n ∧ w.fifo.length ≤ n ∧ w.cnt ≤ n ∧ (w.csr.opr = false → w.cnt = 0)

theorem csrWrite_ok {n : Nat} {w : Hw} (ep0 : Bool) (u : CsrUpdate) (h : HwOk n w) : HwOk n (w.csrWrite ep0 u) := by
  obtain ⟨a,b,c,d⟩ := h
  refine ⟨a, ?_, ?_, ?_⟩ <;> simp only [Hw.csrWrite] <;> by_cases hd : w.discards ep0 u = true <;> simp_all

theorem hwOk_modify {p : Params} {l : List Hw} (hi : ∀ e : EpNum, HwOk (p.fifoSize e) ((l[e.toNat]?).getD (Hw.reset 0)))
   (e' : EpNum) (f : Hw → Hw) (hf : HwOk (p.fifoSize e') ((l[e'.toNat]?).getD (Hw.reset 0)) →
       HwOk (p.fifoSize e') (f ((l[e'.toNat]?).getD (Hw.reset 0))))
   (e : EpNum) : HwOk (p.fifoSize e) (((l.modify e'.toNat f)[e.toNat]?).getD (Hw.reset 0)) := by
  by_cases hee : e = e'
  · subst hee
    by_cases hl : e.toNat < l.length
    · have := hf (hi e); simp [hl] at this ⊢; exact this
    · have := hi e; simp [hl] at this ⊢; exact this
  · have h2 : e'.toNat ≠ e.toNat := fun h => hee (BitVec.eq_of_toNat_eq h).symm
    simpa [h2] using hi e

theorem act_hwOk (hsh : s.Shaped) (ev : BusEvent) (hi : ∀ e, HwOk (s.params.fifoSize e) (s.hwAt e)) (e : EpNum) :
    HwOk (s.params.fifoSize e) ((ev.act s).hwAt e) := by
  have h8 : 8 ≤ s.params.fifoSize 0#4 := by
    have := hsh.params
    simp only [Params.wf, Bool.and_eq_true, decide_eq_true_eq] at this
    exact this.1.1.1.2.trans this.1.1.2
  unfold BusEvent.act
  split
  · exact hi e
  · split
    · rename_i hg
      cases ev with
      | reset =>
        simp only [BusEvent.effect, busReset, State.hwAt, State.setHw]
        exact hwOk_modify hi 0 _ (fun ⟨a,b,c,d⟩ => ⟨a, by simp, by simp, by simp⟩) e
      | suspend => exact hi e
      | resume => exact hi e
      | setup bs => 
        simp [BusEvent.guard] at hg
        have : bs.length ≤ 8 := hg.2.2
        simp only [BusEvent.effect, busSetup, State.raiseEpEvt, State.hwAt, State.setHw]
        exact hwOk_modify hi 0 _ (fun ⟨a,b,c,d⟩ => ⟨a, by simp; omega, by simp; omega, by simp⟩) e
      | out e' bs => 
        simp [BusEvent.guard] at hg
        have : bs.length ≤ s.params.fifoSize e' := hg.2.1.2
        simp only [BusEvent.effect, busOut, State.raiseEpEvt, State.hwAt, State.setHw]
        exact hwOk_modify hi e' _ (fun ⟨a,b,c,d⟩ => ⟨a, by simp; omega, by simp; omega, by simp⟩) e
      | take e' =>
        simp only [BusEvent.effect, busTake, State.raiseEpEvt, State.hwAt, State.setHw, State.logTx]
        exact hwOk_modify hi e' _ (fun ⟨a,b,c,d⟩ => ⟨a, by simp, c, d⟩) e
      | stall e' =>
        simp only [BusEvent.effect, busStall]
        split
        · simp only [State.raiseEpEvt, State.hwAt, State.setHw]
          exact hwOk_modify hi 0 _ (fun ⟨a,b,c,d⟩ => ⟨a, b, c, d⟩) e
        · simp only [State.raiseEpEvt, State.hwAt, State.setHw]
          exact hwOk_modify hi e' _ (fun ⟨a,b,c,d⟩ => ⟨a, b, c, d⟩) e
      | status =>
        simp only [BusEvent.effect, busStatus, State.raiseEpEvt, State.hwAt, State.setHw]
        exact hwOk_modify hi 0 _ (fun ⟨a,b,c,d⟩ => ⟨a, b, c, d⟩) e
    · exact hi e

theorem Move.hwOk (h : Move s t) (hsh : s.Shaped) (hi : ∀ e,
    HwOk (s.params.fifoSize e) (s.hwAt e)) (e : EpNum) : HwOk (t.params.fifoSize e) (t.hwAt e) := by
  have hp := h.params_eq
  rw [hp]
  cases h
  case bus ev => exact act_hwOk hsh ev hi e
  case csr e' u => 
    rw [State.applyCsr_eq]; exact hwOk_modify hi e' _ (csrWrite_ok _ _) e
  case maxp e' v hm => exact hwOk_modify hi e' _ (fun ⟨a,b,c,d⟩ => ⟨hm hsh.params, b, c, d⟩) e
  case push e' b hl =>
    exact hwOk_modify hi e' _ (fun ⟨a,b,c,d⟩ => ⟨a, by simp [State.hwAt] at hl; simp; omega, c, d⟩) e
  case pop e' b rest hl =>
    exact hwOk_modify hi e' _ (fun ⟨a,b,c,d⟩ => ⟨a, by simp [State.hwAt] at hl; simp [hl] at b; simp; omega, c, d⟩) e
  all_goals exact hi e

/-! ## Queues and requests -/

theorem sound_of_same (hp : t.params = s.params) (hq : ∀ e, (t.epAt e).queue = (s.epAt e).queue)
   (hr : ∀ h, (t.reqAt h).status = (s.reqAt h).status ∧ (t.reqAt h).ep = (s.reqAt h).ep ∧
       ((s.reqAt h).status = .inProgress → (t.reqAt h).allocated = (s.reqAt h).allocated))
   (hi : s.QueuesSound) : t.QueuesSound := by
  obtain ⟨a,b,c,d⟩ := hi
  refine ⟨fun e => by rw [hq]; exact a e, fun e h hh => ?_, fun h hh => ?_, fun h hh => ?_⟩
  · rw [hq] at hh; obtain ⟨b1,b2,b3,b4⟩ := b e h hh
    obtain ⟨r1,r2,r3⟩ := hr h
    exact ⟨by rw [hp]; exact b1, by rw [r1]; exact b2, by rw [r3 b2]; exact b3, by rw [r2]; exact b4⟩
  · rw [(hr h).1] at hh; rw [(hr h).2.1]; obtain ⟨e,he⟩ := c h hh; exact ⟨e, he.1, by rw [hq]; exact he.2⟩
  · rw [(hr h).1] at hh; rw [(hr h).2.1]; exact d h hh

theorem sound_setReq {h : Handle} {f : Req → Req} (hf : (f (s.reqAt h)).status = (s.reqAt h).status ∧
    (f (s.reqAt h)).ep = (s.reqAt h).ep ∧ ((s.reqAt h).status = .inProgress →
    (f (s.reqAt h)).allocated = (s.reqAt h).allocated))
   (hi : s.QueuesSound) : (s.setReq h f).QueuesSound := by
  refine sound_of_same (s := s) rfl (fun e => rfl) (fun h' => ?_) hi
  rcases setReq_cases (s := s) (h := h) (f := f) h' with e | ⟨rfl, _, e⟩
  · rw [e]; exact ⟨rfl, rfl, fun _ => rfl⟩
  · rw [e]; exact hf

theorem Move.queues (h : Move s t) (hsh : s.Shaped) (hi : s.QueuesSound) : t.QueuesSound := by
  cases h
  case bus ev =>
    obtain ⟨_, _, _, _, _, _, e⟩ := act_frame ev s
    rw [e]
    exact ⟨hi.nodup, hi.queued, hi.inProgress, hi.notQueued⟩
  case csr e u => rw [State.applyCsr_eq]; exact ⟨hi.nodup, hi.queued, hi.inProgress, hi.notQueued⟩
  case descriptor e f h0 hn hq hm =>
    exact sound_of_same (t := s.setEp e f) (s := s) rfl (setEp_same hq) (fun h => ⟨rfl, rfl, fun _ => rfl⟩) hi
  case ep0Maxp =>
    exact sound_of_same (t := s.setEp 0 ({ · with maxp := s.params.ep0Maxp })) (s := s) rfl
      (fun e => setEp_same (s := s) (f := ({ · with maxp := s.params.ep0Maxp })) (fun _ => rfl) e) (fun h => ⟨rfl, rfl, fun _ => rfl⟩) hi
  case enqueue e h he hr hp =>
    have hl : e.toNat < s.eps.length := by rw [hsh.eps]; simpa [State.validEp] using he
    have hr' : h.toNat < s.params.numReq ∧ (s.reqAt h).allocated = true := by simpa [State.validReq] using hr
    have hlr : h.toNat < s.reqs.length := by rw [hsh.reqs]; exact hr'.1
    have q1 : ((Machine.enqueue e h s).epAt e).queue = (s.epAt e).queue ++ [h] := by
      unfold Machine.enqueue; rw [State.epAt_setEp_self (by simpa using hl)]; rfl
    have q2 : ∀ e', e' ≠ e → ((Machine.enqueue e h s).epAt e') = s.epAt e' := by
      intro e' hne; unfold Machine.enqueue; rw [State.epAt_setEp_ne hne]; rfl
    have r1 : (Machine.enqueue e h s).reqAt h =
        { s.reqAt h with transferred := 0, status := .inProgress, ep := some e } := by
      unfold Machine.enqueue; rw [State.setEp_reqAt, State.reqAt_setReq_self hlr]
    have r2 : ∀ h', h' ≠ h → ((Machine.enqueue e h s).reqAt h') = s.reqAt h' := by
      intro h' hne; unfold Machine.enqueue; rw [State.setEp_reqAt, State.reqAt_setReq_ne hne]
    have hnq : ∀ e', h ∉ (s.epAt e').queue := fun e' hm => hp (hi.queued e' h hm).2.1
    generalize hg : Machine.enqueue e h s = u at *
    have hup : u.params = s.params := by rw [← hg]; rfl
    refine ⟨fun e' => ?_, fun e' h' hh => ?_, fun h' hh => ?_, fun h' hh => ?_⟩
    · by_cases hee : e' = e
      · subst hee
        rw [q1]
        refine List.nodup_append.mpr ⟨hi.nodup e', by simp, fun a ha b hb hab => ?_⟩
        simp only [List.mem_singleton] at hb
        subst hb
        subst hab
        exact hnq _ ha
      · rw [q2 e' hee]; exact hi.nodup e'
    · rw [hup]
      by_cases hhh : h' = h
      · subst hhh
        by_cases hee : e' = e
        · subst hee; rw [r1]; exact ⟨hr'.1, rfl, hr'.2, rfl⟩
        · rw [q2 e' hee] at hh; exact absurd hh (hnq e')
      · have : h' ∈ (s.epAt e').queue := by
          by_cases hee : e' = e
          · subst hee; rw [q1] at hh; simpa [hhh] using hh
          · rw [q2 e' hee] at hh; exact hh
        rw [r2 h' hhh]; exact hi.queued e' h' this
    · by_cases hhh : h' = h
      · subst hhh; rw [r1]; exact ⟨e, rfl, by rw [q1]; simp⟩
      · rw [r2 h' hhh] at hh ⊢
        obtain ⟨e', h1, h2⟩ := hi.inProgress h' hh
        refine ⟨e', h1, ?_⟩
        by_cases hee : e' = e
        · subst hee; rw [q1]; simp [h2]
        · rw [q2 e' hee]; exact h2
    · by_cases hhh : h' = h
      · subst hhh; rw [r1] at hh; simp at hh
      · rw [r2 h' hhh] at hh ⊢; exact hi.notQueued h' hh
  case retire e h k hq =>
    obtain ⟨b1,b2,b3,b4⟩ := hi.queued e h hq
    have hlr : h.toNat < s.reqs.length := by rw [hsh.reqs]; exact b1
    have hl : e.toNat < s.eps.length := by
      by_contra hc
      have : s.epAt e = Ep.disabled e := by simp [State.epAt, Nat.not_lt.mp hc]
      rw [this] at hq; simp [Ep.disabled] at hq
    have q1 : ((State.retire e h k s).epAt e).queue = (s.epAt e).queue.erase h := by
      unfold State.retire; simp only [State.logDone_epAt, State.setReq_epAt]; rw [State.epAt_setEp_self hl]
    have q2 : ∀ e', e' ≠ e → ((State.retire e h k s).epAt e') = s.epAt e' := by
      intro e' hne; unfold State.retire; simp only [State.logDone_epAt, State.setReq_epAt]; rw [State.epAt_setEp_ne hne]
    have r1 : ((State.retire e h k s).reqAt h) = { s.reqAt h with status := .finished k, ep := none } := by
      unfold State.retire
      simp only [State.logDone_reqAt]
      rw [State.reqAt_setReq_self (by simpa using hlr), State.reqAt_setReq_self (by simpa using hlr)]
      simp [b2]
    have r2 : ∀ h', h' ≠ h → ((State.retire e h k s).reqAt h') = s.reqAt h' := by
      intro h' hne
      unfold State.retire
      simp only [State.logDone_reqAt]
      rw [State.reqAt_setReq_ne hne, State.reqAt_setReq_ne hne]
      rfl
    have hup : (State.retire e h k s).params = s.params := by simp [State.retire]
    generalize State.retire e h k s = u at *
    have hne : ∀ e', h ∈ (s.epAt e').queue → e' = e := fun e' hm => by
      have := (hi.queued e' h hm).2.2.2; rw [b4] at this; exact (Option.some.inj this).symm
    have hq' : ∀ e' h', h' ∈ (u.epAt e').queue → h' ≠ h ∧ h' ∈ (s.epAt e').queue := by
      intro e' h' hh
      by_cases hee : e' = e
      · subst hee; rw [q1] at hh; exact (List.Nodup.mem_erase_iff (hi.nodup e')).mp hh
      · rw [q2 e' hee] at hh; refine ⟨?_, hh⟩; rintro rfl; exact hee (hne e' hh)
    refine ⟨fun e' => ?_, fun e' h' hh => ?_, fun h' hh => ?_, fun h' hh => ?_⟩
    · by_cases hee : e' = e
      · subst hee; rw [q1]; exact (hi.nodup e').erase _
      · rw [q2 e' hee]; exact hi.nodup e'
    · obtain ⟨c1, c2⟩ := hq' e' h' hh
      rw [hup, r2 h' c1]; exact hi.queued e' h' c2
    · by_cases hhh : h' = h
      · subst hhh; rw [r1] at hh; simp at hh
      · rw [r2 h' hhh] at hh ⊢
        obtain ⟨e', h1, h2⟩ := hi.inProgress h' hh
        refine ⟨e', h1, ?_⟩
        by_cases hee : e' = e
        · subst hee; rw [q1]; exact (List.Nodup.mem_erase_iff (hi.nodup e')).mpr ⟨hhh, h2⟩
        · rw [q2 e' hee]; exact h2
    · by_cases hhh : h' = h
      · subst hhh; rw [r1]
      · rw [r2 h' hhh] at hh ⊢; exact hi.notQueued h' hh
  case transferred h n _ => exact sound_setReq ⟨rfl, rfl, fun _ => rfl⟩ hi
  case allocate h hf =>
    have hna : (s.reqAt h).allocated = false := by
      unfold State.freeHandle at hf
      simp only [Option.map_eq_some_iff] at hf
      obtain ⟨i, hi1, rfl⟩ := hf
      rw [List.findIdx?_eq_some_iff_getElem] at hi1
      obtain ⟨hlt, hb, _⟩ := hi1
      have hw := hsh.params
      simp only [Params.wf, Bool.and_eq_true, decide_eq_true_eq] at hw
      have hlt' : i < s.reqs.length := by simp at hlt; omega
      have : i < 65536 := by simp at hlt; omega
      simp only [State.reqAt, BitVec.toNat_ofNat]
      rw [Nat.mod_eq_of_lt this, List.getElem?_eq_getElem hlt']
      simpa using hb
    have hnp : (s.reqAt h).status ≠ .inProgress := by
      intro hp
      obtain ⟨e, _, hm⟩ := hi.inProgress h hp
      rw [(hi.queued e h hm).2.2.1] at hna; cases hna
    refine ⟨hi.nodup, fun e h' hh => ?_, fun h' hh => ?_, fun h' hh => ?_⟩
    · have := hi.queued e h' hh
      rcases setReq_cases (s := s) (h := h) (f := fun _ => Req.allocatedFresh) h' with e | ⟨rfl, _, e⟩
      · rw [e]; exact this
      · exact absurd this.2.1 hnp
    · rcases setReq_cases (s := s) (h := h) (f := fun _ => Req.allocatedFresh) h' with e | ⟨rfl, _, e⟩
      · rw [e] at hh ⊢; exact hi.inProgress h' hh
      · rw [e] at hh; cases hh
    · rcases setReq_cases (s := s) (h := h) (f := fun _ => Req.allocatedFresh) h' with e | ⟨rfl, _, e⟩
      · rw [e] at hh ⊢; exact hi.notQueued h' hh
      · rw [e]; rfl
  case request h f hp hs he => exact sound_setReq ⟨hs _, he _, fun h => absurd h hp⟩ hi
  all_goals exact ⟨hi.nodup, hi.queued, hi.inProgress, hi.notQueued⟩

theorem Move.progress (h : Move s t) (hi : s.ProgressBounded) : t.ProgressBounded := by
  have same : ∀ u : State, u.reqs = s.reqs → u.ProgressBounded := by
    intro u hu h hh; simp only [State.reqAt, hu] at hh ⊢; exact hi h hh
  have one : ∀ (u : State), u.reqs = s.reqs → ∀ (h : Handle) (f : Req → Req), ((f (s.reqAt h)).status = .inProgress →
      (f (s.reqAt h)).transferred.toNat ≤ (f (s.reqAt h)).length.toNat) → (u.setReq h f).ProgressBounded := by
    intro u hu h f hf h' hh
    rcases setReq_cases (s := u) (h := h) (f := f) h' with e | ⟨rfl, _, e⟩
    · rw [e] at hh ⊢; exact same u hu h' hh
    · have : u.reqAt h' = s.reqAt h' := by simp [State.reqAt, hu]
      rw [e, this] at hh ⊢; exact hf hh
  cases h
  case bus ev => obtain ⟨_, _, _, _, _, _, e⟩ := act_frame ev s; rw [e]; exact hi
  case csr e u => rw [State.applyCsr_eq]; exact hi
  case enqueue e h he hr hp =>
    have := one s rfl h ({ · with transferred := 0, status := .inProgress, ep := some e }) (fun _ => by simp)
    exact this
  case retire e h k hq =>
    unfold State.retire
    have a := one (s.setEp e fun p => { p with queue := p.queue.erase h }) rfl h ({ · with ep := none }) (hi h)
    intro h' hh
    simp only [State.logDone_reqAt] at hh ⊢
    rcases setReq_cases (s := ((s.setEp e fun p => { p with queue := p.queue.erase h }).setReq h ({ · with ep := none })))
      (h := h) (f := fun r => if r.status = .inProgress then { r with status := .finished k } else r) h' with
      e' | ⟨rfl, _, e'⟩
    · rw [e'] at hh ⊢; exact a h' hh
    · rw [e'] at hh ⊢
      split at hh
      · cases hh
      · split
        · contradiction
        · exact a _ hh
  case transferred h n hn => exact one s rfl h ({ · with transferred := n }) (fun hp => (hn (hi h hp)).2)
  case allocate h hf => exact one s rfl h _ (fun hp => by cases hp)
  case request h f hp hs he => exact one s rfl h f (fun h => by rw [hs] at h; exact absurd h hp)
  all_goals exact hi

end Sys2Proof.Machine
end

