-- ==== Sys2Proof/Laws/PerInstr.lean ====
section
/-! SUPPORT. One law per operation: the shape of its encoding. -/

namespace Sys2Proof

/-- The encoding of an operation is its word, low byte first, and then its payload (30_encoding.md R63, R72, R81). -/
theorem encode_shape (i : Instr) :
    (encode i).length = 8 + i.payload.length ∧ wordOfBytes (encode i) = encodeWord i ∧ (encode i).drop 8 = i.payload :=
  ⟨by simp [encode], wordOfBytes_bytesOfWord _ _, rfl⟩

/-- The encoding of an operation: its length, its word, its payload. -/
def Laws.EncodeShape.Statement (i : Instr) : Prop :=
  (encode i).length = 8 + i.payload.length ∧ wordOfBytes (encode i) = encodeWord i ∧ (encode i).drop 8 = i.payload

theorem Laws.EncodeShape.getStatusDev (dir : Bool) (wValue wIndex wLength : BitVec 16) :
    Laws.EncodeShape.Statement (.getStatusDev dir wValue wIndex wLength) := encode_shape _
theorem Laws.EncodeShape.getStatusEp (dir : Bool) (wValue wIndex wLength : BitVec 16) :
    Laws.EncodeShape.Statement (.getStatusEp dir wValue wIndex wLength) := encode_shape _
theorem Laws.EncodeShape.clearFeatureHalt (dir : Bool) (wIndex wLength : BitVec 16) :
    Laws.EncodeShape.Statement (.clearFeatureHalt dir wIndex wLength) := encode_shape _
theorem Laws.EncodeShape.setFeatureHalt (dir : Bool) (wIndex wLength : BitVec 16) :
    Laws.EncodeShape.Statement (.setFeatureHalt dir wIndex wLength) := encode_shape _
theorem Laws.EncodeShape.clearFeatureRwk (dir : Bool) (wIndex wLength : BitVec 16) :
    Laws.EncodeShape.Statement (.clearFeatureRwk dir wIndex wLength) := encode_shape _
theorem Laws.EncodeShape.setFeatureRwk (dir : Bool) (wIndex wLength : BitVec 16) :
    Laws.EncodeShape.Statement (.setFeatureRwk dir wIndex wLength) := encode_shape _
theorem Laws.EncodeShape.clearFeatureOther (dir : Bool) (recipient : BitVec 5) (wValue wIndex wLength : BitVec 16) :
    Laws.EncodeShape.Statement (.clearFeatureOther dir recipient wValue wIndex wLength) := encode_shape _
theorem Laws.EncodeShape.setFeatureOther (dir : Bool) (recipient : BitVec 5) (wValue wIndex wLength : BitVec 16) :
    Laws.EncodeShape.Statement (.setFeatureOther dir recipient wValue wIndex wLength) := encode_shape _
theorem Laws.EncodeShape.setAddress (dir : Bool) (wValue wIndex wLength : BitVec 16) :
    Laws.EncodeShape.Statement (.setAddress dir wValue wIndex wLength) := encode_shape _
theorem Laws.EncodeShape.getConfiguration (dir : Bool) (wValue wIndex wLength : BitVec 16) :
    Laws.EncodeShape.Statement (.getConfiguration dir wValue wIndex wLength) := encode_shape _
theorem Laws.EncodeShape.setConfiguration (dir : Bool) (wValue wIndex wLength : BitVec 16) :
    Laws.EncodeShape.Statement (.setConfiguration dir wValue wIndex wLength) := encode_shape _
theorem Laws.EncodeShape.setInterface (dir : Bool) (wValue wIndex wLength : BitVec 16) :
    Laws.EncodeShape.Statement (.setInterface dir wValue wIndex wLength) := encode_shape _
theorem Laws.EncodeShape.forward (pkt : SetupPkt) : Laws.EncodeShape.Statement (.forward pkt) := encode_shape _
theorem Laws.EncodeShape.dispatch : Laws.EncodeShape.Statement .dispatch := encode_shape _
theorem Laws.EncodeShape.regdrv (driver : Handle) (caps : BitVec 7) :
    Laws.EncodeShape.Statement (.regdrv driver caps) := encode_shape _
theorem Laws.EncodeShape.unregdrv (driver : Handle) : Laws.EncodeShape.Statement (.unregdrv driver) := encode_shape _
theorem Laws.EncodeShape.pullup (on : Bool) : Laws.EncodeShape.Statement (.pullup on) := encode_shape _
theorem Laws.EncodeShape.selfpwr (value : Bool) : Laws.EncodeShape.Statement (.selfpwr value) := encode_shape _
theorem Laws.EncodeShape.epen (ep : EpNum) (dir : Bool) (type : BitVec 2) (maxp : BitVec 11) :
    Laws.EncodeShape.Statement (.epen ep dir type maxp) := encode_shape _
theorem Laws.EncodeShape.epdis (ep : EpNum) : Laws.EncodeShape.Statement (.epdis ep) := encode_shape _
theorem Laws.EncodeShape.ephalt (ep : EpNum) (value : Bool) :
    Laws.EncodeShape.Statement (.ephalt ep value) := encode_shape _
theorem Laws.EncodeShape.epfstat (ep : EpNum) : Laws.EncodeShape.Statement (.epfstat ep) := encode_shape _
theorem Laws.EncodeShape.rqalloc (ep : EpNum) : Laws.EncodeShape.Statement (.rqalloc ep) := encode_shape _
theorem Laws.EncodeShape.rqfree (ep : EpNum) (h : Handle) : Laws.EncodeShape.Statement (.rqfree ep h) := encode_shape _
theorem Laws.EncodeShape.rqset (h : Handle) (zlp : Bool) (length : BitVec 32) :
    Laws.EncodeShape.Statement (.rqset h zlp length) := encode_shape _
theorem Laws.EncodeShape.epqueue (ep : EpNum) (h : Handle) : Laws.EncodeShape.Statement (.epqueue ep h) := encode_shape _
theorem Laws.EncodeShape.epdeq (ep : EpNum) (h : Handle) : Laws.EncodeShape.Statement (.epdeq ep h) := encode_shape _
theorem Laws.EncodeShape.breset : Laws.EncodeShape.Statement .breset := encode_shape _
theorem Laws.EncodeShape.bsusp : Laws.EncodeShape.Statement .bsusp := encode_shape _
theorem Laws.EncodeShape.bresume : Laws.EncodeShape.Statement .bresume := encode_shape _
theorem Laws.EncodeShape.bsetup (payload : List Byte) : Laws.EncodeShape.Statement (.bsetup payload) := encode_shape _
theorem Laws.EncodeShape.bout (ep : EpNum) (payload : List Byte) :
    Laws.EncodeShape.Statement (.bout ep payload) := encode_shape _
theorem Laws.EncodeShape.bin (ep : EpNum) : Laws.EncodeShape.Statement (.bin ep) := encode_shape _
theorem Laws.EncodeShape.bstall (ep : EpNum) : Laws.EncodeShape.Statement (.bstall ep) := encode_shape _
theorem Laws.EncodeShape.bstatus : Laws.EncodeShape.Statement .bstatus := encode_shape _
theorem Laws.EncodeShape.wrfifo (ep : EpNum) : Laws.EncodeShape.Statement (.wrfifo ep) := encode_shape _
theorem Laws.EncodeShape.rdfifo (ep : EpNum) : Laws.EncodeShape.Statement (.rdfifo ep) := encode_shape _
theorem Laws.EncodeShape.done (ep : EpNum) (h : Handle) (status : Kind) :
    Laws.EncodeShape.Statement (.done ep h status) := encode_shape _
theorem Laws.EncodeShape.nuke (ep : EpNum) (status : Kind) :
    Laws.EncodeShape.Statement (.nuke ep status) := encode_shape _
theorem Laws.EncodeShape.ep0h : Laws.EncodeShape.Statement .ep0h := encode_shape _
theorem Laws.EncodeShape.epnh (ep : EpNum) : Laws.EncodeShape.Statement (.epnh ep) := encode_shape _
theorem Laws.EncodeShape.ctlen : Laws.EncodeShape.Statement .ctlen := encode_shape _
theorem Laws.EncodeShape.ctldis : Laws.EncodeShape.Statement .ctldis := encode_shape _
theorem Laws.EncodeShape.ep0stall : Laws.EncodeShape.Statement .ep0stall := encode_shape _
theorem Laws.EncodeShape.service (ep : EpNum) : Laws.EncodeShape.Statement (.service ep) := encode_shape _

end Sys2Proof
end

