-- ==== Sys2Proof/Laws/Running.lean ====
section
/-! SUPPORT. Running pending work: each frame brings up less than its weight, so the bound of `settle` is always enough, and
settling is one frame after another. -/

namespace Sys2Proof.Machine

variable {s t : State}

/-- The weight of the frames in front of the first callback: what is due before the client moves. -/
def dueWeight : List Frame → Nat
  | [] => 0
  | f :: fs => if f.isCallback then 0 else f.weight + dueWeight fs

@[simp] theorem dueWeight_nil : dueWeight [] = 0 := rfl

theorem dueWeight_cons_le (f : Frame) (fs : List Frame) : dueWeight (f :: fs) ≤ f.weight + dueWeight fs := by
  rw [dueWeight]
  split <;> omega

theorem dueWeight_append_le (fs gs : List Frame) : dueWeight (fs ++ gs) ≤ stackWeight fs + dueWeight gs := by
  induction fs with
  | nil => simp [stackWeight]
  | cons f fs ih =>
    have := dueWeight_cons_le f (fs ++ gs)
    simp only [List.cons_append, stackWeight, List.map_cons, List.sum_cons] at *
    omega

theorem dueWeight_le_stackWeight (fs : List Frame) : dueWeight fs ≤ stackWeight fs := by
  simpa using dueWeight_append_le fs []

@[simp] theorem dueWeight_callback (c : Callback) (fs : List Frame) : dueWeight (.callback c :: fs) = 0 := rfl

/-! ## What each operation leaves on the stack -/

@[simp] theorem retire_stack (e : EpNum) (h : Handle) (k : Kind) (s : State) : (s.retire e h k).stack = s.stack := by
  simp [State.retire]

/-- Completing a request leaves the stack, or puts the callback in front. -/
theorem complete_stack (e : EpNum) (h : Handle) (k : Kind) (s : State) :
    (complete e h k s).stack = if ((s.retire e h k).reqAt h).complete then .callback (.complete e h) :: s.stack
      else s.stack := by
  unfold complete
  simp only
  split <;> simp

theorem complete_weight (e : EpNum) (h : Handle) (k : Kind) (s : State) :
    dueWeight (complete e h k s).stack ≤ dueWeight s.stack := by
  rw [complete_stack]
  split <;> simp

/-- Whether a request has a callback is not changed by completing it. -/
theorem retire_complete (e : EpNum) (h : Handle) (k : Kind) (s : State) :
    ((s.retire e h k).reqAt h).complete = (s.reqAt h).complete := by
  unfold State.retire
  by_cases hh : h.toNat < s.reqs.length
  · simp only [State.logDone_reqAt]
    rw [State.reqAt_setReq_self (by simpa using hh), State.reqAt_setReq_self (by simpa using hh)]
    split <;> rfl
  · have key : ∀ (u : State) (f : Req → Req), ¬h.toNat < u.reqs.length → (u.setReq h f).reqAt h = u.reqAt h := by
      intro u f hu; simp [State.reqAt, hu]
    simp only [State.logDone_reqAt]
    rw [key _ _ (by simpa using hh), key _ _ (by simpa using hh), State.setEp_reqAt]

theorem nukeFrom_weight (e : EpNum) (k : Kind) (hs : List Handle) (s : State) :
    dueWeight (nukeFrom e k hs s).stack ≤ dueWeight s.stack := by
  induction hs generalizing s with
  | nil => simp [nukeFrom]
  | cons h hs ih =>
    unfold nukeFrom
    split
    · split
      · rename_i hc
        rw [complete_stack, retire_complete, State.push_reqAt, hc]
        simp
      · exact (ih _).trans (complete_weight _ _ _ _)
    · exact ih s

theorem nuke_weight (e : EpNum) (k : Kind) (s : State) : dueWeight (nuke e k s).stack ≤ dueWeight s.stack :=
  nukeFrom_weight _ _ _ _

@[simp] theorem maxpWrite_stack (e : EpNum) (v : BitVec 11) (s : State) : (maxpWrite e v s).stack = s.stack := by
  simp [maxpWrite]
@[simp] theorem funcAddrWrite_stack (v : BitVec 7) (s : State) : (funcAddrWrite v s).stack = s.stack := by
  simp [funcAddrWrite]
@[simp] theorem indexWrite_stack (v : BitVec 4) (s : State) : (indexWrite v s).stack = s.stack := by simp [indexWrite]
@[simp] theorem busEvtWrite_stack (v : BitVec 3) (s : State) : (busEvtWrite v s).stack = s.stack := by simp [busEvtWrite]
@[simp] theorem epEvtWrite_stack (v : BitVec 8) (s : State) : (epEvtWrite v s).stack = s.stack := by simp [epEvtWrite]
@[simp] theorem busEvtEnWrite_stack (v : BitVec 3) (s : State) : (busEvtEnWrite v s).stack = s.stack := by
  simp [busEvtEnWrite]
@[simp] theorem epEvtEnModify_stack (f : BitVec 8 → BitVec 8) (s : State) : (epEvtEnModify f s).stack = s.stack := by
  simp [epEvtEnModify, epEvtEnWrite]
@[simp] theorem epEvtEnWrite_stack (v : BitVec 8) (s : State) : (epEvtEnWrite v s).stack = s.stack := by
  simp [epEvtEnWrite]
@[simp] theorem markReady_stack (e : EpNum) (last : Bool) (s : State) : (markReady e last s).stack = s.stack := by
  unfold markReady
  split
  · simp only; split <;> simp
  · simp
@[simp] theorem ep0Stall_stack (s : State) : (ep0Stall s).stack = s.stack := by simp [ep0Stall]
@[simp] theorem ep0Ack_stack (s : State) : (ep0Ack s).stack = s.stack := by simp [ep0Ack]
@[simp] theorem haltHw_stack (e : EpNum) (v : Bool) (s : State) : (haltHw e v s).stack = s.stack := by simp [haltHw]

theorem fifoPush_stack {e : EpNum} {b : Byte} (h : fifoPush e b s = .next t) : t.stack = s.stack := by
  unfold fifoPush at h
  simp only at h
  split at h <;> cases h
  simp

theorem fifoPushAll_stack {e : EpNum} {bs : List Byte} (h : fifoPushAll e bs s = .next t) : t.stack = s.stack := by
  induction bs generalizing s with
  | nil => cases h; rfl
  | cons b bs ih =>
    obtain ⟨u, hu, hr⟩ := thenDo_eq_next h
    exact (ih hr).trans (fifoPush_stack hu)

@[simp] theorem fifoPop_stack (e : EpNum) (s : State) : (fifoPop e s).2.stack = s.stack := by
  unfold fifoPop State.takeFree
  simp only
  split <;> simp

@[simp] theorem fifoPopAll_stack (e : EpNum) (n : Nat) (s : State) : (fifoPopAll e n s).2.stack = s.stack := by
  induction n generalizing s with
  | zero => rfl
  | succ n ih => simpa [fifoPopAll] using (ih _).trans (fifoPop_stack e s)

@[simp] theorem drainInto_stack (e : EpNum) (h : Handle) (i n : Nat) (s : State) : (drainInto e h i n s).stack = s.stack := by
  induction n generalizing i s with
  | zero => rfl
  | succ n ih => simp [drainInto, ih]

/-- A result that leaves at most `n` more due than `s` has, if it answers next. -/
def Leaves (s : State) (n : Nat) (r : Res) : Prop := ∀ t, r = .next t → dueWeight t.stack ≤ dueWeight s.stack + n

theorem Leaves.next {n : Nat} (h : dueWeight t.stack ≤ dueWeight s.stack + n) : Leaves s n (.next t) := by
  intro u hu; cases hu; exact h
theorem Leaves.same {n : Nat} (h : t.stack = s.stack) : Leaves s n (.next t) := .next (by rw [h]; omega)
theorem Leaves.refused {n : Nat} {q : Refusal} : Leaves s n (.refused q) := by intro u hu; cases hu
theorem Leaves.mono {m n : Nat} {r : Res} (h : Leaves s m r) (hmn : m ≤ n) : Leaves s n r :=
  fun t ht => (h t ht).trans (by omega)
theorem Leaves.of {n : Nat} {r : Res} {u : State} (h : Leaves u n r) (hu : u.stack = s.stack) : Leaves s n r := by
  intro t ht; rw [← hu]; exact h t ht

/-- One more frame in front. -/
theorem dueWeight_push (f : Frame) (s : State) : dueWeight (s.push [f]).stack ≤ dueWeight s.stack + f.weight := by
  have := dueWeight_cons_le f s.stack
  simp only [State.push_stack, List.cons_append, List.nil_append]
  omega

theorem leaves_wrfifo (e : EpNum) (s : State) : Leaves s 0 (wrfifoBody e s) := by
  intro t ht
  unfold wrfifoBody at ht
  split at ht
  · cases ht
  · split at ht
    · obtain ⟨u, hu, hr⟩ := thenDo_eq_next ht
      cases hr
      have := fifoPushAll_stack hu
      unfold wrfifoFinish
      simp only
      split
      · refine (complete_weight _ _ _ _).trans ?_
        split <;> simp [this]
      · simp [this]
    · cases ht

theorem leaves_rdfifo (e : EpNum) (s : State) : Leaves s 0 (rdfifoBody e s) := by
  intro t ht
  unfold rdfifoBody at ht
  split at ht
  · cases ht
  · split at ht
    · cases ht
      unfold rdfifoMove rdfifoFinish
      simp only
      split
      · refine (complete_weight _ _ _ _).trans ?_
        split <;> simp
      · simp
    · cases ht

theorem leaves_service (e : EpNum) (s : State) : Leaves s 0 (serviceBody e s) := by
  unfold serviceBody
  split
  · exact .same rfl
  · simp only
    split
    · split
      · exact .same (by simp)
      · exact (leaves_wrfifo _ _).of (by simp)
    · split
      · exact (leaves_rdfifo _ _).of (by simp)
      · exact .same (by simp)

theorem leaves_nuke (f : Frame) (e : EpNum) (k : Kind) (s u : State) (hu : u.stack = s.stack) :
    Leaves s f.weight (.next (nuke e k (u.push [f]))) := by
  refine .next ((nuke_weight _ _ _).trans ?_)
  rw [← hu]; exact dueWeight_push f u

theorem leaves_ep0Switch (c : Csr) (s : State) : Leaves s 3 (ep0Switch c s) := by
  unfold ep0Switch
  split
  · split
    · exact leaves_nuke .ep0ReadSetup _ _ s s rfl
    · exact .same rfl
  · split
    · exact (leaves_wrfifo _ _).mono (by omega)
    · exact .same rfl
  · split
    · exact (leaves_rdfifo _ _).mono (by omega)
    · exact .same rfl
  all_goals exact .same (by simp)

theorem leaves_ep0AfterStallTest (c : Csr) (s : State) : Leaves s 3 (ep0AfterStallTest c s) := by
  unfold ep0AfterStallTest
  split
  · exact (leaves_nuke .ep0Idle _ _ s _ (by simp)).mono (by simp [Frame.weight])
  · exact leaves_ep0Switch _ _

theorem leaves_ep0h (s : State) : Leaves s 4 (ep0hBody s) := by
  unfold ep0hBody
  simp only
  split
  · exact leaves_nuke (.ep0AfterStall _) _ _ s _ (by simp)
  · exact ((leaves_ep0AfterStallTest _ _).of (by simp)).mono (by omega)

theorem leaves_ep0Reply (bs : List Byte) (s : State) : Leaves s 0 (ep0Reply bs s) := by
  intro t ht
  obtain ⟨u, hu, hr⟩ := thenDo_eq_next ht
  cases hr
  simp [fifoPushAll_stack hu]

theorem leaves_configCall (pkt : SetupPkt) (s : State) : Leaves s 1 (configCall pkt s) := by
  unfold configCall
  split
  · split
    · exact .same (by simp)
    · exact .next (by simp)
  · exact .same (by simp)

theorem leaves_request (i : Instr) (s : State) : Leaves s 1 (runRequest i s) := by
  cases i
  case getStatusDev => exact (leaves_ep0Reply _ s).mono (by omega)
  case getStatusEp =>
    unfold runRequest reqGetStatusEp
    simp only
    split
    · exact .same (by simp)
    · exact (leaves_ep0Reply _ s).mono (by omega)
  case getConfiguration => exact (leaves_ep0Reply _ s).mono (by omega)
  case clearFeatureHalt =>
    unfold runRequest reqClearFeatureHalt
    simp only
    split
    · exact .same (by simp)
    · exact .same (by split <;> simp)
  case setFeatureHalt =>
    unfold runRequest reqSetFeatureHalt
    simp only
    split
    · exact .same (by simp)
    · split <;> exact .same (by simp)
  case setConfiguration => exact (leaves_configCall _ _).of (by simp)
  case setInterface => exact leaves_configCall _ s
  case forward =>
    unfold runRequest reqForward
    simp only
    split
    · exact .same (by simp)
    · exact .next (by simp)
  all_goals exact .same (by simp [ep0Stall, ep0Ack])

theorem enableController_stack (s : State) : (enableController s).stack = s.stack := by simp [enableController]

@[simp] theorem udcCommand_stack (v : Bool) (s : State) : (udcCommand v s).stack = s.stack := by
  unfold udcCommand; split <;> simp

theorem disableController_stack (s : State) : (disableController s).stack = s.stack := by simp [disableController]

theorem leaves_op (o : IntOp) (s : State) : Leaves s ((Frame.op o).weight - 1) (runOp o s) := by
  cases o with
  | wrfifo e => exact leaves_wrfifo e s
  | rdfifo e => exact leaves_rdfifo e s
  | done e h k =>
    unfold runOp doneBody
    simp only
    split
    · exact .next (complete_weight _ _ _ _)
    · exact .refused
  | nuke e k => exact .next (nuke_weight _ _ _)
  | ep0h => exact leaves_ep0h s
  | epnh e =>
    refine (leaves_service _ _).of ?_
    split <;> simp
  | ctlen => exact .same (enableController_stack s)
  | ctldis => exact .same (disableController_stack s)
  | ep0stall => exact .same (by simp)
  | service e => exact leaves_service e s

/-- Running a frame that is due leaves less due than it stood for. -/
theorem leaves_frame (f : Frame) (s : State) (hf : f.isCallback = false) : Leaves s (f.weight - 1) (runFrame f s) := by
  cases f with
  | callback c => cases hf
  | op o => exact leaves_op o s
  | setup b => exact leaves_request _ s
  | nukeRest e k hs => exact .next (nukeFrom_weight _ _ _ _)
  | ret v => exact .same (by simp)
  | dispatchExit v => exact .same (by simp [leaveDispatch])
  | notifyResume => refine .next ?_; unfold notifyResume; split <;> simp
  | notifySuspend => refine .next ?_; unfold notifySuspend; split <;> simp
  | ep0AfterStall c => exact (leaves_ep0AfterStallTest c _).of (by simp)
  | ep0Idle => exact .same (by simp)
  | ep0ReadSetup =>
    refine .next ?_
    unfold ep0ReadSetup
    simp only
    split
    · simp
    · exact (dueWeight_push _ _).trans (by simp [Frame.weight])
  | afterConfig => refine .same ?_; unfold afterConfig; split <;> simp
  | afterForward => refine .same ?_; unfold afterForward; split <;> simp
  | afterBind => refine .same ?_; unfold afterBind; split <;> simp [enableController_stack]
  | disableTail e => exact .same (by simp [disableTail])
  | unregMain es =>
    refine .next ((dueWeight_push _ _).trans ?_)
    simp [disableController_stack, Frame.weight]
  | flushRest es =>
    refine .next ?_
    unfold flushRest disableStart
    split
    · refine (nuke_weight _ _ _).trans ((dueWeight_push _ _).trans ?_)
      simp [Frame.weight]
    · split
      · refine (nuke_weight _ _ _).trans ((dueWeight_push _ _).trans ?_)
        rename_i e rest _
        have := dueWeight_push (.flushRest rest) s
        simp only [enabledClear_stack, Frame.weight, List.length_cons] at *
        omega
      · refine (dueWeight_push _ _).trans ?_
        simp only [Frame.weight, List.length_cons]
        omega
  | unregUnbind =>
    refine .next ?_
    unfold unregUnbind
    have := dueWeight_push .unregEnd (s.setEp0State .idle)
    simp only [State.setEp0State_stack, Frame.weight] at *
    split
    · simp
    · omega
  | unregEnd => exact .same (by simp [unregEnd])

theorem weight_pos {f : Frame} (hf : f.isCallback = false) : 1 ≤ f.weight := by
  cases f with
  | callback c => cases hf
  | op o => cases o <;> simp [Frame.weight]
  | _ => simp [Frame.weight]

/-! ## Settling -/

/-- With as many turns as there is weight due, running ends with nothing due. -/
theorem runPending_settles (n : Nat) (s : State) (hn : dueWeight s.stack ≤ n) (h : runPending n s = .next t) :
    t.settled = true := by
  induction n generalizing s with
  | zero =>
    cases h
    unfold State.settled
    split
    · rfl
    · rename_i f fs hs
      rw [hs, dueWeight] at hn
      by_contra hf
      have := weight_pos (f := f) (by simpa using hf)
      simp [hf] at hn
      omega
  | succ n ih =>
    unfold runPending at h
    split at h
    · cases h; rename_i hs; simp [State.settled, hs]
    · rename_i f fs hs
      split at h
      · cases h; simp [State.settled, *]
      · rename_i hf
        obtain ⟨u, hu, hr⟩ := thenDo_eq_next h
        refine ih u ?_ hr
        have h1 := leaves_frame f _ (by simpa using hf) u hu
        have h2 := weight_pos (f := f) (by simpa using hf)
        rw [hs, dueWeight, if_neg hf] at hn
        simp only at h1
        omega

/-- More turns than needed change nothing. -/
theorem runPending_enough (m n : Nat) (s : State) (hm : dueWeight s.stack ≤ m) (hn : dueWeight s.stack ≤ n) :
    runPending m s = runPending n s := by
  induction m generalizing n s with
  | zero =>
    have hz : ∀ k, runPending k s = .next s := by
      intro k
      cases k with
      | zero => rfl
      | succ k =>
        unfold runPending
        split
        · rfl
        · rename_i f fs hs
          rw [hs, dueWeight] at hm
          split
          · rfl
          · rename_i hf
            have := weight_pos (f := f) (by simpa using hf)
            simp [hf] at hm
            omega
    rw [hz, hz]
  | succ m ih =>
    match hs : s.stack with
    | [] => cases n <;> simp [runPending, hs]
    | f :: fs =>
      cases hf : f.isCallback with
      | true => cases n <;> simp [runPending, hs, hf]
      | false =>
        have hw := weight_pos hf
        have hd : dueWeight s.stack = f.weight + dueWeight fs := by rw [hs, dueWeight, hf]; simp
        cases n with
        | zero => omega
        | succ n =>
          simp only [runPending, hs, hf]
          cases hr : runFrame f { s with stack := fs } with
          | next u =>
            have h1 := leaves_frame f _ hf u hr
            simp only at h1
            simp only [thenDo_next]
            exact ih n u (by omega) (by omega)
          | fault q => rfl
          | refused q => rfl

theorem settle_settles (h : settle s = .next t) : t.settled = true :=
  runPending_settles _ s (dueWeight_le_stackWeight _) h

/-- Settling runs the innermost due frame, then settles what is left. -/
theorem settle_cons {f : Frame} {fs : List Frame} (hs : s.stack = f :: fs) (hf : f.isCallback = false) :
    settle s = thenDo (runFrame f { s with stack := fs }) settle := by
  have hw := weight_pos hf
  have hd : dueWeight s.stack = f.weight + dueWeight fs := by rw [hs, dueWeight, hf]; simp
  have hle := dueWeight_le_stackWeight s.stack
  obtain ⟨n, hn⟩ : ∃ n, stackWeight s.stack = n + 1 := ⟨stackWeight s.stack - 1, by omega⟩
  unfold settle
  rw [hn]
  simp only [runPending, hs, hf]
  cases hr : runFrame f { s with stack := fs } with
  | next u =>
    have h1 := leaves_frame f _ hf u hr
    simp only at h1
    simp only [thenDo_next]
    exact runPending_enough _ _ _ (by omega) (dueWeight_le_stackWeight _)
  | fault q => rfl
  | refused q => rfl

/-- An operation run to its end leaves nothing due. -/
theorem runToEnd_settles {r : Res} (h : runToEnd r = .next t) : t.settled = true := by
  obtain ⟨u, _, hr⟩ := thenDo_eq_next h
  exact settle_settles hr

end Sys2Proof.Machine
end

