-- ==== Sys2Proof/Laws/Quiet.lean ====
section
/-! SUPPORT. Each shared operation with nothing interleaved: its effect in the terms of Safety.lean, said once. -/

namespace Sys2Proof.Machine

variable {s : State}

/-- Settled is a property of the stack. -/
theorem settled_of_stack {t : State} (h : s.settled = true) (ht : t.stack = s.stack) : t.settled = true := by
  unfold State.settled at *
  rw [ht]
  exact h

/-- An operation whose own part leaves the stack alone is at its end. -/
theorem runToEnd_settled {t : State} (h : s.settled = true) (ht : t.stack = s.stack) : runToEnd (.next t) = .next t :=
  settle_settled (settled_of_stack h ht)

/-- An operation whose own part ends in a callback is at its end. -/
theorem settle_callback {t : State} {c : Callback} {fs : List Frame} (ht : t.stack = .callback c :: fs) :
    settle t = .next t := settle_settled (by simp [State.settled, ht, Frame.isCallback])

/-! ## EP0 answers -/

/-- A write that clears no SETUP_END does not raise EP_EVT again. -/
theorem not_reraises {u : CsrUpdate} (h : u.setupEnd ≠ some false) (w : Hw) : w.reraises u = false := by
  cases hs : u.setupEnd with
  | none => simp [Hw.reraises, hs]
  | some b => cases b <;> simp_all [Hw.reraises]

theorem csrWrite_quiet (e : EpNum) (u : CsrUpdate) (h : s.race = []) (hu : u.setupEnd ≠ some false) :
    csrWrite e u s = State.setHw e (Hw.csrWrite (e == 0) u) { s with index := e } := by
  simp [csrWrite_nil _ _ h, State.applyCsr_eq, not_reraises hu, State.setHw]

/-- A written OPR 0, alone. -/
theorem csrWrite_release (ep0 : Bool) : Hw.csrWrite ep0 { opr := some false } = Hw.released := by
  funext w
  rcases w with ⟨_, ⟨_ | _, _, _, _, _, _⟩, _, _, _⟩ <;> simp [Hw.csrWrite, Hw.discards, Hw.released]

theorem ep0Stall_quiet (h : s.race = []) : ep0Stall s = s.afterEp0Stall := by
  rw [ep0Stall, csrWrite_quiet _ _ h (by simp)]
  simp only [State.setEp0State, State.setDev, State.afterEp0Stall, State.setHw]
  congr 2
  funext w
  rcases w with ⟨_, ⟨_ | _, _, _, _, _, _⟩, _, _, _⟩ <;> simp [Hw.csrWrite, Hw.discards, Hw.released]

theorem ep0Ack_quiet (h : s.race = []) : ep0Ack s = s.afterEp0Ack := by
  rw [ep0Ack, csrWrite_quiet _ _ h (by simp)]
  simp only [State.afterEp0Ack, State.setHw]
  congr 2
  funext w
  rcases w with ⟨_, ⟨_ | _, _, _, _, _, _⟩, _, _, _⟩ <;> simp [Hw.csrWrite, Hw.discards, Hw.released]

/-- Pushing a packet's bytes appends them. -/
theorem fifoPushAll_quiet (e : EpNum) (bs : List Byte) (h : s.race = []) (hl : e.toNat < s.hw.length)
    (hf : (s.hwAt e).fifo.length + bs.length ≤ s.params.fifoSize e) :
    fifoPushAll e bs s = .next (s.setHw e fun w => { w with fifo := w.fifo ++ bs }) := by
  induction bs generalizing s with
  | nil =>
    have : s.setHw e (fun w => { w with fifo := w.fifo ++ [] }) = s := by
      simp only [List.append_nil, State.setHw, show (fun w : Hw => ({ w with fifo := w.fifo } : Hw)) = id from rfl,
        List.modify_id]
    rw [this]; rfl
  | cons b bs ih =>
    simp only [List.length_cons] at hf
    have h2 := State.hwAt_setHw_self (s := s) (f := fun w => { w with fifo := w.fifo ++ [b] }) hl
    rw [fifoPushAll, fifoPush, State.turn_nil h, if_pos (by omega), thenDo_next, ih (by simpa using h) (by simpa using hl)
      (by rw [h2]; simp only [List.length_append, List.length_cons, List.length_nil, State.setHw_params]; omega),
      State.setHw_setHw]
    congr 2
    funext w
    simp

theorem markReady_quiet (e : EpNum) (last : Bool) (h : s.race = []) :
    markReady e last s = State.setHw e (fun w =>
      { w with csr := { w.csr with
          ipr := true, dataEnd := w.csr.dataEnd || (e == 0 && last && !s.busEvt.getLsbD 2) } }) { s with index := e } := by
  have key : ∀ (u : CsrUpdate) (d : Bool), (∀ w : Hw, w.csrWrite (e == 0) u =
      { w with csr := { w.csr with ipr := true, dataEnd := w.csr.dataEnd || d } }) → u.setupEnd ≠ some false →
      csrWrite e u s = State.setHw e (fun w =>
        { w with csr := { w.csr with ipr := true, dataEnd := w.csr.dataEnd || d } }) { s with index := e } := by
    intro u d hw hu
    rw [csrWrite_quiet e u h hu]
    congr 1
    funext w
    exact hw w
  unfold markReady
  by_cases h0 : e = 0
  · subst h0
    cases last with
    | false => simpa using key { ipr := some true } false (by intro w; simp [Hw.csrWrite, Hw.discards]) (by simp)
    | true =>
      simp only [State.turn_nil h, evtReset]
      cases hb : s.busEvt.getLsbD 2 with
      | false =>
        simpa [hb] using key { ipr := some true, dataEnd := some true } true
          (by intro w; simp [Hw.csrWrite, Hw.discards]) (by simp)
      | true => simpa [hb] using key { ipr := some true } false (by intro w; simp [Hw.csrWrite, Hw.discards]) (by simp)
  · have hz : (e == 0) = false := beq_eq_false_iff_ne.mpr h0
    have hk := key { ipr := some true } false (by intro w; simp [Hw.csrWrite, Hw.discards]) (by simp)
    simp only [hz, Bool.false_and, Bool.or_false, if_false, Bool.false_eq_true] at hk ⊢
    exact hk

theorem ep0Reply_quiet (bytes : List Byte) (h : s.race = []) (hl : 0 < s.hw.length)
    (hf : (s.hwAt 0).released.fifo.length + bytes.length ≤ s.params.fifoSize 0) :
    ep0Reply bytes s = .next (s.afterEp0Reply bytes) := by
  have hw := State.hwAt_setHw_self (s := { s with index := 0 }) (e := 0) (f := Hw.released) hl
  unfold ep0Reply
  rw [csrWrite_quiet _ _ h (by simp), csrWrite_release, fifoPushAll_quiet 0 bytes (by simpa using h) (by simpa using hl)
    (by rw [hw]; exact hf), thenDo_next, markReady_quiet _ _ (by simpa using h), State.setHw_setHw]
  simp only [State.afterEp0Reply, State.setHw, List.modify_modify_eq, show (0 : EpNum).toNat = 0 from rfl]
  congr 3
  funext w
  rcases w with ⟨_, ⟨_ | _, _, _, _, _, _⟩, _, _, _⟩ <;> simp [Hw.released]

theorem haltHw_quiet (e : EpNum) (v : Bool) (h : s.race = []) :
    haltHw e v s =
      { s with
        index := e
        eps := s.eps.modify e.toNat fun p => { p with halted := v }
        hw := s.hw.modify e.toNat fun w =>
          { w with csr := { w.csr with sendStall := v }, toggle := if v || e == 0 then w.toggle else .data0 } } := by
  unfold haltHw
  rw [csrWrite_quiet _ _ h (by split <;> simp)]
  simp only [State.setEp, State.setHw]
  congr 2
  funext w
  cases v <;> cases hz : (e == 0) <;> simp [Hw.csrWrite, Hw.discards]

/-! ## Completion -/

/-- The record of a completed request. -/
theorem retire_reqs (e : EpNum) (h : Handle) (k : Kind) :
    (s.retire e h k).reqs = s.reqs.modify h.toNat fun r =>
      { r with status := if (s.reqAt h).status = .inProgress then .finished k else (s.reqAt h).status, ep := none } := by
  refine List.ext_getElem? fun i => ?_
  simp only [State.retire, State.logDone_reqs, State.setReq_reqs, State.setEp_reqs, List.modify_modify_eq,
    List.getElem?_modify, Function.comp_apply]
  by_cases hi : h.toNat = i
  · subst hi
    cases hr : s.reqs[h.toNat]? with
    | none => simp
    | some r =>
      simp only [State.reqAt, hr, Option.getD_some]
      by_cases hp : r.status = .inProgress <;> simp [hp]
  · simp [hi]

/-- The trace entry of a completed request. -/
theorem retire_doneLog (e : EpNum) (h : Handle) (k : Kind) :
    (s.retire e h k).doneLog = s.doneLog ++ [(h, if (s.reqAt h).status = .inProgress then .finished k
      else (s.reqAt h).status, (s.reqAt h).transferred)] := by
  simp only [State.retire, State.logDone_doneLog, State.setReq_doneLog, State.setEp_doneLog]
  by_cases hl : h.toNat < s.reqs.length
  · rw [State.reqAt_setReq_self (by simpa using hl), State.reqAt_setReq_self (by simpa using hl)]
    by_cases hp : (s.reqAt h).status = .inProgress <;> simp [hp]
  · have key : ∀ (u : State), u.reqs.length = s.reqs.length → u.reqAt h = Req.free := by
      intro u hu; simp [State.reqAt, hu, hl]
    rw [key _ (by simp), key s rfl]
    simp [Req.free]

/-- `done` on a request (40_fifo_engine.md R94). -/
theorem complete_eq (e : EpNum) (h : Handle) (k : Kind) :
    complete e h k s = s.afterDone e h k := by
  have hr : s.retire e h k = { s with
      eps := s.eps.modify e.toNat fun p => { p with queue := p.queue.erase h }
      reqs := (s.retire e h k).reqs
      doneLog := (s.retire e h k).doneLog } := rfl
  rw [retire_reqs, retire_doneLog] at hr
  unfold complete State.afterDone
  simp only [retire_complete]
  rw [hr]
  split <;> rfl

/-- `nuke` over requests that are all in progress, in the queue, and without a callback. -/
theorem nukeFrom_quiet (e : EpNum) (k : Kind) (hs : List Handle) (hl : e.toNat < s.eps.length)
    (hq : (s.epAt e).queue = hs) (hnd : hs.Nodup)
    (hr : ∀ h ∈ hs, h.toNat < s.reqs.length ∧ (s.reqAt h).status = .inProgress ∧ (s.reqAt h).complete = false) :
    nukeFrom e k hs s = s.afterNuke e k := by
  induction hs generalizing s with
  | nil =>
    have : s.eps.modify e.toNat (fun p => { p with queue := [] }) = s.eps := by
      refine List.ext_getElem? fun i => ?_
      rw [List.getElem?_modify]
      by_cases hi : e.toNat = i
      · subst hi
        simp only [State.epAt, List.getElem?_eq_getElem hl, Option.getD_some] at hq
        simp [List.getElem?_eq_getElem hl, ← hq]
      · simp [hi]
    simp [nukeFrom, State.afterNuke, hq, this]
  | cons h hs ih =>
    obtain ⟨_, h2, h3⟩ := hr h (List.mem_cons_self ..)
    obtain ⟨hn, hnd'⟩ := List.nodup_cons.mp hnd
    have hc : complete e h k s = s.afterDone e h k := complete_eq e h k
    have hd : s.afterDone e h k = { s with
        eps := s.eps.modify e.toNat fun p => { p with queue := p.queue.erase h }
        reqs := s.reqs.modify h.toNat fun r => { r with status := .finished k, ep := none }
        doneLog := s.doneLog ++ [(h, .finished k, (s.reqAt h).transferred)] } := by
      simp [State.afterDone, h2, h3]
    have hqe : ((s.afterDone e h k).epAt e).queue = hs := by
      rw [hd]
      have := State.epAt_setEp_self (s := s) (f := fun p => { p with queue := p.queue.erase h }) hl
      show ((s.setEp e fun p => { p with queue := p.queue.erase h }).epAt e).queue = hs
      rw [this, hq]
      simp
    have hre : ∀ h' ∈ hs, (s.afterDone e h k).reqAt h' = s.reqAt h' := by
      intro h' hh
      rw [hd]
      exact State.reqAt_setReq_ne (s := s) (f := fun r => { r with status := .finished k, ep := none })
        (fun hx => hn (hx ▸ hh))
    unfold nukeFrom
    rw [if_pos (by rw [hq]; exact List.mem_cons_self ..), if_neg (by simp [h3]), hc,
      ih (by rw [hd]; simpa using hl) hqe hnd' fun h' hh => ?_]
    · have hmap : (hs.map fun h' => (h', Status.finished k, ((s.afterDone e h k).reqAt h').transferred)) =
          hs.map fun h' => (h', Status.finished k, (s.reqAt h').transferred) :=
        List.map_congr_left fun h' hh => by rw [hre h' hh]
      simp only [State.afterNuke, hqe, hq, hmap]
      rw [hd]
      simp only [List.map_cons, List.foldl_cons, List.modify_modify_eq, List.append_assoc, List.singleton_append]
      congr 2
    · rw [hre h' hh]
      obtain ⟨a, b, c⟩ := hr h' (List.mem_cons_of_mem _ hh)
      exact ⟨by rw [hd]; simpa using a, b, c⟩

theorem nuke_quiet (e : EpNum) (k : Kind) (hsh : s.Shaped) (hq : s.QueuesSound) (hn : s.NoCallbacks e) :
    nuke e k s = s.afterNuke e k := by
  by_cases hl : e.toNat < s.eps.length
  · refine nukeFrom_quiet e k _ hl rfl (hq.nodup e) fun h hh => ?_
    obtain ⟨a, b, _, _⟩ := hq.queued e h hh
    exact ⟨by rw [hsh.reqs]; exact a, b, hn h hh⟩
  · have he : (s.epAt e).queue = [] := by simp [State.epAt, hl, Ep.disabled]
    have hm : s.eps.modify e.toNat (fun p => { p with queue := [] }) = s.eps := by
      refine List.ext_getElem? fun i => ?_
      rw [List.getElem?_modify]
      by_cases hi : e.toNat = i
      · subst hi; simp [hl]
      · simp [hi]
    simp [nuke, nukeFrom, State.afterNuke, he, hm]

/-! ## The FIFO engine -/

theorem classify_last (n t l m : Nat) (z : Bool) :
    (classify n t l z m != .continues) = (decide (n < m) || (t == l && !z)) := by
  unfold classify
  by_cases h1 : n < m
  · simp [h1]
  · by_cases h2 : t = l <;> cases z <;> simp [h1, h2]

theorem wrfifo_quiet (e : EpNum) (h : Handle) (hs : s.Shaped) (hr : s.race = []) (hh : s.head e = some h)
    (hw : wrfifoReady e s = true)
    (hf : (s.hwAt e).fifo.length + (s.nextPacket e h).length ≤ s.params.fifoSize e) :
    wrfifoBody e s = .next (s.afterWrite e h) := by
  have hl : e.toNat < s.eps.length := by
    by_contra hc
    have : s.epAt e = Ep.disabled e := by simp [State.epAt, Nat.not_lt.mp hc]
    simp [State.head, this, Ep.disabled] at hh
  have hhw : e.toNat < s.hw.length := by rw [hs.hw, ← hs.eps]; exact hl
  have hn : wrfifoCount e h s = (s.nextPacket e h).length := by simp [wrfifoCount, State.nextPacket]
  have hb : s.readBuf h (s.reqAt h).transferred.toNat (wrfifoCount e h s) = s.nextPacket e h := rfl
  unfold wrfifoBody
  rw [hh]
  simp only [hw, if_true]
  rw [hb, fifoPushAll_quiet _ _ hr hhw hf, thenDo_next]
  unfold wrfifoFinish
  simp only [State.setHw_reqAt, State.setHw_epAt, hn, classify_last]
  change Host.Outcome.next (if s.lastPacket e h = true then _ else _) = _
  rw [show (decide ((s.nextPacket e h).length < (s.epAt e).maxp.toNat) ||
    ((s.reqAt h).transferred.toNat + (s.nextPacket e h).length == (s.reqAt h).length.toNat && !(s.reqAt h).zlp)) =
      s.lastPacket e h from rfl]
  rw [markReady_quiet _ _ (by simpa using hr)]
  unfold State.afterWrite
  cases hlast : s.lastPacket e h with
  | false =>
    simp only [State.setHw, State.setReq, List.modify_modify_eq, Bool.and_false, Bool.false_and, if_false,
      Bool.false_eq_true]
    congr 3
  | true =>
    simp only [if_true, Bool.and_true]
    rw [complete_eq]
    congr 2
    cases hz : (e == 0) with
    | true =>
      simp only [State.setHw, State.setReq, State.setEp0State, State.setDev, List.modify_modify_eq, if_true, Bool.true_and]
      congr 2
    | false =>
      simp only [State.setHw, State.setReq, List.modify_modify_eq, Bool.false_eq_true, if_false, Bool.false_and]
      congr 2

/-- Popping a packet's bytes takes them from the front of the FIFO. -/
theorem drainInto_quiet (e : EpNum) (h : Handle) (i n : Nat) (hr : s.race = []) (hl : e.toNat < s.hw.length)
    (hf : n ≤ (s.hwAt e).fifo.length) :
    drainInto e h i n s = { s with
      hw := s.hw.modify e.toNat fun w => { w with fifo := w.fifo.drop n }
      mem := (((s.hwAt e).fifo.take n).zipIdx).foldl (fun m c => m.write (bufAddr h (i + c.2)) c.1) s.mem } := by
  induction n generalizing i s with
  | zero =>
    have : s.hw.modify e.toNat (fun w => { w with fifo := w.fifo.drop 0 }) = s.hw := by
      simp only [List.drop_zero, show (fun w : Hw => ({ w with fifo := w.fifo } : Hw)) = id from rfl, List.modify_id]
    rw [this]
    rfl
  | succ n ih =>
    match hq : (s.hwAt e).fifo with
    | [] => rw [hq] at hf; simp at hf
    | b :: rest =>
      have hp : fifoPop e s = (b, s.setHw e ({ · with fifo := rest })) := by
        unfold fifoPop
        simp only [State.turn_nil hr, hq]
      have h2 := State.hwAt_setHw_self (s := s) (f := fun w => { w with fifo := rest }) hl
      have h3 : (((s.setHw e ({ · with fifo := rest })).writeBuf h i b).hwAt e).fifo = rest := by
        rw [State.writeBuf_hwAt, h2]
      unfold drainInto
      simp only [hp]
      rw [ih (i + 1) (by simpa using hr) (by simpa using hl) (by rw [h3]; rw [hq] at hf; simpa using hf), h3]
      simp only [State.writeBuf, State.setHw, List.modify_modify_eq, List.take_succ_cons, List.zipIdx_cons,
        List.foldl_cons]
      have hm : s.hw.modify e.toNat ((fun w => { w with fifo := w.fifo.drop n }) ∘ fun w => { w with fifo := rest }) =
          s.hw.modify e.toNat fun w => { w with fifo := w.fifo.drop (n + 1) } := by
        refine List.ext_getElem? fun j => ?_
        simp only [List.getElem?_modify]
        by_cases hj : e.toNat = j
        · subst hj
          simp only [State.hwAt, List.getElem?_eq_getElem hl, Option.getD_some] at hq
          simp [List.getElem?_eq_getElem hl, hq]
        · simp [hj]
      rw [hm]
      have hz : ∀ (l : List Byte) (m : Memory) (j : Nat),
          (l.zipIdx j).foldl (fun m c => m.write (bufAddr h (i + 1 + c.2)) c.1) m =
            (l.zipIdx (j + 1)).foldl (fun m c => m.write (bufAddr h (i + c.2)) c.1) m := by
        intro l
        induction l with
        | nil => intro m j; rfl
        | cons x l ihl =>
          intro m j
          simp only [List.zipIdx_cons, List.foldl_cons]
          rw [ihl, show i + 1 + j = i + (j + 1) by omega]
      rw [hz]
      simp

/-- The write that releases an OUT packet. -/
theorem csrWrite_releaseLast {w : Hw} (ep0 last : Bool) (ho : w.csr.opr = true) (hl : last = true → ep0 = true) :
    w.csrWrite ep0 { opr := some false, dataEnd := if last then some true else none } =
      { w with csr := { w.csr with opr := false, dataEnd := w.csr.dataEnd || last }, fifo := [], cnt := 0 } := by
  cases last with
  | false => simp [Hw.csrWrite, Hw.discards, ho]
  | true => simp [Hw.csrWrite, Hw.discards, ho, hl rfl]

theorem rdfifoFinish_quiet (e : EpNum) (h : Handle) (cnt n : Nat) (hr : s.race = []) (hl : e.toNat < s.hw.length)
    (ho : (s.csrAt e).opr = true) :
    let room := (s.reqAt h).length.toNat - (s.reqAt h).transferred.toNat
    let finished := rdfifoFinishes (e == 0) cnt room ((s.reqAt h).transferred.toNat + n) (s.reqAt h).length.toNat
      (s.epAt e).maxp.toNat
    let t : State := { s with
      index := e
      reqs := s.reqs.modify h.toNat fun r => { r with transferred := BitVec.ofNat 32 ((s.reqAt h).transferred.toNat + n) }
      hw := s.hw.modify e.toNat fun w =>
        { w with csr := { w.csr with opr := false, dataEnd := w.csr.dataEnd || (e == 0 && finished) }, fifo := [], cnt := 0 }
      dev := if e == 0 && finished then { s.dev with ep0state := .idle } else s.dev }
    rdfifoFinish e h cnt n s = if finished then t.afterDone e h (if room < cnt then .overflow else .ok) else t := by
  intro room finished t
  have hm : ∀ d : Bool, (d = true → (e == 0) = true) →
      s.hw.modify e.toNat (Hw.csrWrite (e == 0) { opr := some false, dataEnd := if d then some true else none }) =
      s.hw.modify e.toNat fun w =>
        { w with csr := { w.csr with opr := false, dataEnd := w.csr.dataEnd || d }, fifo := [], cnt := 0 } := by
    intro d hd
    refine List.ext_getElem? fun j => ?_
    simp only [List.getElem?_modify]
    by_cases hj : e.toNat = j
    · subst hj
      simp only [State.csrAt, State.hwAt, List.getElem?_eq_getElem hl, Option.getD_some] at ho
      simp only [List.getElem?_eq_getElem hl, if_true, Option.map_eq_map, Option.map_some]
      exact congrArg some (csrWrite_releaseLast _ _ ho hd)
    · simp [hj]
  unfold rdfifoFinish
  simp only
  rw [csrWrite_quiet _ _ (by simpa using hr) (by simp), complete_eq]
  simp only [State.setHw, State.setReq, State.setEp0State, State.setDev]
  rw [hm _ (fun h => by revert h; cases (e == 0) <;> simp)]
  simp only [t, finished, room]
  cases hf : rdfifoFinishes (e == 0) cnt ((s.reqAt h).length.toNat - (s.reqAt h).transferred.toNat)
    ((s.reqAt h).transferred.toNat + n) (s.reqAt h).length.toNat (s.epAt e).maxp.toNat with
  | false =>
    simp only [Bool.and_false, Bool.false_eq_true, if_false]
  | true =>
    simp only [Bool.and_true, if_true]
    congr 1
    cases (e == 0) <;> rfl

theorem rdfifo_quiet (e : EpNum) (h : Handle) (hs : s.Shaped) (hr : s.race = []) (hh : s.head e = some h)
    (ho : (s.csrAt e).opr = true) (he : e = 0 → s.dev.ep0state = .outData)
    (hc : (s.hwAt e).cnt = (s.hwAt e).fifo.length) :
    rdfifoBody e s = .next (s.afterRead e h) := by
  have hl : e.toNat < s.eps.length := by
    by_contra hc
    have : s.epAt e = Ep.disabled e := by simp [State.epAt, Nat.not_lt.mp hc]
    simp [State.head, this, Ep.disabled] at hh
  have hhw : e.toNat < s.hw.length := by rw [hs.hw, ← hs.eps]; exact hl
  have hw : rdfifoReady e s = true := by
    unfold rdfifoReady
    rw [ho]
    by_cases h0 : e = 0
    · simp [h0, he h0]
    · simp only [bne_iff_ne.mpr h0, Bool.true_or, Bool.and_self]
  unfold rdfifoBody
  rw [hh]
  simp only [hw, if_true]
  congr 1
  have hm : min (s.hwAt e).cnt ((s.reqAt h).length.toNat - (s.reqAt h).transferred.toNat) ≤ (s.hwAt e).fifo.length := by
    rw [← hc]; exact Nat.min_le_left _ _
  unfold rdfifoMove
  simp only [State.select_nil e hr]
  change rdfifoFinish e h (s.hwAt e).cnt
    (min (s.hwAt e).cnt ((s.reqAt h).length.toNat - (s.reqAt h).transferred.toNat))
    (drainInto e h (s.reqAt h).transferred.toNat
      (min (s.hwAt e).cnt ((s.reqAt h).length.toNat - (s.reqAt h).transferred.toNat)) { s with index := e }) = _
  unfold State.afterRead
  simp only
  generalize min (s.hwAt e).cnt ((s.reqAt h).length.toNat - (s.reqAt h).transferred.toNat) = n at hm ⊢
  rw [drainInto_quiet (s := { s with index := e }) e h _ _ hr hhw hm]
  have ho' : ((State.setHw e (fun w => { w with fifo := w.fifo.drop n }) s).csrAt e).opr = true := by
    rw [State.csrAt, State.hwAt_setHw_self hhw]; exact ho
  generalize hu : ({ s with
    index := e
    hw := s.hw.modify e.toNat fun w => { w with fifo := w.fifo.drop n }
    mem := _ } : State) = u
  have hu1 : u.race = [] := by rw [← hu]; exact hr
  have hu2 : e.toNat < u.hw.length := by rw [← hu]; simpa using hhw
  have hu3 : (u.csrAt e).opr = true := by rw [← hu]; exact ho'
  refine (rdfifoFinish_quiet e h _ _ hu1 hu2 hu3).trans ?_
  rw [← hu]
  unfold rdfifoFinishes
  simp only [List.modify_modify_eq]
  rfl

end Sys2Proof.Machine
end

