-- ==== Sys2Proof/Machine/Asm.lean ====
section
/-! DEFINITION. The assembler syntax of 30_encoding.md R82: the line a client or bus operation is written as. -/

namespace Sys2Proof.Machine

/-- One hexadecimal digit. -/
def hexDigit (n : Nat) : String := String.singleton ("0123456789ABCDEF".toList.getD n '0')

/-- `k` hexadecimal digits, the most significant first. -/
def hexDigits : Nat → Nat → String
  | 0, _ => ""
  | k + 1, n => hexDigits k (n / 16) ++ hexDigit (n % 16)

/-- Payload bytes in braces, first byte first. -/
def asmPayload (bytes : List Byte) : String :=
  String.singleton (Char.ofNat 123) ++ " ".intercalate (bytes.map fun b => hexDigits 2 b.toNat) ++
    String.singleton (Char.ofNat 125)

/-- A 1-bit operand. -/
def asmBit (b : Bool) : String := if b then "1" else "0"

/-- A direction. -/
def asmDir (d : Bool) : String := if d then "IN" else "OUT"

/-- A transfer type (30_encoding.md R75). -/
def asmType (t : BitVec 2) : String :=
  match t.toNat with
  | 0 => "CTRL"
  | 1 => "ISO"
  | 2 => "BULK"
  | _ => "INT"

/-- A request handle. -/
def asmHandle (h : Handle) : String := "r" ++ Nat.repr h.toNat

/-- The operands of an operation, in the order of the tables of R71 and R73. The syntax covers the two ports: a setup request
reaches the block in the payload of `BSETUP`, and an internal operation is not written. -/
def asmOperands : Instr → List String
  | .regdrv driver caps => [Nat.repr driver.toNat, "0x" ++ hexDigits 2 caps.toNat]
  | .unregdrv driver => [Nat.repr driver.toNat]
  | .pullup on => [asmBit on]
  | .selfpwr value => [asmBit value]
  | .epen ep dir type maxp => [Nat.repr ep.toNat, asmDir dir, asmType type, Nat.repr maxp.toNat]
  | .epdis ep | .epfstat ep | .rqalloc ep | .bin ep | .bstall ep => [Nat.repr ep.toNat]
  | .ephalt ep value => [Nat.repr ep.toNat, asmBit value]
  | .rqfree ep h | .epqueue ep h | .epdeq ep h => [Nat.repr ep.toNat, asmHandle h]
  | .rqset h zlp length => [asmHandle h, asmBit zlp, Nat.repr length.toNat]
  | .bsetup payload => [asmPayload payload]
  | .bout ep payload => [Nat.repr ep.toNat, asmPayload payload]
  | .dispatch | .breset | .bsusp | .bresume | .bstatus => []
  | .getStatusDev .. | .getStatusEp .. | .clearFeatureHalt .. | .setFeatureHalt .. | .clearFeatureRwk ..
  | .setFeatureRwk .. | .clearFeatureOther .. | .setFeatureOther .. | .setAddress .. | .getConfiguration ..
  | .setConfiguration .. | .setInterface .. | .forward .. | .wrfifo .. | .rdfifo .. | .done .. | .nuke .. | .ep0h
  | .epnh .. | .ctlen | .ctldis | .ep0stall | .service .. => []

/-- The line of an operation. -/
def asmLine (i : Instr) : String :=
  if (asmOperands i).isEmpty then i.mnemonic else i.mnemonic ++ " " ++ ", ".intercalate (asmOperands i)

end Sys2Proof.Machine
end

