-- ==== Sys2Proof/Tests/Slice0.lean ====
section
/-! SUPPORT. The model's own tests. Expected results are the spec's: encodings from 30_encoding.md, results from the vectors
V-… of 95_test_vectors.md. At the end, witnesses that the hypotheses of the statements can be met. -/

namespace Sys2Proof.Machine

/-! ## Well-formedness: what is refused -/

theorem test_wf_clearFeatureOther : (Instr.clearFeatureOther false 2 0 1 0).wf = false := by decide
theorem test_wf_setFeatureOther : (Instr.setFeatureOther true 0 1 0 0).wf = false := by decide
theorem test_wf_forward : (Instr.forward ⟨0x80, 0x08, 0, 0, 1⟩).wf = false := by decide
theorem test_wf_forward_standard : (Instr.forward ⟨0x04, 0x01, 7, 0, 0⟩).wf = false := by decide
/-- A payload longer than its count field can say. -/
theorem test_wf_bsetup (p : List Byte) (h : p.length = 2 ^ 32) : (Instr.bsetup p).wf = false := by
  simp [Instr.wf, h]
theorem test_wf_bout (p : List Byte) (h : p.length = 2 ^ 32) : (Instr.bout 1 p).wf = false := by simp [Instr.wf, h]
theorem test_wf_kept : (Instr.forward ⟨0xC0, 0x01, 0, 0, 10⟩).wf = true ∧
    (Instr.clearFeatureOther false 2 1 1 0).wf = true := by
  decide

/-! ## Decoding: words written out from the tables, both ways -/

theorem test_decode_setup_status :
    (decode .setup [0x80, 0x00, 0x00, 0x00, 0x00, 0x00, 0x02, 0x00] = .ok (.getStatusDev true 0 0 2, []) ∧
        encode (.getStatusDev true 0 0 2) = [0x80, 0x00, 0x00, 0x00, 0x00, 0x00, 0x02, 0x00]) ∧
    (decode .setup [0x82, 0x00, 0x00, 0x00, 0x01, 0x00, 0x02, 0x00] = .ok (.getStatusEp true 0 1 2, []) ∧
        encode (.getStatusEp true 0 1 2) = [0x82, 0x00, 0x00, 0x00, 0x01, 0x00, 0x02, 0x00]) ∧
    (decode .setup [0x80, 0x08, 0x00, 0x00, 0x00, 0x00, 0x01, 0x00] = .ok (.getConfiguration true 0 0 1, []) ∧
        encode (.getConfiguration true 0 0 1) = [0x80, 0x08, 0x00, 0x00, 0x00, 0x00, 0x01, 0x00]) ∧
    (decode .setup [0x00, 0x05, 0x05, 0x00, 0x00, 0x00, 0x00, 0x00] = .ok (.setAddress false 5 0 0, []) ∧
        encode (.setAddress false 5 0 0) = [0x00, 0x05, 0x05, 0x00, 0x00, 0x00, 0x00, 0x00]) := by decide

theorem test_decode_setup_features :
    (decode .setup [0x02, 0x01, 0x00, 0x00, 0x01, 0x00, 0x00, 0x00] = .ok (.clearFeatureHalt false 1 0, []) ∧
        encode (.clearFeatureHalt false 1 0) = [0x02, 0x01, 0x00, 0x00, 0x01, 0x00, 0x00, 0x00]) ∧
    (decode .setup [0x02, 0x03, 0x00, 0x00, 0x01, 0x00, 0x00, 0x00] = .ok (.setFeatureHalt false 1 0, []) ∧
        encode (.setFeatureHalt false 1 0) = [0x02, 0x03, 0x00, 0x00, 0x01, 0x00, 0x00, 0x00]) ∧
    (decode .setup [0x00, 0x01, 0x01, 0x00, 0x00, 0x00, 0x00, 0x00] = .ok (.clearFeatureRwk false 0 0, []) ∧
        encode (.clearFeatureRwk false 0 0) = [0x00, 0x01, 0x01, 0x00, 0x00, 0x00, 0x00, 0x00]) ∧
    (decode .setup [0x00, 0x03, 0x01, 0x00, 0x00, 0x00, 0x00, 0x00] = .ok (.setFeatureRwk false 0 0, []) ∧
        encode (.setFeatureRwk false 0 0) = [0x00, 0x03, 0x01, 0x00, 0x00, 0x00, 0x00, 0x00]) ∧
    (decode .setup [0x02, 0x01, 0x01, 0x00, 0x01, 0x00, 0x00, 0x00] = .ok (.clearFeatureOther false 2 1 1 0, []) ∧
        encode (.clearFeatureOther false 2 1 1 0) = [0x02, 0x01, 0x01, 0x00, 0x01, 0x00, 0x00, 0x00]) ∧
    (decode .setup [0x00, 0x03, 0x02, 0x00, 0x00, 0x00, 0x00, 0x00] = .ok (.setFeatureOther false 0 2 0 0, []) ∧
        encode (.setFeatureOther false 0 2 0 0) = [0x00, 0x03, 0x02, 0x00, 0x00, 0x00, 0x00, 0x00]) := by decide

theorem test_decode_setup_driver :
    (decode .setup [0x00, 0x09, 0x01, 0x00, 0x00, 0x00, 0x00, 0x00] = .ok (.setConfiguration false 1 0 0, []) ∧
        encode (.setConfiguration false 1 0 0) = [0x00, 0x09, 0x01, 0x00, 0x00, 0x00, 0x00, 0x00]) ∧
    (decode .setup [0x01, 0x0B, 0x01, 0x00, 0x00, 0x00, 0x00, 0x00] = .ok (.setInterface false 1 0 0, []) ∧
        encode (.setInterface false 1 0 0) = [0x01, 0x0B, 0x01, 0x00, 0x00, 0x00, 0x00, 0x00]) ∧
    (decode .setup [0x81, 0x00, 0x00, 0x00, 0x00, 0x00, 0x02, 0x00] = .ok (.forward ⟨0x81, 0x00, 0, 0, 2⟩, []) ∧
        encode (.forward ⟨0x81, 0x00, 0, 0, 2⟩) = [0x81, 0x00, 0x00, 0x00, 0x00, 0x00, 0x02, 0x00]) ∧
    (decode .setup [0x02, 0x05, 0x05, 0x00, 0x00, 0x00, 0x00, 0x00] = .ok (.forward ⟨0x02, 0x05, 5, 0, 0⟩, []) ∧
        encode (.forward ⟨0x02, 0x05, 5, 0, 0⟩) = [0x02, 0x05, 0x05, 0x00, 0x00, 0x00, 0x00, 0x00]) ∧
    (decode .setup [0xC0, 0x01, 0x00, 0x00, 0x00, 0x00, 0x0A, 0x00] = .ok (.forward ⟨0xC0, 0x01, 0, 0, 10⟩, []) ∧
        encode (.forward ⟨0xC0, 0x01, 0, 0, 10⟩) = [0xC0, 0x01, 0x00, 0x00, 0x00, 0x00, 0x0A, 0x00]) := by decide

theorem test_decode_client_lifecycle :
    (decode .client [0x01, 0x00, 0x00, 0x00, 0x00, 0x00, 0x00, 0x00] = .ok (.dispatch, []) ∧
        encode (.dispatch) = [0x01, 0x00, 0x00, 0x00, 0x00, 0x00, 0x00, 0x00]) ∧
    (decode .client [0x02, 0x00, 0x01, 0x00, 0x7F, 0x00, 0x00, 0x00] = .ok (.regdrv 1 0x7F, []) ∧
        encode (.regdrv 1 0x7F) = [0x02, 0x00, 0x01, 0x00, 0x7F, 0x00, 0x00, 0x00]) ∧
    (decode .client [0x03, 0x00, 0x01, 0x00, 0x00, 0x00, 0x00, 0x00] = .ok (.unregdrv 1, []) ∧
        encode (.unregdrv 1) = [0x03, 0x00, 0x01, 0x00, 0x00, 0x00, 0x00, 0x00]) ∧
    (decode .client [0x04, 0x10, 0x00, 0x00, 0x00, 0x00, 0x00, 0x00] = .ok (.pullup true, []) ∧
        encode (.pullup true) = [0x04, 0x10, 0x00, 0x00, 0x00, 0x00, 0x00, 0x00]) ∧
    (decode .client [0x05, 0x10, 0x00, 0x00, 0x00, 0x00, 0x00, 0x00] = .ok (.selfpwr true, []) ∧
        encode (.selfpwr true) = [0x05, 0x10, 0x00, 0x00, 0x00, 0x00, 0x00, 0x00]) := by decide

theorem test_decode_client_endpoint :
    (decode .client [0x10, 0x71, 0x00, 0x00, 0x08, 0x00, 0x00, 0x00] = .ok (.epen 1 true 3 8, []) ∧
        encode (.epen 1 true 3 8) = [0x10, 0x71, 0x00, 0x00, 0x08, 0x00, 0x00, 0x00]) ∧
    (decode .client [0x11, 0x01, 0x00, 0x00, 0x00, 0x00, 0x00, 0x00] = .ok (.epdis 1, []) ∧
        encode (.epdis 1) = [0x11, 0x01, 0x00, 0x00, 0x00, 0x00, 0x00, 0x00]) ∧
    (decode .client [0x12, 0x11, 0x00, 0x00, 0x00, 0x00, 0x00, 0x00] = .ok (.ephalt 1 true, []) ∧
        encode (.ephalt 1 true) = [0x12, 0x11, 0x00, 0x00, 0x00, 0x00, 0x00, 0x00]) ∧
    (decode .client [0x13, 0x01, 0x00, 0x00, 0x00, 0x00, 0x00, 0x00] = .ok (.epfstat 1, []) ∧
        encode (.epfstat 1) = [0x13, 0x01, 0x00, 0x00, 0x00, 0x00, 0x00, 0x00]) := by decide

theorem test_decode_client_request :
    (decode .client [0x14, 0x03, 0x00, 0x00, 0x00, 0x00, 0x00, 0x00] = .ok (.rqalloc 3, []) ∧
        encode (.rqalloc 3) = [0x14, 0x03, 0x00, 0x00, 0x00, 0x00, 0x00, 0x00]) ∧
    (decode .client [0x15, 0x00, 0x01, 0x00, 0x00, 0x00, 0x00, 0x00] = .ok (.rqfree 0 1, []) ∧
        encode (.rqfree 0 1) = [0x15, 0x00, 0x01, 0x00, 0x00, 0x00, 0x00, 0x00]) ∧
    (decode .client [0x16, 0x10, 0x03, 0x00, 0x05, 0x00, 0x00, 0x00] = .ok (.rqset 3 true 5, []) ∧
        encode (.rqset 3 true 5) = [0x16, 0x10, 0x03, 0x00, 0x05, 0x00, 0x00, 0x00]) ∧
    (decode .client [0x17, 0x02, 0x01, 0x00, 0x00, 0x00, 0x00, 0x00] = .ok (.epqueue 2 1, []) ∧
        encode (.epqueue 2 1) = [0x17, 0x02, 0x01, 0x00, 0x00, 0x00, 0x00, 0x00]) ∧
    (decode .client [0x18, 0x01, 0x02, 0x00, 0x00, 0x00, 0x00, 0x00] = .ok (.epdeq 1 2, []) ∧
        encode (.epdeq 1 2) = [0x18, 0x01, 0x02, 0x00, 0x00, 0x00, 0x00, 0x00]) := by decide

theorem test_decode_bus :
    (decode .bus [0x20, 0x00, 0x00, 0x00, 0x00, 0x00, 0x00, 0x00] = .ok (.breset, []) ∧
        encode (.breset) = [0x20, 0x00, 0x00, 0x00, 0x00, 0x00, 0x00, 0x00]) ∧
    (decode .bus [0x21, 0x00, 0x00, 0x00, 0x00, 0x00, 0x00, 0x00] = .ok (.bsusp, []) ∧
        encode (.bsusp) = [0x21, 0x00, 0x00, 0x00, 0x00, 0x00, 0x00, 0x00]) ∧
    (decode .bus [0x22, 0x00, 0x00, 0x00, 0x00, 0x00, 0x00, 0x00] = .ok (.bresume, []) ∧
        encode (.bresume) = [0x22, 0x00, 0x00, 0x00, 0x00, 0x00, 0x00, 0x00]) ∧
    (decode .bus [0x23, 0x00, 0x00, 0x00, 0x03, 0x00, 0x00, 0x00, 0x80, 0x06, 0x00] = .ok (.bsetup [0x80, 0x06, 0x00], []) ∧ encode (.bsetup [0x80, 0x06, 0x00]) = [0x23, 0x00, 0x00, 0x00, 0x03, 0x00, 0x00, 0x00, 0x80, 0x06, 0x00]) ∧
    (decode .bus [0x24, 0x01, 0x00, 0x00, 0x02, 0x00, 0x00, 0x00, 0xAA, 0xBB] = .ok (.bout 1 [0xAA, 0xBB], []) ∧
        encode (.bout 1 [0xAA, 0xBB]) = [0x24, 0x01, 0x00, 0x00, 0x02, 0x00, 0x00, 0x00, 0xAA, 0xBB]) ∧
    (decode .bus [0x25, 0x02, 0x00, 0x00, 0x00, 0x00, 0x00, 0x00] = .ok (.bin 2, []) ∧
        encode (.bin 2) = [0x25, 0x02, 0x00, 0x00, 0x00, 0x00, 0x00, 0x00]) ∧
    (decode .bus [0x26, 0x01, 0x00, 0x00, 0x00, 0x00, 0x00, 0x00] = .ok (.bstall 1, []) ∧
        encode (.bstall 1) = [0x26, 0x01, 0x00, 0x00, 0x00, 0x00, 0x00, 0x00]) ∧
    (decode .bus [0x27, 0x00, 0x00, 0x00, 0x00, 0x00, 0x00, 0x00] = .ok (.bstatus, []) ∧
        encode (.bstatus) = [0x27, 0x00, 0x00, 0x00, 0x00, 0x00, 0x00, 0x00]) := by decide

theorem test_decode_internal :
    (decode .engine [0x40, 0x01, 0x00, 0x00, 0x00, 0x00, 0x00, 0x00] = .ok (.wrfifo 1, []) ∧
        encode (.wrfifo 1) = [0x40, 0x01, 0x00, 0x00, 0x00, 0x00, 0x00, 0x00]) ∧
    (decode .engine [0x41, 0x02, 0x00, 0x00, 0x00, 0x00, 0x00, 0x00] = .ok (.rdfifo 2, []) ∧
        encode (.rdfifo 2) = [0x41, 0x02, 0x00, 0x00, 0x00, 0x00, 0x00, 0x00]) ∧
    (decode .engine [0x42, 0x51, 0x03, 0x00, 0x00, 0x00, 0x00, 0x00] = .ok (.done 1 3 .aborted, []) ∧
        encode (.done 1 3 .aborted) = [0x42, 0x51, 0x03, 0x00, 0x00, 0x00, 0x00, 0x00]) ∧
    (decode .engine [0x43, 0x41, 0x00, 0x00, 0x00, 0x00, 0x00, 0x00] = .ok (.nuke 1 .stalled, []) ∧
        encode (.nuke 1 .stalled) = [0x43, 0x41, 0x00, 0x00, 0x00, 0x00, 0x00, 0x00]) := by decide

theorem test_decode_internal_control :
    (decode .engine [0x44, 0x00, 0x00, 0x00, 0x00, 0x00, 0x00, 0x00] = .ok (.ep0h, []) ∧
        encode (.ep0h) = [0x44, 0x00, 0x00, 0x00, 0x00, 0x00, 0x00, 0x00]) ∧
    (decode .engine [0x45, 0x01, 0x00, 0x00, 0x00, 0x00, 0x00, 0x00] = .ok (.epnh 1, []) ∧
        encode (.epnh 1) = [0x45, 0x01, 0x00, 0x00, 0x00, 0x00, 0x00, 0x00]) ∧
    (decode .engine [0x46, 0x00, 0x00, 0x00, 0x00, 0x00, 0x00, 0x00] = .ok (.ctlen, []) ∧
        encode (.ctlen) = [0x46, 0x00, 0x00, 0x00, 0x00, 0x00, 0x00, 0x00]) ∧
    (decode .engine [0x47, 0x00, 0x00, 0x00, 0x00, 0x00, 0x00, 0x00] = .ok (.ctldis, []) ∧
        encode (.ctldis) = [0x47, 0x00, 0x00, 0x00, 0x00, 0x00, 0x00, 0x00]) ∧
    (decode .engine [0x48, 0x00, 0x00, 0x00, 0x00, 0x00, 0x00, 0x00] = .ok (.ep0stall, []) ∧
        encode (.ep0stall) = [0x48, 0x00, 0x00, 0x00, 0x00, 0x00, 0x00, 0x00]) ∧
    (decode .engine [0x49, 0x02, 0x00, 0x00, 0x00, 0x00, 0x00, 0x00] = .ok (.service 2, []) ∧
        encode (.service 2) = [0x49, 0x02, 0x00, 0x00, 0x00, 0x00, 0x00, 0x00]) := by decide

/-- Illegal words of R80 b: an opcode no table lists, a tag of an internal operation, a field that must be 0. -/
theorem test_decode_illegal :
    decode .client [0x06, 0, 0, 0, 0, 0, 0, 0] = .error (.unknownOp 0x06) ∧
    decode .client [0x44, 0, 0, 0, 0, 0, 0, 0] = .error (.internalTag 0x44) ∧
    decode .client [0x11, 0x11, 0, 0, 0, 0, 0, 0] = .error (.unusedField 0x11) ∧
    decode .client [0x10, 0x81, 0, 0, 8, 0, 0, 0] = .error (.unusedField 0x10) ∧
    decode .bus [0x01, 0, 0, 0, 0, 0, 0, 0] = .error (.unknownOp 0x01) ∧
    decode .bus [0x24, 0x01, 0, 0, 3, 0, 0, 0, 0xAA] = .error .truncated := by decide

/-- 30_encoding.md R82. -/
theorem test_asm :
    asmLine (.epen 1 false 2 64) = "EPEN 1, OUT, BULK, 64" ∧ asmLine (.regdrv 1 0x7F) = "REGDRV 1, 0x7F" ∧
    asmLine (.rqset 3 false 5) = "RQSET r3, 0, 5" ∧ asmLine .dispatch = "DISPATCH" := by decide

/-- The table words of the host. -/
theorem test_table :
    decodeTableWord 64 0x0000000800007110 = some (.epen 1 true 3 8) ∧
    decodeTableWord 16 0x0B01 = some (.setInterface false 0 0 0) ∧ decodeTableWord 8 0x45 = some (.epnh 0) := by decide

/-! ## States -/

/-- The state S1 of 95_test_vectors.md section 1. -/
def s1 : State :=
  { State.reset with
    dev := { State.reset.dev with speed := .full, driver := some ⟨1, 0x7F⟩ }
    plat := { State.reset.plat with padMode := .device, clkGated := false, sysintUnmasked := true, pullup := true }
    busEvt := 0
    epEvt := 0
    busEvtEn := 5
    epEvtEn := 1
    cbLog := [.callback .bind] }

/-- An endpoint enabled, bulk, max-packet 64. -/
def opened (e : EpNum) (d : Dir) (s : State) : State :=
  (s.setEp e ({ · with dir := d, type := .bulk, maxp := 64, enabled := true })).setHw e ({ · with maxp := 64 })

/-- Endpoint 1 OUT and endpoint 2 IN. -/
def s2 : State := opened 2 .inward (opened 1 .out s1)

/-- A request allocated, not queued. -/
def allocated (h : Handle) (length : BitVec 32) (s : State) : State :=
  s.setReq h fun _ => ⟨true, length, 0, .idle, false, false, none⟩

/-- A request queued. -/
def queued (e : EpNum) (h : Handle) (length transferred : BitVec 32) (s : State) : State :=
  (s.setReq h fun _ => ⟨true, length, transferred, .inProgress, false, false, some e⟩).setEp e
    fun p => { p with queue := p.queue ++ [h] }

/-- The completion callback of a request is present. -/
def withComplete (h : Handle) (s : State) : State := s.setReq h ({ · with complete := true })

/-- A packet waits. -/
def packet (e : EpNum) (bytes : List Byte) (s : State) : State :=
  s.setHw e fun w => { w with csr := { w.csr with opr := true }, fifo := bytes, cnt := bytes.length }

/-- A change of CSR. -/
def withCsr (e : EpNum) (f : Csr → Csr) (s : State) : State := s.setHw e fun w => { w with csr := f w.csr }

/-- EP0 in a data phase, with a control transfer open. -/
def inPhase (st : Ep0State) (s : State) : State := { s.setEp0State st with ctlActive := true }

/-- The state after an operation. -/
def after (i : Instr) (s : State) : State := stateOr s (exec i s)

/-- The result of an operation. -/
def result (i : Instr) (s : State) : Int := (after i s).cmdResult

/-- The packet of a setup request delivered and dispatched (the start of section 3.4). -/
def dispatched (bytes : List Byte) (s : State) : State := after .dispatch (after (.bsetup bytes) s)

/-- A state with the client's next input. -/
def gives (i : Input) (s : State) : State := { s with input := [i] }

/-- The state after one step. -/
def stepped (s : State) : State := stateOr s (step s)

/-! ## Reset, fetch, step -/

/-- S0 of 95_test_vectors.md section 1. -/
theorem test_reset :
    State.reset.busEvt = 7 ∧ State.reset.epEvt = 5 ∧ State.reset.epAt 0 = ⟨0, .out, .control, 8, true, false, []⟩ ∧
    (State.reset.hwAt 0).maxp = 8 ∧ State.reset.plat.padMode = .unset ∧ State.reset.dev.driver = none := by decide

/-- The prologue's REGDRV: `bind` is called, and its return of 0 enables the controller. -/
theorem test_step_regdrv :
    let t := stepped (gives (.client [0x02, 0, 1, 0, 0x7F, 0, 0, 0]) State.reset)
    let u := stepped (gives (.callbackReturn 0) t)
    t.stack = [.callback .bind, .afterBind] ∧ t.plat.padMode = .unset ∧ u.cmdResult = 0 ∧ u.busEvt = 0 ∧ u.epEvt = 0 ∧
    u.busEvtEn = 5 ∧ u.epEvtEn = 1 ∧ u.plat.padMode = .device ∧ u.plat.clkGated = false := by decide

theorem test_step_illegal : (stepped (gives (.client [0x06, 0, 0, 0, 0, 0, 0, 0]) s1)) = { s1 with cmdResult := -1 } := by
  decide

theorem test_withFetchWord :
    (stepped (s1.withFetchWord 64 0x0000004000004110)).epAt 1 = ⟨1, .out, .bulk, 64, true, false, []⟩ ∧
    (stepped (s1.withFetchWord 16 0x0500)).hwAt 0 = ⟨8, { Csr.zero with dataEnd := true }, 0, [], .data0⟩ := by decide

/-! ## Operations -/

/-- V-C1. -/
theorem test_getStatusDev :
    let t := dispatched [0x80, 0, 0, 0, 0, 0, 2, 0] { s1 with dev := { s1.dev with selfPowered := true } }
    (t.hwAt 0).fifo = [1, 0] ∧ (t.csrAt 0).ipr = true ∧ (t.csrAt 0).dataEnd = true ∧ t.dev.ep0state = .idle ∧
        t.cbLog = s1.cbLog := by decide

/-- V-C1c. -/
theorem test_getStatusDev_wakeup :
    ((dispatched [0x80, 0, 0, 0, 0, 0, 2, 0] { s1 with dev := { s1.dev with remoteWakeup := true } }).hwAt 0).fifo = [2, 0] := by decide

/-- V-C2. -/
theorem test_getStatusEp :
    let t := dispatched [0x82, 0, 0, 0, 1, 0, 2, 0] (s2.setEp 1 ({ · with halted := true }))
    (t.hwAt 0).fifo = [1, 0] ∧ (t.csrAt 0).dataEnd = true := by decide

/-- V-C2e. -/
theorem test_getStatusEp_bad :
    let t := dispatched [0x82, 0, 0, 0, 3, 0, 2, 0] s1
    (t.csrAt 0).sendStall = true ∧ (t.hwAt 0).fifo = [] ∧ t.dev.ep0state = .idle := by decide

/-- V-C3b: only wValue[6:0]. -/
theorem test_setAddress :
    let t := dispatched [0x00, 0x05, 0x85, 0, 0, 0, 0, 0] s1
    t.dev.address = 5 ∧ t.funcAddr = 5 ∧ (t.csrAt 0).dataEnd = true ∧ (t.csrAt 0).opr = false ∧ (t.hwAt 0).fifo = [] := by
        decide

/-- V-C4. -/
theorem test_getConfiguration :
    ((dispatched [0x80, 0x08, 0, 0, 0, 0, 1, 0] { s1 with dev := { s1.dev with config := 1 } }).hwAt 0).fifo = [1] := by
        decide

/-- V-C5. -/
theorem test_clearFeatureHalt :
    let t := dispatched [0x02, 0x01, 0, 0, 1, 0, 0, 0] ((s2.setEp 1 ({ · with halted := true })).setHw 1
      fun w => { w with csr := { w.csr with sendStall := true }, toggle := .data1 })
    (t.epAt 1).halted = false ∧ (t.csrAt 1).sendStall = false ∧ (t.hwAt 1).toggle = .data0 ∧
        (t.csrAt 0).dataEnd = true := by decide

/-- V-C6. -/
theorem test_setFeatureHalt :
    let t := dispatched [0x02, 0x03, 0, 0, 1, 0, 0, 0] (s2.setHw 1 ({ · with toggle := .data1 }))
    (t.epAt 1).halted = true ∧ (t.csrAt 1).sendStall = true ∧ (t.hwAt 1).toggle = .data1 := by decide

/-- V-C6b. -/
theorem test_setFeatureHalt_ep0 :
    let t := dispatched [0x02, 0x03, 0, 0, 0, 0, 0, 0] s1
    (t.csrAt 0).sendStall = true ∧ (t.epAt 0).halted = false := by decide

/-- V-C7, V-C7b. -/
theorem test_remoteWakeup :
    let t := dispatched [0x00, 0x03, 1, 0, 0, 0, 0, 0] s1
    t.dev.remoteWakeup = true ∧ (after (.clearFeatureRwk false 0 0) t).dev.remoteWakeup = false := by decide

/-- V-C7c, V-S11. -/
theorem test_otherFeature :
    let t := dispatched [0x00, 0x03, 2, 0, 0, 0, 0, 0] s1
    let u := dispatched [0x01, 0x01, 0, 0, 0, 0, 0, 0] s1
    (t.csrAt 0).sendStall = true ∧ t.dev.remoteWakeup = false ∧ (u.csrAt 0).sendStall = true := by decide

/-- V-C8, V-C8b: `setup` returns 0, and -1. -/
theorem test_setConfiguration :
    let t := dispatched [0x00, 0x09, 1, 0, 0, 0, 0, 0] s1
    let u := stepped (gives (.callbackReturn 0) t)
    let v := stepped (gives (.callbackReturn (-1)) t)
    t.dev.config = 1 ∧ t.cbLog = s1.cbLog ++ [.callback (.setup ⟨0x00, 0x09, 1, 0, 0⟩)] ∧ (u.csrAt 0).dataEnd = true ∧
    u.dev.inDispatch = false ∧ v.dev.config = 1 ∧ (v.csrAt 0).sendStall = true ∧ (v.csrAt 0).dataEnd = false := by decide

/-- V-C9. -/
theorem test_setInterface :
    let t := stepped (gives (.callbackReturn 0) (dispatched [0x01, 0x0B, 1, 0, 0, 0, 0, 0] s1))
    (t.csrAt 0).dataEnd = true ∧ t.dev.config = 0 := by decide

/-- V-C10. -/
theorem test_forward :
    let t := dispatched [0xC0, 0x01, 0, 0, 0, 0, 10, 0] s1
    let u := stepped (gives (.callbackReturn (-1)) t)
    t.dev.ep0state = .inData ∧ (u.csrAt 0).sendStall = true ∧ u.dev.ep0state = .idle := by decide

/-- V-C13: `setup` queues a zero-length request. -/
theorem test_forward_queue :
    let t := dispatched [0x40, 0x03, 0, 0, 0, 0, 0, 0] (allocated 0 0 s1)
    let u := stepped (gives (.client [0x17, 0, 0, 0, 0, 0, 0, 0]) t)
    (u.csrAt 0).dataEnd = true ∧ u.dev.ep0state = .idle ∧ u.doneLog = [(0, .finished .ok, 0)] ∧ u.cmdResult = 0 := by
        decide

/-- V-E7. -/
theorem test_epen :
    let t := after (.epen 1 false 2 64) s1
    t.epAt 1 = ⟨1, .out, .bulk, 64, true, false, []⟩ ∧ (t.hwAt 1).maxp = 64 ∧ t.epEvtEn = 3 ∧ t.index = 1 ∧
        t.cmdResult = 0 := by decide

/-- V-E1 to V-E6, V-E8 to V-E11. -/
theorem test_epen_checks :
    result (.epen 0 false 2 8) s1 = -1 ∧ result (.epen 3 false 2 8) s1 = -1 ∧ result (.epen 1 false 2 0) s1 = -1 ∧
    result (.epen 1 false 2 65) s1 = -1 ∧ result (.epen 1 false 1 64) s1 = -1 ∧ result (.epen 1 false 0 8) s1 = -1 ∧
    result (.epen 1 false 2 64) s2 = -3 ∧ result (.epen 1 false 2 0) s2 = -3 ∧
    result (.epen 1 false 2 64) State.reset = -2 ∧ result (.epen 1 false 2 0) State.reset = -1 := by decide

/-- V-E15. -/
theorem test_epdis :
    let t := after (.epdis 1) { queued 1 1 64 0 (queued 1 0 128 64 s2) with epEvtEn := 3 }
    t.doneLog = [(0, .finished .shutdown, 64), (1, .finished .shutdown, 0)] ∧ (t.epAt 1).enabled = false ∧
        (t.epAt 1).maxp = 0 ∧
    (t.hwAt 1).maxp = 0 ∧ t.epEvtEn = 1 ∧ t.cmdResult = 0 := by decide

/-- V-E13, V-E14. -/
theorem test_epdis_checks :
    result (.epdis 0) s1 = -1 ∧ result (.epdis 1) s1 = -2 := by decide

/-- V-H1. -/
theorem test_ephalt :
    let s := (packet 1 [0xAA] s2).setHw 1 ({ · with toggle := .data1 })
    let t := after (.ephalt 1 true) s
    let u := after (.ephalt 1 false) t
    (t.epAt 1).halted = true ∧ (t.hwAt 1).toggle = .data1 ∧ (t.csrAt 1).opr = true ∧ after (.ephalt 1 true) t = t ∧
    (u.epAt 1).halted = false ∧ (u.csrAt 1).sendStall = false ∧ (u.hwAt 1).toggle = .data0 ∧ (u.csrAt 1).opr = true := by
        decide

/-- V-E16 to V-E18. -/
theorem test_ephalt_ep0 :
    let t := after (.ephalt 0 true) s1
    result (.ephalt 1 true) s1 = -2 ∧ after (.ephalt 0 false) s1 = s1 ∧ (t.csrAt 0).sendStall = true ∧
    (t.epAt 0).halted = false ∧ t.cmdResult = 0 := by decide

/-- V-E33 to V-E35. -/
theorem test_epfstat :
    result (.epfstat 1) s1 = -2 ∧ result (.epfstat 1) (packet 1 [1, 2, 3, 4, 5] s2) = 5 ∧ result (.epfstat 1) s2 = 0 := by
        decide

/-- V-E19, V-E20, V-E22. -/
theorem test_rqalloc :
    let t := after (.rqalloc 0) (after (.rqalloc 0) (after (.rqalloc 0) s1))
    t.cmdResult = 2 ∧ result (.rqalloc 0) t = 3 ∧ result (.rqalloc 0) (after (.rqalloc 0) t) = -3 ∧
    result (.rqalloc 3) s1 = -1 := by decide

/-- V-E21, V-E25. -/
theorem test_rqfree :
    let t := after (.rqfree 0 1) (allocated 2 0 (allocated 1 0 (allocated 0 0 s1)))
    t.cmdResult = 0 ∧ result (.rqalloc 0) t = 1 ∧ result (.rqfree 0 0) (queued 1 0 64 0 s2) = -1 := by decide

/-- V-E23, V-E24. -/
theorem test_rqset :
    result (.rqset 3 false 5) s1 = -1 ∧ result (.rqset 0 false 5) (queued 1 0 64 0 s2) = -1 ∧
    ((after (.rqset 0 true 5) (allocated 0 0 s1)).reqAt 0).length = 5 := by decide

/-- V-Q1: the first request is complete before the queue operation returns, the second waits. -/
theorem test_epqueue :
    let s := allocated 1 2 (allocated 0 3 { s2 with mem := [(0, 1), (1, 2), (2, 3), (bufAddr 1 0, 4), (bufAddr 1 1, 5)] })
    let t := after (.epqueue 2 0) s
    let u := after (.epqueue 2 1) t
    t.doneLog = [(0, .finished .ok, 3)] ∧ (t.csrAt 2).ipr = true ∧ u.cmdResult = 0 ∧ (u.epAt 2).queue = [1] ∧
    (after (.bin 2) u).tx = [(2, [1, 2, 3])] := by decide

/-- V-E26 to V-E29. -/
theorem test_epqueue_checks :
    result (.epqueue 1 0) (allocated 0 0 s1) = -2 ∧ result (.epqueue 0 0) (allocated 0 0 State.reset) = -2 ∧
    result (.epqueue 1 0) (queued 1 0 64 0 s2) = -1 ∧ result (.epqueue 2 0) (queued 1 0 64 0 s2) = -1 := by decide

/-- V-E30 to V-E32. -/
theorem test_epdeq :
    let s := queued 1 0 128 64 s2
    let t := after (.epdeq 1 0) s
    result (.epdeq 1 0) (allocated 0 0 s2) = -1 ∧ t.doneLog = [(0, .finished .aborted, 64)] ∧ (t.epAt 1).queue = [] ∧
    t.cmdResult = 0 ∧ result (.epdeq 2 0) s = -1 := by decide

/-- V-L12. -/
theorem test_pullup :
    let t := after (.pullup false) { s1 with plat := { s1.plat with udcCommand := true } }
    t.plat.pullup = false ∧ t.live = false ∧ t.cbLog = s1.cbLog ++ [.udcCommand false] ∧ t.cmdResult = 0 := by decide

/-- V-L13. -/
theorem test_selfpwr :
    (after (.selfpwr true) s1).dev.selfPowered = true := by decide

/-- V-L1 to V-L7. -/
theorem test_regdrv :
    result (.regdrv 1 0x77) State.reset = -1 ∧ result (.regdrv 1 0x7E) State.reset = -1 ∧
    result (.regdrv 1 0x6F) State.reset = -1 ∧ result (.regdrv 1 0x7D) State.reset = -1 ∧
    (after (.regdrv 1 0x1B) State.reset).dev.driver = some ⟨1, 0x1B⟩ ∧ result (.regdrv 2 0x7F) s1 = -3 ∧
    result (.regdrv 2 0x77) s1 = -3 := by decide

/-- V-L8. -/
theorem test_regdrv_bindFails :
    let t := stepped (gives (.callbackReturn (-9)) (after (.regdrv 1 0x7F) State.reset))
    t.cmdResult = -9 ∧ t.dev.driver = none ∧ t.plat.padMode = .unset ∧ t.busEvt = 7 := by decide

/-- V-L11, with both callbacks returning 0. -/
theorem test_unregdrv :
    let t := stepped (gives (.callbackReturn 0) (after (.unregdrv 1) (queued 1 0 64 0 s2)))
    let u := stepped (gives (.callbackReturn 0) t)
    t.epEvtEn = 0 ∧ t.plat.pullup = false ∧ t.doneLog = [(0, .finished .shutdown, 0)] ∧ (t.epAt 1).enabled = false ∧
    u.cbLog = s1.cbLog ++ [.callback .disconnect, .callback .unbind] ∧ u.dev.driver = none ∧ u.cmdResult = 0 := by decide

/-- V-L9, V-L10. -/
theorem test_unregdrv_checks :
    result (.unregdrv 2) s1 = -1 ∧ result (.unregdrv 1) State.reset = -1 := by decide

/-- V-D1, V-D6: INDEX is restored. -/
theorem test_dispatch_idle :
    after .dispatch s1 = s1 ∧ (after .dispatch { s2 with index := 2, epEvt := 2 }).index = 2 := by decide

/-- V-D2: the other bits are lost. -/
theorem test_dispatch_reset :
    let t := after .dispatch { packet 1 [1] (queued 1 0 64 0 s2) with busEvt := 5, epEvt := 2 }
    t.busEvt = 0 ∧ t.epEvt = 0 ∧ t.cbLog = s1.cbLog ∧ (t.epAt 1).queue = [0] ∧ (t.csrAt 1).opr = true ∧
        t.cmdResult = 0 := by decide

/-- V-D3. -/
theorem test_dispatch_resumeSuspend :
    let t := after .dispatch { s1 with busEvt := 3 }
    let u := stepped (gives (.callbackReturn 0) t)
    t.cbLog = s1.cbLog ++ [.callback .resume] ∧ u.cbLog = s1.cbLog ++ [.callback .resume, .callback .suspend] := by decide

/-- V-D7. -/
theorem test_poll :
    stateOr State.reset (poll { s1 with epEvt := 2 }) = { s1 with epEvt := 2 } ∧
        (after .dispatch { s1 with epEvt := 2 }).epEvt = 0 := by decide

/-- V-B21, V-B3, V-B1. -/
theorem test_breset :
    let t := after .breset (packet 0 [1] (inPhase .inData s1))
    t.busEvt = 4 ∧ t.ctlActive = false ∧ (t.hwAt 0).fifo = [] ∧ (t.hwAt 0).cnt = 0 ∧ (t.csrAt 0).opr = false ∧
    (after .breset { s1 with plat := { s1.plat with pullup := false, udcCommand := true } }).busEvt = 0 ∧
    (after .breset State.reset).busResult = .notEnabled := by decide

/-- 45_bus_agent.md R168, R169. -/
theorem test_bsusp_bresume :
    (after .bsusp s1).busEvt = 1 ∧ (after .bresume s1).busEvt = 2 := by decide

/-- V-B5, V-B4. -/
theorem test_bsetup :
    let t := after (.bsetup [0x80, 0, 0, 0, 0, 0, 2, 0]) s1
    (t.hwAt 0).cnt = 8 ∧ (t.csrAt 0).opr = true ∧ t.ctlActive = true ∧ (t.hwAt 0).toggle = .data1 ∧ t.epEvt = 1 ∧
    (t.csrAt 0).setupEnd = false ∧ (after (.bsetup [1]) t).busResult = .notEnabled := by decide

/-- V-B6, V-B7. -/
theorem test_bsetup_setupEnd :
    let s := inPhase .inData s1
    let t := after (.bsetup [1, 2, 3, 4, 5, 6, 7, 8]) (withCsr 0 ({ · with ipr := true }) s)
    let u := after (.bsetup [1, 2, 3, 4, 5, 6, 7, 8]) (withCsr 0 ({ · with dataEnd := true }) s)
    (t.csrAt 0).setupEnd = true ∧ (t.csrAt 0).ipr = false ∧ (u.csrAt 0).setupEnd = false ∧
        (u.csrAt 0).dataEnd = false := by decide

/-- V-B13 with a full FIFO, V-B10, V-B11, V-B14. -/
theorem test_bout :
    let t := after (.bout 1 (List.replicate 64 7)) s2
    (t.hwAt 1).cnt = 64 ∧ (t.hwAt 1).toggle = .data1 ∧ t.epEvt = 2 ∧ (after (.bout 1 [1]) t).busResult = .notEnabled ∧
    (after (.bout 2 [1]) s2).busResult = .notEnabled ∧
    (after (.bout 1 [1]) (withCsr 1 ({ · with sendStall := true }) s2)).busResult = .notEnabled := by decide

/-- V-B12, V-B8, V-B9. -/
theorem test_bout_refused :
    (after (.bout 1 (List.replicate 65 7)) s2).busResult = .notEnabled ∧
        (after (.bout 0 [1]) s1).busResult = .notEnabled ∧
    (after (.bout 0 [1]) (withCsr 0 ({ · with dataEnd := true }) (inPhase .outData s1))).busResult = .notEnabled := by
        decide

/-- V-B17, V-B16. -/
theorem test_bin :
    let t := after (.bin 2) (withCsr 2 ({ · with ipr := true }) s2)
    t.tx = [(2, [])] ∧ (t.csrAt 2).ipr = false ∧ (t.hwAt 2).toggle = .data1 ∧ t.epEvt = 4 ∧
    (after (.bin 2) s2).busResult = .notEnabled := by decide

/-- V-B15, V-B20. -/
theorem test_bstall :
    let t := after (.bstall 1) (withCsr 1 ({ · with sendStall := true }) s2)
    (t.csrAt 1).sentStall = true ∧ (t.csrAt 1).sendStall = true ∧ t.epEvt = 2 ∧ (after (.bstall 1) t).busResult = .taken ∧
    (after (.bstall 0) (withCsr 0 ({ · with sendStall := true }) s1)).busResult = .notEnabled := by decide

/-- V-B19, V-B18. -/
theorem test_bstatus :
    let s := withCsr 0 ({ · with dataEnd := true }) { s1 with ctlActive := true }
    let t := after .bstatus s
    (t.csrAt 0).dataEnd = false ∧ t.ctlActive = false ∧ t.epEvt = 1 ∧
    (after .bstatus (withCsr 0 ({ · with ipr := true }) s)).busResult = .notEnabled := by decide

/-- V-W3, V-W13. -/
theorem test_wrfifo :
    let t := after (.wrfifo 2) (queued 2 0 130 128 s2)
    let u := after (.wrfifo 0) (queued 0 0 10 8 (inPhase .inData s1))
    (t.csrAt 2).ipr = true ∧ (t.hwAt 2).fifo.length = 2 ∧ t.doneLog = [(0, .finished .ok, 130)] ∧
    (u.csrAt 0).dataEnd = true ∧ u.dev.ep0state = .idle ∧ u.doneLog = [(0, .finished .ok, 10)] := by decide

/-- V-W5, V-W15. -/
theorem test_wrfifo_zlp :
    let t := after (.wrfifo 2) ((queued 2 0 64 0 s2).setReq 0 ({ · with zlp := true }))
    let u := after (.wrfifo 0) { queued 0 0 10 8 (inPhase .inData s1) with busEvt := 4 }
    (t.reqAt 0).transferred = 64 ∧ (t.epAt 2).queue = [0] ∧ (u.csrAt 0).dataEnd = false ∧ (u.csrAt 0).ipr = true ∧
    u.doneLog = [(0, .finished .ok, 10)] := by decide

/-- V-R9. -/
theorem test_rdfifo :
    let t := after (.rdfifo 1) (packet 1 [1, 2, 3, 4, 5, 6, 7, 8, 9, 10, 11] (queued 1 0 10 0 s2))
    t.doneLog = [(0, .finished .overflow, 10)] ∧ t.mem.read 9 = 10 ∧ t.mem.read 10 = 0 ∧ (t.csrAt 1).opr = false ∧
    (t.hwAt 1).fifo = [] ∧ (t.hwAt 1).cnt = 0 := by decide

/-- V-R15, V-R14. -/
theorem test_rdfifo_ep0 :
    let t := after (.rdfifo 0) (packet 0 [1, 2, 3] (queued 0 0 10 0 (inPhase .outData s1)))
    let u := after (.rdfifo 0) (packet 0 [8, 9] (queued 0 0 10 8 (inPhase .outData s1)))
    (t.reqAt 0).transferred = 3 ∧ (t.epAt 0).queue = [0] ∧ (u.csrAt 0).dataEnd = true ∧ u.dev.ep0state = .idle ∧
    u.doneLog = [(0, .finished .ok, 10)] := by decide

/-- 40_fifo_engine.md R94. -/
theorem test_done :
    let t := after (.done 1 0 .aborted) (withComplete 0 (queued 1 0 64 5 s2))
    t.doneLog = [(0, .finished .aborted, 5)] ∧ t.stack = [.callback (.complete 1 0)] ∧ (t.epAt 1).queue = [] := by decide

/-- 40_fifo_engine.md R95. -/
theorem test_nuke :
    (after (.nuke 1 .stalled) (queued 1 1 64 0 (queued 1 0 64 3 s2))).doneLog = [(0, .finished .stalled, 3), (1, .finished .stalled, 0)] := by decide

/-- V-C16, the pass. -/
theorem test_ep0h :
    let t := after .ep0h (withCsr 0 ({ · with sentStall := true, setupEnd := true }) (queued 0 0 16 8 s1))
    (t.csrAt 0) = Csr.zero ∧ t.doneLog = [(0, .finished .stalled, 8)] ∧ t.dev.ep0state = .idle ∧ t.epEvt = 0 := by decide

/-- V-C11, V-C14. -/
theorem test_ep0h_short :
    let t := dispatched [0x80, 0x06, 0x00] s1
    let u := dispatched [0x00, 0x05, 5, 0, 0, 0, 0, 0] (queued 0 1 4 0 s1)
    (t.csrAt 0).sendStall = true ∧ (t.hwAt 0).fifo = [] ∧ u.doneLog = [(1, .finished .aborted, 0)] ∧
        u.dev.address = 5 := by decide

/-- V-D9. -/
theorem test_epnh :
    let t := after (.epnh 1) (withCsr 1 ({ · with sentStall := true, sendStall := true }) (queued 1 0 64 0 s2))
    (t.csrAt 1).sentStall = false ∧ (t.csrAt 1).sendStall = true ∧ (t.reqAt 0).status = .inProgress := by decide

/-- 44_lifecycle.md R153, R154. -/
theorem test_ctlen_ctldis :
    let t := after .ctlen State.reset
    let u := after .ctldis { s1 with busEvt := 7 }
    t.plat.padMode = .device ∧ t.busEvt = 0 ∧ t.epEvt = 0 ∧ t.busEvtEn = 5 ∧ t.epEvtEn = 1 ∧ u.busEvt = 0 ∧
    u.busEvtEn = 0 ∧ u.epEvtEn = 0 ∧ u.plat.pullup = false ∧ u.dev.speed = .unknown := by decide

/-- 41_ep0_control.md R122. -/
theorem test_ep0stall :
    let t := after .ep0stall (packet 0 [1] (inPhase .inData s1))
    (t.csrAt 0).sendStall = true ∧ (t.csrAt 0).opr = false ∧ (t.hwAt 0).fifo = [] ∧ t.dev.ep0state = .idle := by decide

/-- V-R8, V-W10, and a packet that is not there. -/
theorem test_service :
    let t := after (.service 1) (packet 1 (List.replicate 10 7) (queued 1 0 10 0 s2))
    let u := after (.service 2) (queued 2 0 1 0 s2)
    t.doneLog = [(0, .finished .ok, 10)] ∧ u.doneLog = [(0, .finished .ok, 1)] ∧ (u.hwAt 2).fifo = [0] ∧
    after (.service 1) (queued 1 0 64 0 s2) = { queued 1 0 64 0 s2 with index := 1 } := by decide

/-- 30_encoding.md R79, 20_memory.md R51: a read-modify-write that names SEND_STALL keeps OPR. -/
theorem test_csr_bytes :
    let s := { packet 1 [5] s2 with index := 1 }
    let t := stateOr s (csrReadModifyWrite { sendStall := some true } s)
    ((regRead 0x09 s).1 = 0x01) ∧ (t.csrAt 1).opr = true ∧ (t.csrAt 1).sendStall = true ∧ (regRead 0x0A s).1 = 1 ∧
    (regRead 0x11 s).1 = 5 := by decide

/-- 00_scope.md R9: the bus agent moves between two accesses of one operation. -/
theorem test_race :
    let s := { s2 with race := [[], [.setup [0x80, 0, 0, 0, 0, 0, 2, 0]]] }
    let t := after (.epfstat 0) s
    t.cmdResult = 8 ∧ t.race = [] ∧ t.epEvt = 1 := by decide

/-- 30_encoding.md R83: a RUN dispatches a bus reset and ends; one that waits in a callback resumes when it returns. -/
theorem test_run :
    let t := (run 2 { s1 with busEvt := 4 }).map (stateOr State.reset)
    let u := (run 4 { s1 with busEvt := 1, input := [.callbackReturn 0] }).map (stateOr State.reset)
    t.map (·.dev.speed) = some .full ∧ t.map (·.irqPending) = some false ∧ u.map (·.stack) = some [] ∧
    u.map (·.cbLog) = some (s1.cbLog ++ [.callback .suspend]) ∧ u.map (·.cmdResult) = some 0 := by decide

/-- 00_scope.md R9: a packet may still arrive before `enabled` is cleared, and is flushed with the FIFO; none after. -/
theorem test_race_disable :
    let t := after (.epdis 1) { s2 with race := [[.out 1 [7]]] }
    let u := after (.epdis 1) { s2 with race := [[], [.out 1 [7]]] }
    t.epEvt = 2 ∧ (t.hwAt 1).toggle = .data1 ∧ (t.hwAt 1).fifo = [] ∧ u.epEvt = 0 ∧ (u.hwAt 1).toggle = .data0 := by
        decide

/-! ## Witnesses

For every statement of Obligations.lean that has hypotheses, states and operands that meet them, clause by clause, at the ends
of their ranges where they have one. -/

/-- `QueuesSound`, as a test. -/
def soundTest (s : State) : Bool :=
  (List.range 16).all (fun e => let p := s.epAt (BitVec.ofNat 4 e)
    decide p.queue.Nodup && p.queue.all fun h =>
      h.toNat < s.params.numReq && (s.reqAt h).status == .inProgress && (s.reqAt h).allocated &&
        (s.reqAt h).ep == some (BitVec.ofNat 4 e)) &&
  s.reqs.zipIdx.all (fun r => if r.1.status == .inProgress then
    (match r.1.ep with | some e => decide (BitVec.ofNat 16 r.2 ∈ (s.epAt e).queue) | none => false) else r.1.ep == none)

theorem shaped_of {s : State} (h : (s.params.wf && s.eps.length == s.params.numEp && s.hw.length == s.params.numEp &&
    s.reqs.length == s.params.numReq && (List.range 16).all fun e => (s.epAt (BitVec.ofNat 4 e)).num == BitVec.ofNat 4 e) =
    true) : s.Shaped := by
  simp only [Bool.and_eq_true, beq_iff_eq, List.all_eq_true, List.mem_range] at h
  refine ⟨h.1.1.1.1, h.1.1.1.2, h.1.1.2, h.1.2, fun e => ?_⟩
  have := h.2 e.toNat e.isLt
  simpa using this

theorem noCallbacks_of {s : State} {e : EpNum} (h : (s.epAt e).queue.all (fun q => !(s.reqAt q).complete) = true) :
    s.NoCallbacks e := by
  intro q hq
  simpa using List.all_eq_true.mp h q hq

theorem all_endpoints {s : State} (e : EpNum)
    (h : ((List.range 16).all fun k => (s.epAt (BitVec.ofNat 4 k)).queue.all fun q => !(s.reqAt q).complete) = true) :
    (s.epAt e).queue.all (fun q => !(s.reqAt q).complete) = true := by
  have := List.all_eq_true.mp h e.toNat (List.mem_range.mpr e.isLt)
  rwa [BitVec.ofNat_toNat, BitVec.setWidth_eq] at this

theorem sound_of {s : State} (h : soundTest s = true) : s.QueuesSound := by
  simp only [soundTest, Bool.and_eq_true, List.all_eq_true, List.mem_range, decide_eq_true_eq, beq_iff_eq] at h
  obtain ⟨hq, hr⟩ := h
  have key : ∀ q : Handle, (if (s.reqAt q).status == .inProgress then
      (match (s.reqAt q).ep with | some e => decide (q ∈ (s.epAt e).queue) | none => false) else (s.reqAt q).ep == none) =
      true := by
    intro q
    by_cases hl : q.toNat < s.reqs.length
    · have := hr (s.reqs[q.toNat], q.toNat) (by simp [List.mem_zipIdx_iff_getElem?, List.getElem?_eq_getElem hl])
      simpa [State.reqAt, List.getElem?_eq_getElem hl] using this
    · simp [State.reqAt, List.getElem?_eq_none (Nat.le_of_not_lt hl), Req.free]
  refine ⟨fun e => ?_, fun e q hm => ?_, fun q hs => ?_, fun q hs => ?_⟩
  · simpa using (hq e.toNat e.isLt).1
  · simpa [and_assoc] using (hq e.toNat e.isLt).2 q (by simpa using hm)
  · have := key q
    rw [if_pos (by simpa using hs)] at this
    cases he : (s.reqAt q).ep with
    | none => simp [he] at this
    | some e => exact ⟨e, rfl, by simpa [he] using this⟩
  · have := key q
    rw [if_neg (by simpa using hs)] at this
    simpa using this

/-- The machine where a callback is running and the client moves next. -/
def waiting (fs : List Frame) (i : Input) (s : State) : State := { s with stack := fs, input := [i] }

/-- The FIFO of EP0 holds n bytes that nothing has taken. -/
def filled0 (n : Nat) : State := s1.setHw 0 ({ · with fifo := List.replicate n 0 })

/-! The states the witnesses stand in. -/

def state1 : State := gives (.client [0x11, 0x01, 0, 0, 0, 0, 0, 0, 7]) s2
def state2 : State := waiting [.callback .suspend] (.bus [0x25, 0x02, 0, 0, 0, 0, 0, 0]) s2
def state3 : State := { s1 with stack := [.op .ep0h] }
def state4 : State := { s1 with stack := [.setup [0, 5, 5, 0, 0, 0, 0, 0], .ret 0] }
def state5 : State := gives (.client [0x06, 0, 0, 0, 0, 0, 0, 0]) s1
def state6 : State := gives (.bus [0x20]) s1
def state7 : State := gives (.writeBuf 3 0xFFFFFFFF 7) s1
def state8 : State := gives (.writeBuf 4 0 7) s1
def state9 : State := gives (.setComplete 3 true) s1
def state10 : State := gives (.setComplete 3 true) (queued 1 3 1 0 s2)
def state11 : State := gives (.setComplete 4 true) s1
def state12 : State := gives (.callbackReturn 0) s1
def state13 : State := filled0 62
def state14 : State := filled0 63
def state15 : State := packet 0 (List.replicate 64 0) s2
def state16 : State := { s1 with params := { s1.params with forwardConfig := false } }
def state17 : State := waiting [.callback .suspend] (.callbackReturn 0) s1
def state18 : State := waiting [.callback .suspend, .dispatchExit 0] (.callbackReturn 0) s1
def state19 : State := waiting [.callback .suspend, .callback .bind] (.callbackReturn 0) s1
def state20 : State := waiting [.callback (.setup ⟨0, 9, 1, 0, 0⟩), .afterConfig] (.callbackReturn (-1)) s1
def state21 : State := waiting [.callback (.setup ⟨0xC0, 1, 0, 0, 9⟩), .afterForward] (.callbackReturn 0) s1
def state22 : State := queued 2 0 64 0 s2
def state23 : State := allocated 2 0 (allocated 1 0 (allocated 0 0 s1))
def state24 : State := allocated 3 0 (allocated 2 0 (allocated 1 0 (allocated 0 0 s1)))
def state25 : State := allocated 3 0 s1
def state26 : State := queued 2 3 1 0 s2
def state27 : State := allocated 3 0 State.reset
def state28 : State := allocated 3 0 (queued 2 0 1 0 s2)
def state29 : State := allocated 3 64 s2
def state30 : State := (allocated 3 64 s2).setHw 2 ({ · with fifo := [0] })
def state31 : State := packet 2 [1] (allocated 3 1 (opened 2 .out s1))
def state32 : State := withCsr 2 ({ · with ipr := true }) (allocated 3 1 s2)
def state33 : State := allocated 3 1 (opened 2 .out s1)
def state34 : State := allocated 3 8 (inPhase .inData s1)
def state35 : State := packet 0 [0x80, 6, 0, 1, 0, 0, 18, 0] (allocated 3 8 (inPhase .inData s1))
def state36 : State := withCsr 0 ({ · with ipr := true }) (allocated 3 8 (inPhase .inData s1))
def state37 : State := allocated 3 0 (inPhase .outData s1)
def state38 : State := packet 0 [1] (allocated 3 1 (inPhase .outData s1))
def state39 : State := allocated 3 1 (inPhase .outData s1)
def state40 : State := allocated 3 1 s1
def state41 : State := allocated 3 1 s2
def state42 : State := withComplete 3 (queued 2 3 1 0 s2)
def state43 : State := waiting [.callback .bind, .afterBind] (.callbackReturn (-1)) s1
def state44 : State := waiting [.callback .bind, .afterBind] (.callbackReturn 0) s1
def state45 : State := waiting [.callback .disconnect, .unregMain s1.params.dataEndpoints] (.callbackReturn 0) (queued 0 0 8 0 (queued 1 1 9 3 (queued 2 3 64 0 s2)))
def state46 : State := waiting [.callback .disconnect, .unregMain s1.params.dataEndpoints] (.callbackReturn 0) (queued 0 0 8 0 (queued 1 1 9 3 (opened 1 .out s1)))
def state47 : State := { s1 with dev := { s1.dev with inDispatch := true } }
def state48 : State := waiting [.callback .bind] (.callbackReturn 0) s1
def state49 : State := { s2 with busEvt := 3, epEvt := 7 }
def state50 : State := { queued 0 0 8 0 s1 with busEvt := 7, epEvt := 7 }
def state51 : State := { s1 with stack := [.notifyResume, .dispatchExit 0] }
def state52 : State := { s1 with stack := [.notifySuspend] }
def state53 : State := queued 2 3 64 0 s2
def state54 : State := queued 0 3 8 0 (inPhase .inData s1)
def state55 : State := packet 1 [1, 2] (queued 1 3 64 63 s2)
def state56 : State := packet 0 [1] (queued 0 3 1 0 (inPhase .outData s1))
def state57 : State := withCsr 2 ({ · with ipr := true }) (queued 2 3 64 0 s2)
def state58 : State := queued 1 3 64 0 s1
def state59 : State := queued 1 3 64 0 s2
def state60 : State := (queued 2 3 64 0 s2).setHw 2 ({ · with fifo := [0] })
def state61 : State := queued 0 3 8 0 s1
def state62 : State := filled0 64
def state63 : State := (queued 2 3 65 0 s2).setEp 2 ({ · with maxp := 65 })
def state64 : State := (queued 0 3 65 0 (inPhase .inData s1)).setEp 0 ({ · with maxp := 65 })
def state65 : State := (filled0 63).setEp 2 ({ · with enabled := true })
def state66 : State := queued 2 3 1 0 (queued 2 0 1 0 s2)
def state67 : State := withComplete 0 (queued 2 3 1 0 (queued 2 0 1 0 s2))
def state68 : State := packet 0 [0x80, 6, 0, 1, 0, 0, 18, 0] (queued 0 3 8 0 (inPhase .inData s1))
def state69 : State := inPhase .inData s1
def state70 : State := withCsr 0 ({ · with ipr := true }) (queued 0 3 8 0 (inPhase .inData s1))
def state71 : State := packet 0 [1] (queued 0 3 8 0 (inPhase .outData s1))
def state72 : State := packet 0 [1] (inPhase .outData s1)
def state73 : State := queued 0 3 8 0 (inPhase .outData s1)
def state74 : State := inPhase .stall s1
def state75 : State := withCsr 0 ({ · with setupEnd := true }) (packet 0 [1] (queued 0 3 8 0 (inPhase .inData s1)))
def state76 : State := withCsr 0 ({ · with sentStall := true, setupEnd := true }) (packet 0 [1] (queued 0 3 8 0 s1))
def state77 : State := withCsr 0 ({ · with sentStall := true }) s1
def state78 : State := withCsr 0 ({ · with sentStall := true }) (packet 0 [0x80, 6, 0, 1, 0, 0, 18] (queued 0 3 8 0 s1))
def state79 : State := withCsr 0 ({ · with sentStall := true }) (packet 0 [0x80, 6, 0, 1, 0, 0, 18, 0] (queued 0 3 8 0 s1))
def state80 : State := packet 0 [0x80, 6, 0, 1, 0, 0, 18] (queued 0 3 8 0 (queued 0 1 4 0 s1))
def state81 : State := packet 0 [0x80, 6, 0, 1, 0, 0, 18, 0] (queued 0 3 8 0 (queued 0 1 4 0 s1))
def state82 : State := packet 0 [0x80, 6, 0, 1, 0, 0, 18, 0, 9] s1
def state83 : State := withCsr 2 ({ · with ipr := true }) (queued 2 3 1 0 s2)
def state84 : State := packet 1 [1] (queued 1 3 64 0 s2)
def state85 : State := { packet 0 [1] s1 with race := [[], [.setup [1]]] }
def state86 : State := { withCsr 0 ({ · with ipr := true, sendStall := true }) (inPhase .inData s1) with race := [[], [.setup [1]]] }
def state87 : State := { packet 1 [7] s2 with index := 2 }
def state88 : State := { s2 with index := 3 }
def state89 : State := { s2 with busEvt := 4, epEvt := 4, epEvtEn := 5 }
def state90 : State := { s2 with busEvt := 1, epEvt := 1, input := [.callbackReturn 0], race := [[], [], [], [.suspend]] }
def state91 : State := { s1 with busEvt := 1, epEvt := 2, race := [[.reset, .setup [1]]] }

theorem witness_DecodeOfEncode :
    ((Instr.bout 15 [0xAA]).wf = true ∧ (Instr.clearFeatureOther true 31 0xFFFF 0xFFFF 0xFFFF).wf = true ∧
        (Instr.forward ⟨0xFF, 0xFF, 0, 0, 0⟩).wf = true) :=
  by decide

theorem witness_EncodeOfDecode :
    (decode .client [0x10, 0x7F, 0, 0, 0xFF, 0x07, 0, 0, 9] = .ok (.epen 15 true 3 0x7FF, [9])) ∧
    (decode .bus [0x24, 0x0F, 0, 0, 1, 0, 0, 0, 0xAA] = .ok (.bout 15 [0xAA], [])) :=
  ⟨by decide,
    by decide⟩

theorem witness_StepRunsTheDecoded :
    (state1.settled = true ∧ state1.input = [.client [0x11, 0x01, 0, 0, 0, 0, 0, 0, 7]] ∧
        decode .client [0x11, 0x01, 0, 0, 0, 0, 0, 0, 7] = .ok (.epdis 1, [7])) ∧
    (state2.settled = true ∧ state2.input = [.bus [0x25, 0x02, 0, 0, 0, 0, 0, 0]] ∧
        decode .bus [0x25, 0x02, 0, 0, 0, 0, 0, 0] = .ok (.bin 2, [])) ∧
    (state3.stack = [.op .ep0h]) ∧
    (state4.stack = [.setup [0, 5, 5, 0, 0, 0, 0, 0], .ret 0] ∧
        decode .setup [0, 5, 5, 0, 0, 0, 0, 0] = .ok (.setAddress false 5 0 0, [0, 5, 5, 0, 0, 0, 0, 0].drop 8)) :=
  ⟨by decide,
    by decide,
    by decide,
    by decide⟩

theorem witness_IllegalWordsRefused :
    (state5.settled = true ∧ state5.input = [.client [0x06, 0, 0, 0, 0, 0, 0, 0]] ∧
        decode .client [0x06, 0, 0, 0, 0, 0, 0, 0] = .error (.unknownOp 6)) ∧
    (state6.settled = true ∧ state6.input = [.bus [0x20]] ∧ decode .bus [0x20] = .error .truncated) :=
  ⟨by decide,
    by decide⟩

theorem witness_ClientAccesses :
    (state7.settled = true ∧ state7.input = [.writeBuf 3 0xFFFFFFFF 7] ∧ (3 : Handle).toNat < state7.params.numReq ∧
        state7.mem.wf = true) ∧
    (state8.settled = true ∧ state8.input = [.writeBuf 4 0 7] ∧ state8.params.numReq ≤ (4 : Handle).toNat) ∧
    (state9.settled = true ∧ state9.input = [.setComplete 3 true] ∧ (3 : Handle).toNat < state9.params.numReq ∧
        (state9.reqAt 3).status ≠ .inProgress) ∧
    (state10.settled = true ∧ state10.input = [.setComplete 3 true] ∧ (3 : Handle).toNat < state10.params.numReq ∧
        (state10.reqAt 3).status = .inProgress) ∧
    (state11.settled = true ∧ state11.input = [.setComplete 4 true] ∧ state11.params.numReq ≤ (4 : Handle).toNat) ∧
    (state12.settled = true ∧ state12.input = [.callbackReturn 0] ∧ state12.stack = []) :=
  ⟨by decide,
    by decide,
    by decide,
    by decide,
    by decide,
    by decide⟩

theorem witness_GetRequestsAnswer :
    (State.Quiet state13 ∧ State.Shaped state13 ∧ (state13.hwAt 0).released.fifo.length + 2 ≤ state13.params.fifoSize 0) ∧
    (State.Quiet state14 ∧ State.Shaped state14 ∧ (state14.hwAt 0).released.fifo.length + 1 ≤ state14.params.fifoSize 0) ∧
    (State.Quiet s1 ∧ State.Shaped s1 ∧ s1.params.numEp ≤ (3 : EpNum).toNat) ∧
    (State.Quiet s1 ∧ State.Shaped s1 ∧ (2 : EpNum) ≠ 0 ∧ (s1.epAt 2).enabled = false) ∧
    (State.Quiet state15 ∧ State.Shaped state15 ∧ (2 : EpNum).toNat < state15.params.numEp ∧
        (state15.epAt 2).enabled = true ∧ (state15.hwAt 0).released.fifo.length + 2 ≤ state15.params.fifoSize 0) :=
  ⟨⟨⟨rfl, rfl⟩, shaped_of (by decide), by decide⟩,
    ⟨⟨rfl, rfl⟩, shaped_of (by decide), by decide⟩,
    ⟨⟨rfl, rfl⟩, shaped_of (by decide), by decide⟩,
    ⟨⟨rfl, rfl⟩, shaped_of (by decide), by decide⟩,
    ⟨⟨rfl, rfl⟩, shaped_of (by decide), by decide⟩⟩

theorem witness_SetAddressEffect :
    (State.Quiet s1) :=
  ⟨rfl, rfl⟩

theorem witness_ClearFeatureHaltEffect :
    (State.Quiet s1 ∧ s1.params.numEp ≤ (3 : EpNum).toNat) ∧
    (State.Quiet s1 ∧ (2 : EpNum) ≠ 0 ∧ (s1.epAt 2).enabled = false) ∧
    (State.Quiet s1 ∧ (0 : EpNum).toNat < s1.params.numEp) ∧
    (State.Quiet s2 ∧ (2 : EpNum).toNat < s2.params.numEp ∧ (2 : EpNum) ≠ 0 ∧ (s2.epAt 2).enabled = true) :=
  ⟨⟨⟨rfl, rfl⟩, by decide⟩,
    ⟨⟨rfl, rfl⟩, by decide⟩,
    ⟨⟨rfl, rfl⟩, by decide⟩,
    ⟨⟨rfl, rfl⟩, by decide⟩⟩

theorem witness_SetFeatureHaltEffect :
    (State.Quiet s1 ∧ s1.params.numEp ≤ (3 : EpNum).toNat) ∧
    (State.Quiet s1 ∧ (s1.epAt 2).enabled = false) ∧
    (State.Quiet s2 ∧ (2 : EpNum).toNat < s2.params.numEp ∧ (2 : EpNum) ≠ 0 ∧ (s2.epAt 2).enabled = true) :=
  ⟨⟨⟨rfl, rfl⟩, by decide⟩,
    ⟨⟨rfl, rfl⟩, by decide⟩,
    ⟨⟨rfl, rfl⟩, by decide⟩⟩

theorem witness_FeatureRequestsEffect :
    (State.Quiet s1) :=
  ⟨rfl, rfl⟩

theorem witness_SetConfigurationSetInterfaceEffect :
    (State.Quiet s1 ∧ s1.params.forwardConfig = true ∧ s1.dev.driver ≠ none) ∧
    (State.Quiet State.reset ∧ State.reset.dev.driver = none) ∧
    (State.Quiet state16 ∧ state16.params.forwardConfig = false) :=
  ⟨⟨⟨rfl, rfl⟩, by decide⟩,
    ⟨⟨rfl, rfl⟩, by decide⟩,
    ⟨⟨rfl, rfl⟩, by decide⟩⟩

theorem witness_ForwardEffect :
    (State.Quiet s1 ∧ s1.dev.driver ≠ none) ∧
    (State.Quiet State.reset ∧ State.reset.dev.driver = none) :=
  ⟨⟨⟨rfl, rfl⟩, by decide⟩,
    ⟨⟨rfl, rfl⟩, by decide⟩⟩

theorem witness_CallbackReturns :
    (state17.stack = [.callback .suspend] ∧ state17.input = [.callbackReturn 0]) ∧
    (state18.stack = [.callback .suspend, .dispatchExit 0] ∧ state18.input = [.callbackReturn 0] ∧
        (Frame.dispatchExit 0).isCallback = false) ∧
    (state19.stack = [.callback .suspend, .callback .bind] ∧ state19.input = [.callbackReturn 0] ∧
        (Frame.callback .bind).isCallback = true) ∧
    (state20.stack = [.callback (.setup ⟨0, 9, 1, 0, 0⟩), .afterConfig] ∧ state20.input = [.callbackReturn (-1)] ∧
        state20.race = []) ∧
    (state21.stack = [.callback (.setup ⟨0xC0, 1, 0, 0, 9⟩), .afterForward] ∧ state21.input = [.callbackReturn 0] ∧
        state21.race = []) :=
  ⟨by decide,
    by decide,
    by decide,
    by decide,
    by decide⟩

theorem witness_BadOperandsRefused :
    (s1.settled = true ∧ s1.params.numEp ≤ (3 : EpNum).toNat) ∧
    (s1.settled = true ∧ s1.params.numReq ≤ (4 : Handle).toNat) ∧
    (s1.settled = true ∧ (s1.reqAt 3).allocated = false) :=
  ⟨by decide,
    by decide,
    by decide⟩

theorem witness_EpenEffect :
    (State.Quiet s1 ∧ (2 : EpNum).toNat < s1.params.numEp) :=
  ⟨⟨rfl, rfl⟩, by decide⟩

theorem witness_EpdisEffect :
    (State.Quiet state22 ∧ State.Shaped state22 ∧ State.QueuesSound state22 ∧ State.NoCallbacks state22 2 ∧
        (2 : EpNum).toNat < state22.params.numEp) :=
  ⟨⟨rfl, rfl⟩, shaped_of (by decide), sound_of (by decide), noCallbacks_of (by decide), by decide⟩

theorem witness_EphaltEffect :
    (State.Quiet s2 ∧ (2 : EpNum).toNat < s2.params.numEp) :=
  ⟨⟨rfl, rfl⟩, by decide⟩

theorem witness_HaltIsIdempotent :
    (State.Quiet s2 ∧ State.Shaped s2 ∧ (2 : EpNum).toNat < s2.params.numEp ∧ (2 : EpNum) ≠ 0 ∧
        (s2.epAt 2).enabled = true) :=
  ⟨⟨rfl, rfl⟩, shaped_of (by decide), by decide⟩

theorem witness_EpfstatEffect :
    (State.Quiet s2 ∧ (2 : EpNum).toNat < s2.params.numEp) :=
  ⟨⟨rfl, rfl⟩, by decide⟩

theorem witness_RqallocEffect :
    (State.Quiet state23 ∧ State.Shaped state23 ∧ (2 : EpNum).toNat < state23.params.numEp ∧
        (∀ i ∈ List.range (3 : Handle).toNat, (state23.reqAt (BitVec.ofNat 16 i)).allocated = true) ∧
        (3 : Handle).toNat < state23.params.numReq ∧ (state23.reqAt 3).allocated = false) ∧
    (State.Quiet state24 ∧ State.Shaped state24 ∧
        (∀ i ∈ List.range (4 : Handle).toNat, (state24.reqAt (BitVec.ofNat 16 i)).allocated = true) ∧
        state24.params.numReq ≤ (4 : Handle).toNat) :=
  ⟨⟨⟨rfl, rfl⟩, shaped_of (by decide), by decide⟩,
    ⟨⟨rfl, rfl⟩, shaped_of (by decide), by decide⟩⟩

theorem witness_RqfreeRqsetEffect :
    (State.Quiet state25 ∧ (2 : EpNum).toNat < state25.params.numEp ∧ (3 : Handle).toNat < state25.params.numReq ∧
        (state25.reqAt 3).allocated = true) :=
  ⟨⟨rfl, rfl⟩, by decide⟩

theorem witness_EpqueueEffect :
    (State.Quiet state26 ∧ (2 : EpNum).toNat < state26.params.numEp ∧ (3 : Handle).toNat < state26.params.numReq ∧
        (state26.reqAt 3).allocated = true ∧ (state26.reqAt 3).status = .inProgress) ∧
    (State.Quiet state27 ∧ (2 : EpNum).toNat < state27.params.numEp ∧ (3 : Handle).toNat < state27.params.numReq ∧
        (state27.reqAt 3).allocated = true ∧ (state27.reqAt 3).status ≠ .inProgress ∧ state27.dev.driver = none) ∧
    (State.Quiet state25 ∧ (2 : EpNum).toNat < state25.params.numEp ∧ (3 : Handle).toNat < state25.params.numReq ∧
        (state25.reqAt 3).allocated = true ∧ (state25.reqAt 3).status ≠ .inProgress ∧ (2 : EpNum) ≠ 0 ∧
        (state25.epAt 2).enabled = false) ∧
    (State.Quiet state28 ∧ (2 : EpNum).toNat < state28.params.numEp ∧ (3 : Handle).toNat < state28.params.numReq ∧
        (state28.reqAt 3).allocated = true ∧ (state28.reqAt 3).status ≠ .inProgress ∧ state28.dev.driver ≠ none ∧
        (state28.epAt 2).enabled = true ∧ (state28.epAt 2).queue ≠ []) :=
  ⟨⟨⟨rfl, rfl⟩, by decide⟩,
    ⟨⟨rfl, rfl⟩, by decide⟩,
    ⟨⟨rfl, rfl⟩, by decide⟩,
    ⟨⟨rfl, rfl⟩, by decide⟩⟩

theorem witness_EpqueueServesTheHead :
    (State.Quiet state29 ∧ State.Shaped state29 ∧ (2 : EpNum).toNat < state29.params.numEp ∧
        (3 : Handle).toNat < state29.params.numReq ∧ (state29.reqAt 3).allocated = true ∧
        (state29.reqAt 3).status ≠ .inProgress ∧ state29.dev.driver ≠ none ∧ (2 : EpNum) ≠ 0 ∧
        (state29.epAt 2).enabled = true ∧ (state29.epAt 2).queue = [] ∧ 1 ≤ (state29.epAt 2).maxp.toNat ∧
        (state29.epAt 2).dir = .inward ∧ (state29.csrAt 2).ipr = false ∧ (state29.hwAt 2).fifo = [] ∧
        (State.nextPacket 2 3 { state29.afterEnqueue 2 3 with stack := .ret 0 :: state29.stack }).length ≤ state29.params.fifoSize 2) ∧
    (State.Quiet state30 ∧ State.Shaped state30 ∧ (2 : EpNum).toNat < state30.params.numEp ∧
        (3 : Handle).toNat < state30.params.numReq ∧ (state30.reqAt 3).allocated = true ∧
        (state30.reqAt 3).status ≠ .inProgress ∧ state30.dev.driver ≠ none ∧ (2 : EpNum) ≠ 0 ∧
        (state30.epAt 2).enabled = true ∧ (state30.epAt 2).queue = [] ∧ 1 ≤ (state30.epAt 2).maxp.toNat ∧
        (state30.epAt 2).dir = .inward ∧ (state30.csrAt 2).ipr = false ∧ (state30.hwAt 2).fifo ≠ []) ∧
    (State.Quiet state31 ∧ State.Shaped state31 ∧ (2 : EpNum).toNat < state31.params.numEp ∧
        (3 : Handle).toNat < state31.params.numReq ∧ (state31.reqAt 3).allocated = true ∧
        (state31.reqAt 3).status ≠ .inProgress ∧ state31.dev.driver ≠ none ∧ (2 : EpNum) ≠ 0 ∧
        (state31.epAt 2).enabled = true ∧ (state31.epAt 2).queue = [] ∧ 1 ≤ (state31.epAt 2).maxp.toNat ∧
        (state31.epAt 2).dir = .out ∧ (state31.csrAt 2).opr = true ∧
        (state31.hwAt 2).cnt = (state31.hwAt 2).fifo.length) ∧
    (State.Quiet state32 ∧ State.Shaped state32 ∧ (2 : EpNum).toNat < state32.params.numEp ∧
        (3 : Handle).toNat < state32.params.numReq ∧ (state32.reqAt 3).allocated = true ∧
        (state32.reqAt 3).status ≠ .inProgress ∧ state32.dev.driver ≠ none ∧ (2 : EpNum) ≠ 0 ∧
        (state32.epAt 2).enabled = true ∧ (state32.epAt 2).queue = [] ∧ 1 ≤ (state32.epAt 2).maxp.toNat ∧
        (state32.epAt 2).dir = .inward ∧ (state32.csrAt 2).ipr = true) ∧
    (State.Quiet state33 ∧ State.Shaped state33 ∧ (2 : EpNum).toNat < state33.params.numEp ∧
        (3 : Handle).toNat < state33.params.numReq ∧ (state33.reqAt 3).allocated = true ∧
        (state33.reqAt 3).status ≠ .inProgress ∧ state33.dev.driver ≠ none ∧ (2 : EpNum) ≠ 0 ∧
        (state33.epAt 2).enabled = true ∧ (state33.epAt 2).queue = [] ∧ 1 ≤ (state33.epAt 2).maxp.toNat ∧
        (state33.epAt 2).dir = .out ∧ (state33.csrAt 2).opr = false) :=
  ⟨⟨⟨rfl, rfl⟩, shaped_of (by decide), by decide⟩,
    ⟨⟨rfl, rfl⟩, shaped_of (by decide), by decide⟩,
    ⟨⟨rfl, rfl⟩, shaped_of (by decide), by decide⟩,
    ⟨⟨rfl, rfl⟩, shaped_of (by decide), by decide⟩,
    ⟨⟨rfl, rfl⟩, shaped_of (by decide), by decide⟩⟩

theorem witness_EpqueueKicksEp0 :
    (State.Quiet state34 ∧ State.Shaped state34 ∧ (3 : Handle).toNat < state34.params.numReq ∧
        (state34.reqAt 3).allocated = true ∧ (state34.reqAt 3).status ≠ .inProgress ∧ state34.dev.driver ≠ none ∧
        (state34.epAt 0).queue = [] ∧ 1 ≤ (state34.epAt 0).maxp.toNat ∧ state34.dev.ep0state = .inData ∧
        (state34.csrAt 0).ipr = false ∧ (state34.hwAt 0).fifo = [] ∧
        (State.nextPacket 0 3 { state34.afterEnqueue 0 3 with stack := .ret 0 :: state34.stack }).length ≤ state34.params.fifoSize 0) ∧
    (State.Quiet state35 ∧ State.Shaped state35 ∧ (3 : Handle).toNat < state35.params.numReq ∧
        (state35.reqAt 3).allocated = true ∧ (state35.reqAt 3).status ≠ .inProgress ∧ state35.dev.driver ≠ none ∧
        (state35.epAt 0).queue = [] ∧ 1 ≤ (state35.epAt 0).maxp.toNat ∧ state35.dev.ep0state = .inData ∧
        (state35.csrAt 0).ipr = false ∧ (state35.hwAt 0).fifo ≠ []) ∧
    (State.Quiet state36 ∧ State.Shaped state36 ∧ (3 : Handle).toNat < state36.params.numReq ∧
        (state36.reqAt 3).allocated = true ∧ (state36.reqAt 3).status ≠ .inProgress ∧ state36.dev.driver ≠ none ∧
        (state36.epAt 0).queue = [] ∧ 1 ≤ (state36.epAt 0).maxp.toNat ∧ state36.dev.ep0state = .inData ∧
        (state36.csrAt 0).ipr = true) ∧
    (State.Quiet state37 ∧ State.Shaped state37 ∧ (3 : Handle).toNat < state37.params.numReq ∧
        (state37.reqAt 3).allocated = true ∧ (state37.reqAt 3).status ≠ .inProgress ∧ state37.dev.driver ≠ none ∧
        (state37.epAt 0).queue = [] ∧ 1 ≤ (state37.epAt 0).maxp.toNat ∧ state37.dev.ep0state = .outData ∧
        (state37.reqAt 3).length = 0) ∧
    (State.Quiet state38 ∧ State.Shaped state38 ∧ (3 : Handle).toNat < state38.params.numReq ∧
        (state38.reqAt 3).allocated = true ∧ (state38.reqAt 3).status ≠ .inProgress ∧ state38.dev.driver ≠ none ∧
        (state38.epAt 0).queue = [] ∧ 1 ≤ (state38.epAt 0).maxp.toNat ∧ state38.dev.ep0state = .outData ∧
        (state38.reqAt 3).length ≠ 0 ∧ (state38.csrAt 0).opr = true ∧
        (state38.hwAt 0).cnt = (state38.hwAt 0).fifo.length) ∧
    (State.Quiet state39 ∧ State.Shaped state39 ∧ (3 : Handle).toNat < state39.params.numReq ∧
        (state39.reqAt 3).allocated = true ∧ (state39.reqAt 3).status ≠ .inProgress ∧ state39.dev.driver ≠ none ∧
        (state39.epAt 0).queue = [] ∧ 1 ≤ (state39.epAt 0).maxp.toNat ∧ state39.dev.ep0state = .outData ∧
        (state39.reqAt 3).length ≠ 0 ∧ (state39.csrAt 0).opr = false) ∧
    (State.Quiet state25 ∧ State.Shaped state25 ∧ (3 : Handle).toNat < state25.params.numReq ∧
        (state25.reqAt 3).allocated = true ∧ (state25.reqAt 3).status ≠ .inProgress ∧ state25.dev.driver ≠ none ∧
        (state25.epAt 0).queue = [] ∧ 1 ≤ (state25.epAt 0).maxp.toNat ∧ state25.dev.ep0state ≠ .inData ∧
        state25.dev.ep0state ≠ .outData ∧ (state25.reqAt 3).length = 0) ∧
    (State.Quiet state40 ∧ State.Shaped state40 ∧ (3 : Handle).toNat < state40.params.numReq ∧
        (state40.reqAt 3).allocated = true ∧ (state40.reqAt 3).status ≠ .inProgress ∧ state40.dev.driver ≠ none ∧
        (state40.epAt 0).queue = [] ∧ 1 ≤ (state40.epAt 0).maxp.toNat ∧ state40.dev.ep0state ≠ .inData ∧
        state40.dev.ep0state ≠ .outData ∧ (state40.reqAt 3).length ≠ 0) :=
  ⟨⟨⟨rfl, rfl⟩, shaped_of (by decide), by decide⟩,
    ⟨⟨rfl, rfl⟩, shaped_of (by decide), by decide⟩,
    ⟨⟨rfl, rfl⟩, shaped_of (by decide), by decide⟩,
    ⟨⟨rfl, rfl⟩, shaped_of (by decide), by decide⟩,
    ⟨⟨rfl, rfl⟩, shaped_of (by decide), by decide⟩,
    ⟨⟨rfl, rfl⟩, shaped_of (by decide), by decide⟩,
    ⟨⟨rfl, rfl⟩, shaped_of (by decide), by decide⟩,
    ⟨⟨rfl, rfl⟩, shaped_of (by decide), by decide⟩⟩

theorem witness_EpdeqEffect :
    (State.Quiet state41 ∧ State.Shaped state41 ∧ (2 : EpNum).toNat < state41.params.numEp ∧
        (3 : Handle).toNat < state41.params.numReq ∧ (state41.reqAt 3).allocated = true ∧
        (3 : Handle) ∉ (state41.epAt 2).queue) ∧
    (State.Quiet state26 ∧ State.Shaped state26 ∧ (2 : EpNum).toNat < state26.params.numEp ∧
        (3 : Handle).toNat < state26.params.numReq ∧ (state26.reqAt 3).allocated = true ∧
        (3 : Handle) ∈ (state26.epAt 2).queue ∧ (state26.reqAt 3).complete = false) ∧
    (State.Quiet state42 ∧ State.Shaped state42 ∧ (2 : EpNum).toNat < state42.params.numEp ∧
        (3 : Handle).toNat < state42.params.numReq ∧ (state42.reqAt 3).allocated = true ∧
        (3 : Handle) ∈ (state42.epAt 2).queue ∧ (state42.reqAt 3).complete = true) :=
  ⟨⟨⟨rfl, rfl⟩, shaped_of (by decide), by decide⟩,
    ⟨⟨rfl, rfl⟩, shaped_of (by decide), by decide⟩,
    ⟨⟨rfl, rfl⟩, shaped_of (by decide), by decide⟩⟩

theorem witness_PullupSelfpwrEffect :
    (State.Quiet s1) :=
  ⟨rfl, rfl⟩

theorem witness_RegdrvUnregdrvEffect :
    (State.Quiet State.reset ∧ State.reset.stack = [] ∧ State.reset.dev.driver = none) ∧
    (State.Quiet s1 ∧ s1.stack = [] ∧ s1.dev.driver.map Driver.id = some 1) :=
  ⟨⟨⟨rfl, rfl⟩, by decide⟩,
    ⟨⟨rfl, rfl⟩, by decide⟩⟩

theorem witness_BindReturns :
    (state43.race = [] ∧ state43.stack = [.callback .bind, .afterBind] ∧ state43.input = [.callbackReturn (-1)]) ∧
    (state44.race = [] ∧ state44.stack = [.callback .bind, .afterBind] ∧ state44.input = [.callbackReturn 0]) :=
  ⟨by decide,
    by decide⟩

theorem witness_UnregisterGoesOn :
    (State.Shaped state45 ∧ State.QueuesSound state45 ∧ (∀ e, e = 0 ∨ (State.epAt state45 e).enabled = true →
        State.NoCallbacks state45 e) ∧ state45.race = [] ∧
        state45.stack = [.callback .disconnect, .unregMain state45.params.dataEndpoints] ∧
        state45.input = [.callbackReturn 0] ∧ state45.dev.driver = some ⟨1, 0x7F⟩ ∧ (state45.epAt 1).enabled = true ∧
        (state45.epAt 2).enabled = true) ∧
    (State.Shaped state46 ∧ State.QueuesSound state46 ∧ (∀ e, e = 0 ∨ (State.epAt state46 e).enabled = true →
        State.NoCallbacks state46 e) ∧ state46.race = [] ∧
        state46.stack = [.callback .disconnect, .unregMain state46.params.dataEndpoints] ∧
        state46.input = [.callbackReturn 0] ∧ state46.dev.driver = some ⟨1, 0x7F⟩ ∧ (state46.epAt 1).enabled = true ∧
        (state46.epAt 2).enabled = false) :=
  ⟨⟨shaped_of (by decide), sound_of (by decide), fun e _ => noCallbacks_of (all_endpoints e (by decide)), by decide⟩,
    ⟨shaped_of (by decide), sound_of (by decide), fun e _ => noCallbacks_of (all_endpoints e (by decide)), by decide⟩⟩

theorem witness_NestedAndIdleDispatch :
    (state47.settled = true ∧ state47.dev.inDispatch = true) ∧
    (state48.settled = true ∧ state48.stack ≠ []) ∧
    (s1.race = [] ∧ s1.stack = [] ∧ s1.dev.inDispatch = false ∧ s1.busEvt = 0 ∧ s1.epEvt = 0) :=
  ⟨by decide,
    by decide,
    by decide⟩

theorem witness_DispatchHandsOut :
    (State.Shaped state49 ∧ state49.race = [] ∧ state49.stack = [] ∧ state49.dev.inDispatch = false ∧
        state49.busEvt.getLsbD 2 = false) :=
  ⟨shaped_of (by decide), by decide⟩

theorem witness_DispatchOfReset :
    (State.Shaped state50 ∧ State.QueuesSound state50 ∧ State.NoCallbacks state50 0 ∧ state50.race = [] ∧
        state50.stack = [] ∧ state50.dev.inDispatch = false ∧ state50.busEvt.getLsbD 2 = true) :=
  ⟨shaped_of (by decide), sound_of (by decide), noCallbacks_of (by decide), by decide⟩

theorem witness_NotifyCallbacks :
    (state51.stack = [.notifyResume, .dispatchExit 0]) ∧
    (state52.stack = [.notifySuspend]) :=
  ⟨by decide,
    by decide⟩

theorem witness_BusEventsEffect :
    (s1.plat.padMode = .device ∧ s1.plat.clkGated = false ∧ s1.plat.pullup = true) ∧
    (¬(State.reset.plat.padMode = .device)) :=
  ⟨by decide,
    by decide⟩

theorem witness_BsetupEffect :
    (State.Shaped s1) :=
  shaped_of (by decide)

theorem witness_BoutEffect :
    ((2 : EpNum).toNat < s2.params.numEp) :=
  by decide

theorem witness_BinEffect :
    ((2 : EpNum).toNat < s2.params.numEp) :=
  by decide

theorem witness_BstallBstatusEffect :
    ((2 : EpNum).toNat < s2.params.numEp) :=
  by decide

theorem witness_BusAgentFrame :
    ((Instr.bin 3).port = .bus ∧ s2.params.numEp ≤ (3 : EpNum).toNat ∧ answersNext (exec (.bin 3) s2) = true) ∧
    ((Instr.bout 1 [1]).port = .bus ∧ answersNext (exec (.bout 1 [1]) s2) = true) :=
  ⟨by decide,
    by decide⟩

theorem witness_WrfifoRdfifoEffect :
    (State.Quiet state53 ∧ State.Shaped state53 ∧ state53.head 2 = some 3 ∧ (state53.csrAt 2).ipr = false ∧
        1 ≤ (state53.epAt 2).maxp.toNat ∧ (state53.hwAt 2).fifo = [] ∧
        (State.nextPacket 2 3 state53).length ≤ state53.params.fifoSize 2) ∧
    (State.Quiet state54 ∧ State.Shaped state54 ∧ state54.head 0 = some 3 ∧ (state54.csrAt 0).ipr = false ∧
        1 ≤ (state54.epAt 0).maxp.toNat ∧ state54.dev.ep0state = .inData ∧ (state54.hwAt 0).fifo = [] ∧
        (State.nextPacket 0 3 state54).length ≤ state54.params.fifoSize 0) ∧
    (State.Quiet state55 ∧ State.Shaped state55 ∧ state55.head 1 = some 3 ∧ (state55.csrAt 1).opr = true ∧
        (state55.hwAt 1).cnt = (state55.hwAt 1).fifo.length ∧ state55.mem.wf = true) ∧
    (State.Quiet state56 ∧ State.Shaped state56 ∧ state56.head 0 = some 3 ∧ (state56.csrAt 0).opr = true ∧
        state56.dev.ep0state = .outData ∧ (state56.hwAt 0).cnt = (state56.hwAt 0).fifo.length ∧ state56.mem.wf = true) :=
  ⟨⟨⟨rfl, rfl⟩, shaped_of (by decide), by decide⟩,
    ⟨⟨rfl, rfl⟩, shaped_of (by decide), by decide⟩,
    ⟨⟨rfl, rfl⟩, shaped_of (by decide), by decide⟩,
    ⟨⟨rfl, rfl⟩, shaped_of (by decide), by decide⟩⟩

theorem witness_PreconditionsRefused :
    (s2.head 2 = none) ∧
    ((state57.csrAt 2).ipr = true) ∧
    ((state58.epAt 1).maxp = 0) ∧
    ((state59.csrAt 1).opr = false) ∧
    (state60.head 2 ≠ none ∧ (state60.csrAt 2).ipr = false ∧ (state60.hwAt 2).fifo ≠ []) ∧
    (state61.head 0 ≠ none ∧ state61.dev.ep0state ≠ .inData ∧ state61.dev.ep0state ≠ .outData) ∧
    ((2 : Handle) ∉ (state59.epAt 1).queue) ∧
    (state62.params.fifoSize 0 ≤ (state62.turn.hwAt 0).fifo.length) ∧
    (State.Quiet state63 ∧ State.Shaped state63 ∧ state63.head 2 = some 3 ∧ (state63.csrAt 2).ipr = false ∧
        (state63.hwAt 2).fifo = [] ∧ 1 ≤ (state63.epAt 2).maxp.toNat ∧ (2 : EpNum) ≠ 0 ∧
        state63.params.fifoSize 2 < (State.nextPacket 2 3 state63).length) ∧
    (State.Quiet state64 ∧ State.Shaped state64 ∧ state64.head 0 = some 3 ∧ (state64.csrAt 0).ipr = false ∧
        (state64.hwAt 0).fifo = [] ∧ 1 ≤ (state64.epAt 0).maxp.toNat ∧ state64.dev.ep0state = .inData ∧
        state64.params.fifoSize 0 < (State.nextPacket 0 3 state64).length) ∧
    (State.Quiet state14 ∧ State.Shaped state14 ∧ state14.params.fifoSize 0 < (state14.hwAt 0).released.fifo.length + 2 ∧
        (0 : EpNum).toNat < state14.params.numEp) ∧
    (State.Quiet state62 ∧ State.Shaped state62 ∧ state62.params.fifoSize 0 < (state62.hwAt 0).released.fifo.length + 1) ∧
    (State.Quiet state65 ∧ State.Shaped state65 ∧ state65.params.fifoSize 0 < (state65.hwAt 0).released.fifo.length + 2 ∧
        (2 : EpNum).toNat < state65.params.numEp ∧ (state65.epAt 2).enabled = true) :=
  ⟨by decide,
    by decide,
    by decide,
    by decide,
    by decide,
    by decide,
    by decide,
    by decide,
    ⟨⟨rfl, rfl⟩, shaped_of (by decide), by decide⟩,
    ⟨⟨rfl, rfl⟩, shaped_of (by decide), by decide⟩,
    ⟨⟨rfl, rfl⟩, shaped_of (by decide), by decide⟩,
    ⟨⟨rfl, rfl⟩, shaped_of (by decide), by decide⟩,
    ⟨⟨rfl, rfl⟩, shaped_of (by decide), by decide⟩⟩

theorem witness_DoneEffect :
    (State.Quiet state26 ∧ State.Shaped state26 ∧ (3 : Handle).toNat < state26.params.numReq ∧
        (3 : Handle) ∈ (state26.epAt 2).queue) :=
  ⟨⟨rfl, rfl⟩, shaped_of (by decide), by decide⟩

theorem witness_NukeEffect :
    (State.Quiet state66 ∧ State.Shaped state66 ∧ State.QueuesSound state66 ∧ State.NoCallbacks state66 2) ∧
    (State.Quiet state67 ∧ State.Shaped state67 ∧ State.QueuesSound state67 ∧ (state67.epAt 2).queue = [0, 3] ∧
        (state67.reqAt 0).complete = true) :=
  ⟨⟨⟨rfl, rfl⟩, shaped_of (by decide), sound_of (by decide), noCallbacks_of (by decide)⟩,
    ⟨⟨rfl, rfl⟩, shaped_of (by decide), sound_of (by decide), by decide⟩⟩

theorem witness_Ep0hDataPhases :
    (State.Quiet s1 ∧ State.Shaped s1 ∧ (s1.csrAt 0).sentStall = false ∧ (s1.csrAt 0).setupEnd = false ∧
        s1.dev.ep0state = .idle ∧ (s1.csrAt 0).opr = false) ∧
    (State.Quiet state54 ∧ State.Shaped state54 ∧ (state54.csrAt 0).sentStall = false ∧
        (state54.csrAt 0).setupEnd = false ∧ state54.dev.ep0state = .inData ∧ state54.head 0 = some 3 ∧
        (state54.csrAt 0).ipr = false ∧ 1 ≤ (state54.epAt 0).maxp.toNat ∧ (state54.hwAt 0).fifo = [] ∧
        (State.nextPacket 0 3 state54).length ≤ state54.params.fifoSize 0) ∧
    (State.Quiet state68 ∧ State.Shaped state68 ∧ (state68.csrAt 0).sentStall = false ∧
        (state68.csrAt 0).setupEnd = false ∧ state68.dev.ep0state = .inData ∧ state68.head 0 = some 3 ∧
        (state68.csrAt 0).ipr = false ∧ (state68.hwAt 0).fifo ≠ []) ∧
    (State.Quiet state69 ∧ State.Shaped state69 ∧ (state69.csrAt 0).sentStall = false ∧
        (state69.csrAt 0).setupEnd = false ∧ state69.dev.ep0state = .inData ∧ state69.head 0 = none) ∧
    (State.Quiet state70 ∧ State.Shaped state70 ∧ (state70.csrAt 0).sentStall = false ∧
        (state70.csrAt 0).setupEnd = false ∧ state70.dev.ep0state = .inData ∧ (state70.csrAt 0).ipr = true) ∧
    (State.Quiet state71 ∧ State.Shaped state71 ∧ (state71.csrAt 0).sentStall = false ∧
        (state71.csrAt 0).setupEnd = false ∧ state71.dev.ep0state = .outData ∧ state71.head 0 = some 3 ∧
        (state71.csrAt 0).opr = true ∧ (state71.hwAt 0).cnt = (state71.hwAt 0).fifo.length) ∧
    (State.Quiet state72 ∧ State.Shaped state72 ∧ (state72.csrAt 0).sentStall = false ∧
        (state72.csrAt 0).setupEnd = false ∧ state72.dev.ep0state = .outData ∧ state72.head 0 = none) ∧
    (State.Quiet state73 ∧ State.Shaped state73 ∧ (state73.csrAt 0).sentStall = false ∧
        (state73.csrAt 0).setupEnd = false ∧ state73.dev.ep0state = .outData ∧ (state73.csrAt 0).opr = false) ∧
    (State.Quiet state74 ∧ State.Shaped state74 ∧ (state74.csrAt 0).sentStall = false ∧
        (state74.csrAt 0).setupEnd = false ∧ state74.dev.ep0state = .stall) :=
  ⟨⟨⟨rfl, rfl⟩, shaped_of (by decide), by decide⟩,
    ⟨⟨rfl, rfl⟩, shaped_of (by decide), by decide⟩,
    ⟨⟨rfl, rfl⟩, shaped_of (by decide), by decide⟩,
    ⟨⟨rfl, rfl⟩, shaped_of (by decide), by decide⟩,
    ⟨⟨rfl, rfl⟩, shaped_of (by decide), by decide⟩,
    ⟨⟨rfl, rfl⟩, shaped_of (by decide), by decide⟩,
    ⟨⟨rfl, rfl⟩, shaped_of (by decide), by decide⟩,
    ⟨⟨rfl, rfl⟩, shaped_of (by decide), by decide⟩,
    ⟨⟨rfl, rfl⟩, shaped_of (by decide), by decide⟩⟩

theorem witness_Ep0hSetupEnd :
    (State.Quiet state75 ∧ State.Shaped state75 ∧ State.QueuesSound state75 ∧ State.NoCallbacks state75 0 ∧
        (state75.csrAt 0).sentStall = false ∧ (state75.csrAt 0).setupEnd = true) :=
  ⟨⟨rfl, rfl⟩, shaped_of (by decide), sound_of (by decide), noCallbacks_of (by decide), by decide⟩

theorem witness_Ep0hSentStall :
    (State.Quiet state76 ∧ State.Shaped state76 ∧ State.QueuesSound state76 ∧ State.NoCallbacks state76 0 ∧
        (state76.csrAt 0).sentStall = true ∧ (state76.csrAt 0).setupEnd = true) ∧
    (State.Quiet state77 ∧ State.Shaped state77 ∧ State.QueuesSound state77 ∧ State.NoCallbacks state77 0 ∧
        (state77.csrAt 0).sentStall = true ∧ (state77.csrAt 0).setupEnd = false ∧ (state77.csrAt 0).opr = false) ∧
    (State.Quiet state78 ∧ State.Shaped state78 ∧ State.QueuesSound state78 ∧ State.NoCallbacks state78 0 ∧
        (state78.csrAt 0).sentStall = true ∧ (state78.csrAt 0).setupEnd = false ∧ (state78.csrAt 0).opr = true ∧
        (state78.hwAt 0).cnt < 8) ∧
    (State.Quiet state79 ∧ State.Shaped state79 ∧ State.QueuesSound state79 ∧ State.NoCallbacks state79 0 ∧
        (state79.csrAt 0).sentStall = true ∧ (state79.csrAt 0).setupEnd = false ∧ (state79.csrAt 0).opr = true ∧
        8 ≤ (state79.hwAt 0).cnt ∧ [0x80, 6, 0, 1, 0, 0, 18, (0 : Byte)].length = 8 ∧
        (state79.hwAt 0).fifo = [0x80, 6, 0, 1, 0, 0, 18, 0] ++ [] ∧
        decode .setup [0x80, 6, 0, 1, 0, 0, 18, 0] = .ok (.forward ⟨0x80, 6, 0x100, 0, 18⟩, [])) :=
  ⟨⟨⟨rfl, rfl⟩, shaped_of (by decide), sound_of (by decide), noCallbacks_of (by decide), by decide⟩,
    ⟨⟨rfl, rfl⟩, shaped_of (by decide), sound_of (by decide), noCallbacks_of (by decide), by decide⟩,
    ⟨⟨rfl, rfl⟩, shaped_of (by decide), sound_of (by decide), noCallbacks_of (by decide), by decide⟩,
    ⟨⟨rfl, rfl⟩, shaped_of (by decide), sound_of (by decide), noCallbacks_of (by decide), by decide⟩⟩

theorem witness_Ep0hSetupPacket :
    (State.Quiet state80 ∧ State.Shaped state80 ∧ State.QueuesSound state80 ∧ State.NoCallbacks state80 0 ∧
        (state80.csrAt 0).sentStall = false ∧ (state80.csrAt 0).setupEnd = false ∧ (state80.csrAt 0).opr = true ∧
        state80.dev.ep0state = .idle ∧ (state80.hwAt 0).cnt < 8) ∧
    (State.Quiet state81 ∧ State.Shaped state81 ∧ State.QueuesSound state81 ∧ State.NoCallbacks state81 0 ∧
        (state81.csrAt 0).sentStall = false ∧ (state81.csrAt 0).setupEnd = false ∧ (state81.csrAt 0).opr = true ∧
        state81.dev.ep0state = .idle ∧ 8 ≤ (state81.hwAt 0).cnt ∧ [0x80, 6, 0, 1, 0, 0, 18, (0 : Byte)].length = 8 ∧
        (state81.hwAt 0).fifo = [0x80, 6, 0, 1, 0, 0, 18, 0] ++ [] ∧
        decode .setup [0x80, 6, 0, 1, 0, 0, 18, 0] = .ok (.forward ⟨0x80, 6, 0x100, 0, 18⟩, [])) ∧
    (State.Quiet state82 ∧ State.Shaped state82 ∧ State.QueuesSound state82 ∧ State.NoCallbacks state82 0 ∧
        (state82.csrAt 0).sentStall = false ∧ (state82.csrAt 0).setupEnd = false ∧ (state82.csrAt 0).opr = true ∧
        state82.dev.ep0state = .idle ∧ 8 ≤ (state82.hwAt 0).cnt ∧ [0x80, 6, 0, 1, 0, 0, 18, (0 : Byte)].length = 8 ∧
        (state82.hwAt 0).fifo = [0x80, 6, 0, 1, 0, 0, 18, 0] ++ [9] ∧
        decode .setup [0x80, 6, 0, 1, 0, 0, 18, 0] = .ok (.forward ⟨0x80, 6, 0x100, 0, 18⟩, [])) :=
  ⟨⟨⟨rfl, rfl⟩, shaped_of (by decide), sound_of (by decide), noCallbacks_of (by decide), by decide⟩,
    ⟨⟨rfl, rfl⟩, shaped_of (by decide), sound_of (by decide), noCallbacks_of (by decide), by decide⟩,
    ⟨⟨rfl, rfl⟩, shaped_of (by decide), sound_of (by decide), noCallbacks_of (by decide), by decide⟩⟩

theorem witness_ServiceEpnhEffect :
    (State.Quiet s2 ∧ State.Shaped s2 ∧ (2 : EpNum) ≠ 0 ∧ s2.head 2 = none) ∧
    (State.Quiet state83 ∧ State.Shaped state83 ∧ state83.head 2 = some 3 ∧ (state83.epAt 2).dir = .inward ∧
        (state83.csrAt 2).ipr = true) ∧
    (State.Quiet state53 ∧ State.Shaped state53 ∧ state53.head 2 = some 3 ∧ (state53.epAt 2).dir = .inward ∧
        (state53.csrAt 2).ipr = false ∧ 1 ≤ (state53.epAt 2).maxp.toNat ∧ (state53.hwAt 2).fifo = [] ∧
        (State.nextPacket 2 3 state53).length ≤ state53.params.fifoSize 2) ∧
    (State.Quiet state60 ∧ State.Shaped state60 ∧ state60.head 2 = some 3 ∧ (state60.epAt 2).dir = .inward ∧
        (state60.csrAt 2).ipr = false ∧ (state60.hwAt 2).fifo ≠ []) ∧
    (State.Quiet state59 ∧ State.Shaped state59 ∧ state59.head 1 = some 3 ∧ (state59.epAt 1).dir = .out ∧
        (state59.csrAt 1).opr = false) ∧
    (State.Quiet state84 ∧ State.Shaped state84 ∧ state84.head 1 = some 3 ∧ (state84.epAt 1).dir = .out ∧
        (state84.csrAt 1).opr = true ∧ (state84.hwAt 1).cnt = (state84.hwAt 1).fifo.length) :=
  ⟨⟨⟨rfl, rfl⟩, shaped_of (by decide), by decide⟩,
    ⟨⟨rfl, rfl⟩, shaped_of (by decide), by decide⟩,
    ⟨⟨rfl, rfl⟩, shaped_of (by decide), by decide⟩,
    ⟨⟨rfl, rfl⟩, shaped_of (by decide), by decide⟩,
    ⟨⟨rfl, rfl⟩, shaped_of (by decide), by decide⟩,
    ⟨⟨rfl, rfl⟩, shaped_of (by decide), by decide⟩⟩

theorem witness_ControllerOpsEffect :
    (State.Quiet s1) :=
  ⟨rfl, rfl⟩

theorem witness_ClassifyCases :
    (0 ≤ 65 ∧ 1 ≤ 64 ∧ 64 < 65 - 0) ∧
    (64 ≤ 128 ∧ 128 - 64 = 64) ∧
    (64 ≤ 64 ∧ 64 - 64 < 64) :=
  ⟨by decide,
    by decide,
    by decide⟩

theorem witness_ByteWriteIsFieldWrite :
    (state85.index.toNat < state85.params.numEp ∧
        (state85.turn.turn.csrAt state85.index).sendStall = (state85.turn.csrAt state85.index).sendStall ∧
        state85.race ≠ []) ∧
    (state86.index.toNat < state86.params.numEp ∧
        (state86.turn.turn.csrAt state86.index).sendStall ≠ (state86.turn.csrAt state86.index).sendStall ∧
        (state86.turn.csrAt 0).ipr = true ∧ (state86.turn.turn.csrAt 0).ipr = false ∧
        ({ sendStall := some true } : CsrUpdate).sendStall ≠ none) ∧
    (state87.index.toNat < state87.params.numEp ∧ state87.index ≠ 0 ∧ (1 : EpNum).toNat < state87.params.numEp ∧
        (state87.turn.hwAt 1).fifo = 7 :: []) ∧
    (s2.index = 0 ∧ s2.params.numEp ≠ 0 ∧ (2 : EpNum).toNat < s2.params.numEp ∧ (s2.turn.hwAt 2).fifo = []) ∧
    (state88.params.numEp ≤ state88.index.toNat ∧ 0x13 ∉ [0x00, 0x02, 0x03, 0x04, 0x05, 0x06, 0x08, 0x09, 0x0A] ∧
        0x10 + state88.params.numEp ≤ 0x13 ∧ 0x07 ∉ [0x00, 0x02, 0x03, 0x04, 0x05, 0x06, 0x08, 0x09, 0x0A] ∧
        0x07 < 0x10) :=
  ⟨by decide,
    by decide,
    by decide,
    by decide,
    by decide⟩

theorem witness_PollDispatches :
    (s1.race = [] ∧ s1.busEvt &&& s1.busEvtEn = 0 ∧ s1.epEvt &&& s1.epEvtEn = 0) ∧
    (state89.irqLine = true ∧ (run 3 state89).any answersNext = true) ∧
    (state90.irqLine = true ∧ (run 2 state90).isNone = true ∧ (run 5 state90).isSome = true) :=
  ⟨by decide,
    by decide,
    by decide⟩

theorem witness_SnapshotAndClear :
    (state91.race = [[.reset, .setup [1]]] ∧ state91.busEvt.getLsbD 0 = true ∧ state91.busEvt.getLsbD 2 = false ∧
        state91.epEvt.getLsbD 1 = true ∧ state91.epEvt.getLsbD 0 = false ∧ state91.turn.epEvt.getLsbD 0 = true) :=
  by decide

/-- An IN request in progress behind the head, memory written, work pending: not a state the machine starts in. -/
def busy : State :=
  { queued 1 1 64 3 (queued 2 0 130 64 s2) with
    mem := [(1, 7), (bufAddr 1 0, 9)], epEvt := 6, stack := [.op (.epnh 2), .flushRest [1, 2], .unregEnd] }

theorem busy_inv : busy.Inv where
  shaped := shaped_of (by decide)
  reserved := ⟨by decide, by decide⟩
  memory := by decide
  ep0 := ⟨by decide, by decide, by decide, by decide⟩
  maxp := ⟨by decide, by decide⟩
  queues := sound_of (by decide)
  progress := by
    intro h hs
    obtain ⟨e, -, hm⟩ := (sound_of (s := busy) (by decide)).inProgress h hs
    have all : ∀ e : EpNum, (busy.epAt e).queue.all
        (fun q => decide ((busy.reqAt q).transferred.toNat ≤ (busy.reqAt q).length.toNat)) = true := by decide
    simpa using List.all_eq_true.mp (all e) h hm
  fifos := ⟨by decide, by decide, by decide⟩
  ep0state := .inl (by decide)
  frames := by
    intro f hf
    have : f = .op (.epnh 2) ∨ f = .flushRest [1, 2] ∨ f = .unregEnd := by simpa [busy] using hf
    rcases this with rfl | rfl | rfl
    · trivial
    · intro e he
      have : e = 1 ∨ e = 2 := by simpa using he
      rcases this with rfl | rfl <;> decide
    · trivial

theorem witness_InvariantKept : busy.Inv ∧ answersNext (step busy) = true := ⟨busy_inv, by decide⟩
theorem witness_TracesOnlyGrow : busy.Inv ∧ answersNext (step busy) = true := ⟨busy_inv, by decide⟩
theorem witness_RunsToCompletion : answersNext (step busy) = true := by decide
theorem witness_InvariantAtPowerOn :
    Params.wf ⟨8, [8, 1, 1, 1, 1, 1, 1, 1], 8, 65536, 0, true, false⟩ = true ∧
        Params.wf ⟨2, [8, 1], 8, 1, 0, false, true⟩ = true := by
  decide

end Sys2Proof.Machine
end

section
/-! The event registers: what one write-one-to-clear access leaves of each bit, and the snapshot-and-clear of
20_memory.md R53. -/

namespace Sys2Proof.Machine

/-- A write-one-to-clear register, bit by bit: a written 1 clears, a written 0 leaves the bit (10_state.md R26). -/
@[simp] theorem getLsbD_w1c {n : Nat} (reg v : BitVec n) (j : Nat) :
    (w1c reg v).getLsbD j = (reg.getLsbD j && !v.getLsbD j) := by
  rw [w1c, BitVec.getLsbD_and, BitVec.getLsbD_not]
  by_cases hj : j < n
  · simp [hj]
  · simp [BitVec.getLsbD_of_ge reg j (by omega)]

theorem w1c_clears {n : Nat} {reg v : BitVec n} {j : Nat} (h : v.getLsbD j = true) : (w1c reg v).getLsbD j = false := by
  simp [h]

theorem w1c_keeps {n : Nat} {reg v : BitVec n} {j : Nat} (h : v.getLsbD j = false) :
    (w1c reg v).getLsbD j = reg.getLsbD j := by
  simp [h]

@[simp] theorem busEvtWrite_busEvt (v : BitVec 3) (s : State) : (busEvtWrite v s).busEvt = w1c s.turn.busEvt v := rfl

@[simp] theorem epEvtWrite_epEvt (v : BitVec 8) (s : State) : (epEvtWrite v s).epEvt = w1c s.turn.epEvt v := rfl

/-- Settles O55. The write comes after the bus agent's turn and clears by the value read before it, so a bit that was
not in that value is as the bus agent left it. This needs nothing of what the bus agent does, nor how often it acts. -/
theorem snapshotAndClear : Obligations.SnapshotAndClear := by
  intro s _ j _
  simp only [busEvtWrite_busEvt, epEvtWrite_epEvt]
  exact ⟨w1c_clears, w1c_keeps, w1c_clears, w1c_keeps⟩

end Sys2Proof.Machine
end

section
/-! The outcome of `write_fifo` (40_fifo_engine.md R88): each branch of `classify` by its own condition, and the cases of
what is left of the request. -/

namespace Sys2Proof.Machine

theorem classify_eq_completeShort {n m : Nat} (t l : Nat) (z : Bool) (h : n < m) :
    classify n t l z m = .completeShort :=
  if_pos h

theorem classify_eq_completeFull {n t l m : Nat} {z : Bool} (h : m ≤ n) (ht : t = l) (hz : z = false) :
    classify n t l z m = .completeFull := by
  rw [classify, if_neg (Nat.not_lt.mpr h), if_pos ⟨ht, hz⟩]

theorem classify_eq_continues {n t l m : Nat} {z : Bool} (h : m ≤ n) (hc : t ≠ l ∨ z = true) :
    classify n t l z m = .continues := by
  have hnot : ¬(t = l ∧ z = false) := by
    rintro ⟨ht, hz⟩
    exact hc.elim (· ht) (by simp [hz])
  rw [classify, if_neg (Nat.not_lt.mpr h), if_neg hnot]

/-- Settles O53. The first three parts are the branches of `classify`. The cases of what is left come down to them: more
than a packet left makes the packet full and leaves the length unreached, exactly a packet left makes it full and
reaches the length, and less than a packet left makes it short. -/
theorem classifyCases : Obligations.ClassifyCases := by
  intro start length maxp zlp hle _ n outcome
  have hn : n = min (length - start) maxp := rfl
  have exact_packet (h : length - start = maxp) : maxp ≤ n ∧ start + n = length := by omega
  refine ⟨classify_eq_completeShort _ _ _, classify_eq_completeFull, classify_eq_continues, fun h => ?more,
    fun h hz => ?full, fun h hz => ?zeroLengthPacketDue, fun h => ?less⟩
  case more => exact classify_eq_continues (show maxp ≤ n by omega) (.inl (show start + n ≠ length by omega))
  case full => exact classify_eq_completeFull (exact_packet h).1 (exact_packet h).2 hz
  case zeroLengthPacketDue => exact classify_eq_continues (exact_packet h).1 (.inr hz)
  case less => exact classify_eq_completeShort _ _ _ (show n < maxp by omega)

end Sys2Proof.Machine
end

section
/-! EPHALT of an enabled data endpoint (42_endpoint_ops.md R129): the state it answers, what that state holds of the
endpoint, and that a second EPHALT with the same value changes nothing. -/

namespace Sys2Proof.Machine

/-- EPHALT acts on endpoint e here: it passes every check of R129, and nothing is interleaved. -/
structure State.Haltable (e : EpNum) (s : State) : Prop where
  quiet : s.Quiet
  valid : e.toNat < s.params.numEp
  ep : e.toNat < s.eps.length
  hw : e.toNat < s.hw.length
  data : e ≠ 0
  enabled : (s.epAt e).enabled = true

/-- What EPHALT answers past its checks. -/
def State.afterHalt (e : EpNum) (v : Bool) (s : State) : State := (haltHw e v s).finish 0

variable {s : State} {e : EpNum} (v : Bool)

theorem State.Haltable.exec_ephalt (hs : s.Haltable e) : exec (.ephalt e v) s = .next (s.afterHalt e v) := by
  have body_eq : ephaltBody e v s = .next (s.afterHalt e v) := by
    rw [ephaltBody, if_neg (by simpa [State.validEp] using hs.valid), if_neg (by simpa using hs.data),
      if_neg (by simp [hs.enabled])]
    rfl
  change runToEnd (ephaltBody e v s) = _
  rw [body_eq]
  exact runToEnd_settled hs.quiet.settled (by simp [State.afterHalt])

/-! ## What the state holds of the endpoint -/

theorem State.Haltable.afterHalt_epAt (hs : s.Haltable e) :
    (s.afterHalt e v).epAt e = { s.epAt e with halted := v } := by
  rw [State.afterHalt, haltHw_quiet e v hs.quiet.race]
  exact State.epAt_setEp_self hs.ep

theorem State.Haltable.afterHalt_hwAt (hs : s.Haltable e) :
    (s.afterHalt e v).hwAt e =
      { s.hwAt e with
        csr := { s.csrAt e with sendStall := v }
        toggle := if v then (s.hwAt e).toggle else .data0 } := by
  have not_ep0 : (e == 0) = false := beq_eq_false_iff_ne.mpr hs.data
  rw [State.afterHalt, haltHw_quiet e v hs.quiet.race, not_ep0, Bool.or_false]
  exact State.hwAt_setHw_self hs.hw

/-! ## EPHALT after EPHALT -/

theorem State.Haltable.afterHalt (hs : s.Haltable e) : (s.afterHalt e v).Haltable e := by
  have afterHalt_eq := haltHw_quiet e v hs.quiet.race
  exact {
    quiet := ⟨by simp [State.afterHalt, afterHalt_eq, hs.quiet.race],
      settled_of_stack hs.quiet.settled (by simp [State.afterHalt])⟩
    valid := by simpa [State.afterHalt, afterHalt_eq] using hs.valid
    ep := by simpa [State.afterHalt, afterHalt_eq] using hs.ep
    hw := by simpa [State.afterHalt, afterHalt_eq] using hs.hw
    data := hs.data
    enabled := by simpa [hs.afterHalt_epAt v] using hs.enabled }

/-- A second EPHALT with the same value finds everything written. -/
theorem State.Haltable.afterHalt_afterHalt (hs : s.Haltable e) :
    (s.afterHalt e v).afterHalt e v = s.afterHalt e v := by
  have hr : (s.afterHalt e v).race = [] := (hs.afterHalt v).quiet.race
  rw [State.afterHalt, haltHw_quiet e v hr, State.afterHalt, haltHw_quiet e v hs.quiet.race]
  simp only [State.finish, List.modify_modify_eq]
  congr 2
  funext w
  cases v || e == 0 <;> rfl

/-- Settles O20. EPHALT leaves its endpoint one that EPHALT acts on, so the second set and the clear pass the same checks
as the first set; the second set finds everything written, and of the two values only the clear writes the toggle. -/
theorem haltIsIdempotent : Obligations.HaltIsIdempotent := by
  intro e s hq hsh hv h0 hen
  have hs : s.Haltable e := ⟨hq, hv, hsh.eps ▸ hv, hsh.hw ▸ hv, h0, hen⟩
  have ht : (s.afterHalt e true).Haltable e := hs.afterHalt true
  have set_again : exec (.ephalt e true) (s.afterHalt e true) = .next (s.afterHalt e true) := by
    rw [ht.exec_ephalt, hs.afterHalt_afterHalt]
  refine ⟨⟨_, _, hs.exec_ephalt true, set_again, ht.exec_ephalt false, ?_⟩, _, hs.exec_ephalt false, ?_⟩
  · simp [State.csrAt, hs.afterHalt_epAt, hs.afterHalt_hwAt, ht.afterHalt_epAt, ht.afterHalt_hwAt]
  · simp [hs.afterHalt_epAt, hs.afterHalt_hwAt]

end Sys2Proof.Machine
end

section
/-! Decoding against encoding (30_encoding.md R63 to R76, R80): the decoder of each port on a word laid out as bytes, what the
decoder reads back from an encoded word, and what a word that decodes is made of. -/

namespace Sys2Proof

/-! ## Each port's decoder on the bytes of a word -/

section
variable (w : Word) (tail : List Byte)

@[simp] theorem drop_bytesOfWord_append : (bytesOfWord w ++ tail).drop 8 = tail := rfl

theorem decode_setup_word : decode .setup (bytesOfWord w ++ tail) = .ok (decodeSetup w, tail) := by
  simp [decode, wordOfBytes_bytesOfWord]

theorem decode_client_word : decode .client (bytesOfWord w ++ tail) = noPayload tail (decodeCmd w) := by
  simp [decode, wordOfBytes_bytesOfWord]

theorem decode_bus_word : decode .bus (bytesOfWord w ++ tail) = decodeBus w tail := by
  simp [decode, wordOfBytes_bytesOfWord]

theorem decode_engine_word : decode .engine (bytesOfWord w ++ tail) = noPayload tail (decodeInt w) := by
  simp [decode, wordOfBytes_bytesOfWord]

end

/-- Bytes that decode begin with a word. -/
theorem eq_word_append_of_decode {p : Port} {bytes : List Byte} {x : Instr × List Byte} (h : decode p bytes = .ok x) :
    ∃ w tail, bytes = bytesOfWord w ++ tail := by
  have len : 8 ≤ bytes.length := by
    by_contra short
    simp [decode, Nat.not_le.mp short] at h
  exact ⟨wordOfBytes bytes, bytes.drop 8, by rw [bytesOfWord_wordOfBytes _ len, List.take_append_drop]⟩

/-! ## Setup words -/

/-- Which row takes a packet first, by the type, the recipient and the request code of R65 and R66. -/
theorem setupRowIndex_by_fields (p : SetupPkt) :
    setupRowIndex (setupWord p) =
      let standard := p.bmRequestType.extractLsb' 5 2 == 0
      let recipient := p.bmRequestType.extractLsb' 0 5
      let r := p.bRequest
      if (standard && recipient == 0) && r == 0 then 0 else if (standard && recipient == 2) && r == 0 then 1
      else if (standard && recipient == 2) && r == 1 && p.wValue == 0 then 2
      else if (standard && recipient == 2) && r == 3 && p.wValue == 0 then 3
      else if (standard && recipient == 0) && r == 1 && p.wValue == 1 then 4
      else if (standard && recipient == 0) && r == 3 && p.wValue == 1 then 5
      else if standard && r == 1 then 6 else if standard && r == 3 then 7
      else if (standard && recipient == 0) && r == 5 then 8 else if (standard && recipient == 0) && r == 8 then 9
      else if (standard && recipient == 0) && r == 9 then 10
      else if (standard && recipient == 1) && r == 11 then 11 else 12 := by
  have mask : ∀ t : BitVec 8, (t &&& 0x60 == 0) = (t.extractLsb' 5 2 == 0) ∧
      (t &&& 0x7F == 0) = (t.extractLsb' 5 2 == 0 && t.extractLsb' 0 5 == 0) ∧
      (t &&& 0x7F == 1) = (t.extractLsb' 5 2 == 0 && t.extractLsb' 0 5 == 1) ∧
      (t &&& 0x7F == 2) = (t.extractLsb' 5 2 == 0 && t.extractLsb' 0 5 == 2) := by decide
  obtain ⟨m, m0, m1, m2⟩ := mask p.bmRequestType
  rw [setupRowIndex_setupWord]
  simp only [m, m0, m1, m2]

@[simp] theorem standardType_type : ∀ (d : Bool) (r : BitVec 5), (standardType d r).extractLsb' 5 2 = 0 := by decide

@[simp] theorem standardType_recipient : ∀ (d : Bool) (r : BitVec 5), (standardType d r).extractLsb' 0 5 = r := by decide

@[simp] theorem standardType_dir : ∀ (d : Bool) (r : BitVec 5), (standardType d r)[7] = d := by decide

/-- A `bmRequestType` of type standard is its direction bit and its recipient. -/
theorem standardType_fields : ∀ t : BitVec 8, t.extractLsb' 5 2 = 0 →
    standardType (t.getLsbD 7) (t.extractLsb' 0 5) = t := by decide

/-- A packet that rows 1 to 12 leave is forwarded. -/
theorem setupRowIndex_of_not_internal {p : SetupPkt} (h : p.internal = false) : setupRowIndex (setupWord p) = 12 := by
  rw [setupRowIndex_by_fields]
  simp only [SetupPkt.internal, Bool.and_eq_false_iff, Bool.or_eq_false_iff] at h
  rcases h with h | h
  · simp only [h, Bool.false_and, Bool.false_eq_true, if_false]
  · obtain ⟨⟨⟨⟨⟨⟨status, clear⟩, set⟩, address⟩, getConf⟩, setConf⟩, intf⟩ := h
    grind

/-- A setup request is decoded from the packet it stands for, if no row before its own takes that packet. -/
theorem decodeSetup_setupPkt {i : Instr} (hp : i.port = .setup) (hw : i.wf = true) :
    decodeSetup (setupWord i.setupPkt) = i := by
  unfold decodeSetup
  cases i
  case clearFeatureOther d r v x l =>
    have named : namedFeature r v = false := by simpa [Instr.wf] using hw
    rw [setupRowIndex_by_fields]
    simp only [namedFeature] at named
    simp [Instr.setupPkt]
    grind
  case setFeatureOther d r v x l =>
    have named : namedFeature r v = false := by simpa [Instr.wf] using hw
    rw [setupRowIndex_by_fields]
    simp only [namedFeature] at named
    simp [Instr.setupPkt]
    grind
  case forward p =>
    have other : setupRowIndex (setupWord p) = 12 := setupRowIndex_of_not_internal (by simpa [Instr.wf] using hw)
    simp [Instr.setupPkt, other]
  case getStatusDev | getStatusEp | clearFeatureHalt | setFeatureHalt | clearFeatureRwk | setFeatureRwk | setAddress |
      getConfiguration | setConfiguration | setInterface =>
    rw [setupRowIndex_by_fields]
    simp [Instr.setupPkt]
  all_goals cases hp

theorem namedFeature_iff {recipient : BitVec 5} {v : BitVec 16} :
    namedFeature recipient v = true ↔ recipient = 2 ∧ v = 0 ∨ recipient = 0 ∧ v = 1 := by
  simp [namedFeature]

/-- Every packet is the packet of some well-formed setup request. -/
theorem exists_request (p : SetupPkt) : ∃ i : Instr, i.port = .setup ∧ i.wf = true ∧ i.setupPkt = p := by
  cases internal : p.internal
  case false => exact ⟨.forward p, rfl, by simpa [Instr.wf] using internal, rfl⟩
  case true =>
    obtain ⟨t, r, v, x, l⟩ := p
    simp only [SetupPkt.internal, Bool.and_eq_true, Bool.or_eq_true, beq_iff_eq, or_assoc] at internal
    obtain ⟨standard, row⟩ := internal
    obtain ⟨d, recipient, rfl⟩ : ∃ d recipient, t = standardType d recipient :=
      ⟨_, _, (standardType_fields t standard).symm⟩
    rw [standardType_recipient] at row
    rcases row with ⟨rfl, rfl | rfl⟩ | rfl | rfl | ⟨rfl, rfl⟩ | ⟨rfl, rfl⟩ | ⟨rfl, rfl⟩ | ⟨rfl, rfl⟩
    · exact ⟨.getStatusDev d v x l, rfl, rfl, rfl⟩
    · exact ⟨.getStatusEp d v x l, rfl, rfl, rfl⟩
    · cases named : namedFeature recipient v
      case false => exact ⟨.clearFeatureOther d recipient v x l, rfl, by simpa [Instr.wf] using named, rfl⟩
      case true =>
        obtain ⟨rfl, rfl⟩ | ⟨rfl, rfl⟩ := namedFeature_iff.mp named
        · exact ⟨.clearFeatureHalt d x l, rfl, rfl, rfl⟩
        · exact ⟨.clearFeatureRwk d x l, rfl, rfl, rfl⟩
    · cases named : namedFeature recipient v
      case false => exact ⟨.setFeatureOther d recipient v x l, rfl, by simpa [Instr.wf] using named, rfl⟩
      case true =>
        obtain ⟨rfl, rfl⟩ | ⟨rfl, rfl⟩ := namedFeature_iff.mp named
        · exact ⟨.setFeatureHalt d x l, rfl, rfl, rfl⟩
        · exact ⟨.setFeatureRwk d x l, rfl, rfl, rfl⟩
    · exact ⟨.setAddress d v x l, rfl, rfl, rfl⟩
    · exact ⟨.getConfiguration d v x l, rfl, rfl, rfl⟩
    · exact ⟨.setConfiguration d v x l, rfl, rfl, rfl⟩
    · exact ⟨.setInterface d v x l, rfl, rfl, rfl⟩

/-- What a setup word decodes to is well-formed and stands for the word's packet: no bit is lost. -/
theorem decodeSetup_sound (w : Word) : (decodeSetup w).wf = true ∧ setupWord (decodeSetup w).setupPkt = w := by
  obtain ⟨i, port, wf, pkt⟩ := exists_request (setupPktOf w)
  have word : setupWord i.setupPkt = w := by rw [pkt, setupWord_setupPktOf]
  rw [← word, decodeSetup_setupPkt port wf]
  exact ⟨wf, rfl⟩

/-! ## What the decoder reads back -/

/-- A setup request's word is that of its packet. -/
theorem encodeWord_setup {i : Instr} (hp : i.port = .setup) : encodeWord i = setupWord i.setupPkt := by
  cases i
  case getStatusDev | getStatusEp | clearFeatureHalt | setFeatureHalt | clearFeatureRwk | setFeatureRwk |
      clearFeatureOther | setFeatureOther | setAddress | getConfiguration | setConfiguration | setInterface | forward => rfl
  all_goals cases hp

/-- A client operation is decoded from its word. -/
theorem decodeCmd_encodeWord {i : Instr} (hp : i.port = .client) : decodeCmd (encodeWord i) = .ok i := by
  have low : ∀ b : Bool, (flag0 b)[0] = b ∧ (flag0 b).extractLsb' 1 3 = 0 := by decide
  have nibble : ∀ (t : BitVec 2) (d : Bool), (0#1 ++ t ++ BitVec.ofBool d)[3] = false ∧
      (0#1 ++ t ++ BitVec.ofBool d)[0] = d ∧ (0#1 ++ t ++ BitVec.ofBool d).extractLsb' 1 2 = t := by decide
  have value : ∀ {m n : Nat} (v : BitVec n), (0#m ++ v).extractLsb' 0 n = v := fun v => by
    rw [extract_append_low _ _ _ _ (by omega)]; simp
  have upper : ∀ {m n : Nat} (v : BitVec n), (0#m ++ v).extractLsb' n m = 0#m := fun v => extract_append_high _ v
  cases i
  case pullup | selfpwr | ephalt | rqset => simp [encodeWord, decodeCmd, strict, low]
  case regdrv | epen => simp [encodeWord, decodeCmd, strict, upper, value, nibble]
  case dispatch | unregdrv | epdis | epfstat | rqalloc | rqfree | epqueue | epdeq => simp [encodeWord, decodeCmd, strict]
  all_goals cases hp

/-- A bus event is decoded from its word and the payload behind it. -/
theorem decodeBus_encodeWord {i : Instr} (hp : i.port = .bus) (hw : i.wf = true) (rest : List Byte) :
    decodeBus (encodeWord i) (i.payload ++ rest) = .ok (i, rest) := by
  cases i
  case bsetup p | bout e p =>
    have len : p.length < 4294967296 := by simpa [Instr.wf] using hw
    simp [encodeWord, decodeBus, withPayload, Instr.payload, Nat.mod_eq_of_lt len]
  case breset | bsusp | bresume | bin | bstall | bstatus =>
    simp [encodeWord, decodeBus, strict, noPayload, Instr.payload]
  all_goals cases hp

/-- An internal operation is decoded from its word. -/
theorem decodeInt_encodeWord {i : Instr} (hp : i.port = .engine) : decodeInt (encodeWord i) = .ok i := by
  have status : ∀ k : Kind, kindOfBits (bitsOfKind k) = k := by intro k; cases k <;> rfl
  have value : ∀ v : BitVec 3, (0#1 ++ v).extractLsb' 0 3 = v := by decide
  cases i
  case done | nuke => simp [encodeWord, decodeInt, status, value]
  case wrfifo | rdfifo | ep0h | epnh | ctlen | ctldis | ep0stall | service => simp [encodeWord, decodeInt]
  all_goals cases hp

/-- Only bus events have a payload. -/
theorem payload_eq_nil {i : Instr} (hp : i.port ≠ .bus) : i.payload = [] := by
  cases i
  case bsetup | bout => exact absurd rfl hp
  all_goals rfl

/-- Settles O2, port by port: the word of an operation is read back by the port's decoder, and the payload by its length. -/
theorem decodeOfEncode : Obligations.DecodeOfEncode := by
  intro i rest hw
  rw [encode, List.append_assoc]
  cases hp : i.port
  case setup => rw [decode_setup_word, encodeWord_setup hp, decodeSetup_setupPkt hp hw, payload_eq_nil (by simp [hp])]; rfl
  case client => rw [decode_client_word, decodeCmd_encodeWord hp, payload_eq_nil (by simp [hp])]; rfl
  case bus => rw [decode_bus_word, decodeBus_encodeWord hp hw]
  case engine => rw [decode_engine_word, decodeInt_encodeWord hp, payload_eq_nil (by simp [hp])]; rfl

/-! ## What a word that decodes is made of -/

theorem strict_eq_ok {w : Word} {unused : Bool} {i j : Instr} : strict w unused i = .ok j ↔ unused = true ∧ i = j := by
  cases unused <;> simp [strict]

theorem illegalOp_ne_ok {w : Word} {i : Instr} : illegalOp w ≠ .ok i := by
  unfold illegalOp; split <;> simp

theorem noPayload_eq_ok {r : Except Reject Instr} {i : Instr} {tail rest : List Byte} :
    noPayload tail r = .ok (i, rest) ↔ r = .ok i ∧ tail = rest := by
  cases r <;> simp [noPayload]

theorem withPayload_eq_ok {v : BitVec 32} {tail rest : List Byte} {f : List Byte → Instr} {i : Instr}
    (h : withPayload v tail f = .ok (i, rest)) :
    ∃ p, f p = i ∧ p.length = v.toNat ∧ p ++ rest = tail := by
  unfold withPayload at h
  split at h
  · cases h; exact ⟨_, rfl, by simpa, List.take_append_drop ..⟩
  · cases h

/-- A word is known from its opcode and its other fields. -/
theorem portWord_eq {w : Word} {n : Nat} {ep : EpNum} {f : BitVec 4} {h : Handle} {v : BitVec 32}
    (hop : (opField w).toNat = n)
    (hep : epField w = ep) (hf : flagField w = f) (hh : handleField w = h) (hv : valueField w = v) :
    portWord (BitVec.ofNat 8 n) ep f h v = w := by
  subst hop hep hf hh hv
  simpa using portWord_fields w

/-- A value whose upper part is 0 is its lower part. -/
theorem zero_append_extract {m n : Nat} {v : BitVec (m + n)} (h : v.extractLsb' n m = 0) :
    0#m ++ v.extractLsb' 0 n = v := by
  rw [show (0#m) = v.extractLsb' n m from h.symm]
  refine BitVec.eq_of_getLsbD_eq fun i hi => ?_
  simp only [BitVec.getLsbD_append, BitVec.getLsbD_extractLsb']
  split_ifs <;> (rw [decide_eq_true (by omega), Bool.true_and]; congr 1; omega)

theorem flag0_of_upper_zero : ∀ {f : BitVec 4}, f.extractLsb' 1 3 = 0 → flag0 (f.getLsbD 0) = f := by decide

theorem epenFlag_of_upper_zero : ∀ {f : BitVec 4}, f.getLsbD 3 = false →
    0#1 ++ f.extractLsb' 1 2 ++ BitVec.ofBool (f.getLsbD 0) = f := by decide

/-- A client word that decodes is the word of the operation. -/
theorem encodeWord_of_decodeCmd {w : Word} {i : Instr} (h : decodeCmd w = .ok i) : i.port = .client ∧ encodeWord i = w := by
  have value := zero_append_extract (m := 25) (n := 7) (v := valueField w)
  have maxp := zero_append_extract (m := 21) (n := 11) (v := valueField w)
  have flag := flag0_of_upper_zero (f := flagField w)
  have epenFlag := epenFlag_of_upper_zero (f := flagField w)
  unfold decodeCmd at h
  simp only at h
  split at h
  case h_15 => exact absurd h illegalOp_ne_ok
  all_goals
    obtain ⟨zeros, rfl⟩ := strict_eq_ok.mp h
    simp only [Bool.and_eq_true, beq_iff_eq] at zeros
    refine ⟨rfl, portWord_eq ‹_› ?_ ?_ ?_ ?_⟩ <;> simp_all

/-- A bus word that decodes is the word of the event, with the payload it announces. -/
theorem encode_of_decodeBus {w : Word} {tail rest : List Byte} {i : Instr} (h : decodeBus w tail = .ok (i, rest)) :
    i.wf = true ∧ i.port = .bus ∧ encodeWord i = w ∧ i.payload ++ rest = tail := by
  unfold decodeBus at h
  simp only at h
  split at h
  case h_9 => exact absurd (noPayload_eq_ok.mp h).1 illegalOp_ne_ok
  case h_4 | h_5 =>
    split at h
    case isFalse => cases h
    case isTrue zeros =>
      obtain ⟨p, rfl, len, tail⟩ := withPayload_eq_ok h
      have fits := (valueField w).isLt
      simp only [Bool.and_eq_true, beq_iff_eq] at zeros
      refine ⟨by simp [Instr.wf]; omega, rfl, portWord_eq ‹_› ?_ ?_ ?_ ?_, tail⟩ <;> simp_all
  all_goals
    obtain ⟨word, rfl⟩ := noPayload_eq_ok.mp h
    obtain ⟨zeros, rfl⟩ := strict_eq_ok.mp word
    simp only [Bool.and_eq_true, beq_iff_eq] at zeros
    refine ⟨rfl, rfl, portWord_eq ‹_› ?_ ?_ ?_ ?_, rfl⟩ <;> simp_all

/-- Every client operation is well-formed. -/
theorem wf_of_client {i : Instr} (hp : i.port = .client) : i.wf = true := by
  cases i
  case clearFeatureOther | setFeatureOther | forward | bsetup | bout => cases hp
  all_goals rfl

/-- Settles O3: on either port the fields of a word that decodes are those of the operation's word, and on the bus port the
payload is what the value field announces. -/
theorem encodeOfDecode : Obligations.EncodeOfDecode := by
  intro p bytes rest i hp h
  obtain ⟨w, tail, rfl⟩ := eq_word_append_of_decode h
  rcases hp with rfl | rfl
  · rw [decode_client_word] at h
    obtain ⟨decoded, rfl⟩ := noPayload_eq_ok.mp h
    obtain ⟨port, word⟩ := encodeWord_of_decodeCmd decoded
    exact ⟨wf_of_client port, port, by rw [encode, word, payload_eq_nil (by simp [port]), List.append_nil]⟩
  · rw [decode_bus_word] at h
    obtain ⟨wf, port, word, payload⟩ := encode_of_decodeBus h
    exact ⟨wf, port, by rw [encode, word, List.append_assoc, payload]⟩

/-! ## The first row -/

/-- Row 13 takes every word. -/
theorem setupRowIndex_lt (w : Word) : setupRowIndex w < setupRows.length :=
  List.findIdx_lt_length_of_exists ⟨⟨"FORWARD", 0, 0⟩, by decide, by simp [SetupRow.takes]⟩

/-- The request has the mnemonic of the row that selects it. -/
theorem decodeSetup_mnemonic (w : Word) {r : SetupRow} (h : setupRows[setupRowIndex w]? = some r) :
    (decodeSetup w).mnemonic = r.mnemonic := by
  have lt : setupRowIndex w < 13 := setupRowIndex_lt w
  unfold decodeSetup
  generalize setupRowIndex w = n at h lt
  interval_cases n <;> cases h <;> rfl

/-- Settles O4: the row is the first by the search that finds it, and every word is that of a well-formed request. -/
theorem setupDecodeIsFirstRow : Obligations.SetupDecodeIsFirstRow := by
  intro w
  obtain ⟨wf, word⟩ := decodeSetup_sound w
  have row := List.getElem?_eq_getElem (setupRowIndex_lt w)
  have takes : (setupRows[setupRowIndex w]'(setupRowIndex_lt w)).takes w = true :=
    List.findIdx_getElem (p := fun r : SetupRow => r.takes w) (w := setupRowIndex_lt w)
  refine ⟨⟨_, row, by simpa [SetupRow.takes] using takes, decodeSetup_mnemonic w row⟩, fun j r before hr => ?_, wf, word⟩
  have skipped := List.not_of_lt_findIdx (p := fun r : SetupRow => r.takes w) before
  obtain ⟨_, rfl⟩ := List.getElem?_eq_some_iff.mp hr
  simpa [SetupRow.takes] using skipped

/-- Settles O1: each word is the encoding of its operation. -/
theorem decodeOfWrittenWords : Obligations.DecodeOfWrittenWords := by
  unfold Obligations.DecodeOfWrittenWords
  decide

end Sys2Proof
end

section
/-! What every step keeps, move by move: the invariants of Safety.lean, the constants and the growth of the traces; and that a
step ends with nothing due. -/

namespace Sys2Proof.Machine

variable {s t : State}

/-! ## The invariants -/

/-- The bounds of the FIFOs and of the max-packet registers, endpoint by endpoint. -/
theorem State.Inv.hwOk (h : s.Inv) (e : EpNum) : HwOk (s.params.fifoSize e) (s.hwAt e) :=
  ⟨h.maxp.register e, h.fifos.fifo e, h.fifos.cnt e, h.fifos.empty e⟩

/-- Every move keeps the invariants. -/
theorem Move.inv (h : Move s t) (hi : s.Inv) : t.Inv := by
  have hw := h.hwOk hi.shaped hi.hwOk
  exact {
    shaped := h.shaped hi.shaped
    reserved := h.reserved hi.shaped hi.reserved
    memory := h.memory hi.memory
    ep0 := h.ep0Fixed hi.shaped hi.ep0
    maxp := ⟨h.maxpRecord hi.shaped hi.maxp.record, fun e => (hw e).1⟩
    queues := h.queues hi.shaped hi.queues
    progress := h.progress hi.progress
    fifos := ⟨fun e => (hw e).2.1, fun e => (hw e).2.2.1, fun e => (hw e).2.2.2⟩
    ep0state := h.ep0State hi.ep0state
    frames := h.framesSound hi.shaped.params hi.frames }

theorem State.Inv.runnable (h : s.Inv) : s.Runnable := ⟨h.shaped, h.frames⟩

/-- Settles O57: a step is a sequence of moves, and every move keeps the invariants. -/
theorem invariantKept : Obligations.InvariantKept := fun s t hi h =>
  Moves.keeps (P := State.Inv) (fun _ _ => Move.inv) (reaches_step s hi.runnable t h) hi

/-! ## Constants and traces -/

/-- The parameters and the hooks stay, the traces grow. -/
structure State.Grows (s t : State) : Prop where
  params : t.params = s.params
  udcCommand : t.plat.udcCommand = s.plat.udcCommand
  vbusDraw : t.plat.vbusDraw = s.plat.vbusDraw
  tx : s.tx <+: t.tx
  doneLog : s.doneLog <+: t.doneLog
  cbLog : s.cbLog <+: t.cbLog

theorem State.Grows.refl (s : State) : s.Grows s :=
  ⟨rfl, rfl, rfl, List.prefix_rfl, List.prefix_rfl, List.prefix_rfl⟩

theorem State.Grows.trans {u : State} (h : s.Grows t) (k : t.Grows u) : s.Grows u :=
  ⟨k.params.trans h.params, k.udcCommand.trans h.udcCommand, k.vbusDraw.trans h.vbusDraw, h.tx.trans k.tx,
    h.doneLog.trans k.doneLog, h.cbLog.trans k.cbLog⟩

/-- A bus step appends to TX or leaves it. -/
theorem act_tx_prefix (ev : BusEvent) (s : State) : s.tx <+: (ev.act s).tx := by
  unfold BusEvent.act
  split
  case isTrue => exact List.prefix_rfl
  case isFalse =>
    split
    case isFalse => exact List.prefix_rfl
    case isTrue =>
      cases ev
      case take e => exact List.prefix_append ..
      case stall e => simp only [BusEvent.effect, busStall]; split <;> exact List.prefix_rfl
      all_goals exact List.prefix_rfl

theorem Move.grows (h : Move s t) : s.Grows t := by
  cases h
  case bus ev =>
    have htx := act_tx_prefix ev s
    obtain ⟨_, _, _, _, _, _, e⟩ := act_frame ev s
    rw [e] at htx ⊢
    exact ⟨rfl, rfl, rfl, htx, List.prefix_rfl, List.prefix_rfl⟩
  case csr e u => rw [State.applyCsr_eq]; exact ⟨rfl, rfl, rfl, List.prefix_rfl, List.prefix_rfl, List.prefix_rfl⟩
  case plat f hu hv => exact ⟨rfl, hu, hv, List.prefix_rfl, List.prefix_rfl, List.prefix_rfl⟩
  case retire e h k _ =>
    constructor <;> simp [State.retire]
  case logCb c => exact ⟨rfl, rfl, rfl, List.prefix_rfl, List.prefix_rfl, List.prefix_append ..⟩
  all_goals exact ⟨rfl, rfl, rfl, List.prefix_rfl, List.prefix_rfl, List.prefix_rfl⟩

theorem Moves.grows (h : Moves s t) : s.Grows t :=
  Moves.keeps (P := s.Grows) (fun _ _ hm hs => hs.trans hm.grows) h (.refl s)

/-- Settles O59: every move of a step keeps the constants and lets the traces grow. -/
theorem tracesOnlyGrow : Obligations.TracesOnlyGrow := by
  intro s t hi h
  obtain ⟨params, udcCommand, vbusDraw, tx, doneLog, cbLog⟩ := (reaches_step s hi.runnable t h).grows
  exact ⟨params, udcCommand, vbusDraw, tx, doneLog, cbLog⟩

/-! ## Running to completion -/

/-- A bus step leaves the pending work alone. -/
@[simp] theorem act_stack (ev : BusEvent) (s : State) : (ev.act s).stack = s.stack := by
  obtain ⟨_, _, _, _, _, _, e⟩ := act_frame ev s; rw [e]

/-- An instruction ends with nothing due; a bus event, which runs nothing, where nothing was due before it. -/
theorem exec_settles {i : Instr} (h : exec i s = .next t) (hb : i.port = .bus → s.settled = true) : t.settled = true := by
  cases i
  case breset | bsusp | bresume | bsetup | bout | bin | bstall | bstatus =>
    cases h
    exact settled_of_stack (hb rfl) (act_stack ..)
  case clearFeatureRwk => exact runToEnd_settles (r := reqRemoteWakeup false s) h
  case setFeatureRwk => exact runToEnd_settles (r := reqRemoteWakeup true s) h
  case clearFeatureOther | setFeatureOther => exact runToEnd_settles (r := reqOtherFeature s) h
  case setAddress v _ _ => exact runToEnd_settles (r := reqSetAddress v s) h
  case pullup v => exact runToEnd_settles (r := pullupBody v s) h
  case selfpwr v => exact runToEnd_settles (r := selfpwrBody v s) h
  case nuke e k => exact runToEnd_settles (r := .next (nuke e k s)) h
  case ctlen => exact runToEnd_settles (r := .next (enableController s)) h
  case ctldis => exact runToEnd_settles (r := .next (disableController s)) h
  case ep0stall => exact runToEnd_settles (r := .next (ep0Stall s)) h
  all_goals exact runToEnd_settles h

@[simp] theorem IntOp.instr_port (o : IntOp) : o.instr.port = .engine := by cases o <;> rfl

theorem decodeSetup_port (w : Word) : (decodeSetup w).port = .setup := by
  obtain ⟨i, port, wf, pkt⟩ := exists_request (setupPktOf w)
  rw [← setupWord_setupPktOf w, ← pkt, decodeSetup_setupPkt port wf, port]

/-- What a step answers on what it fetched. -/
def Fetched.result : Fetched → Res
  | .run i s => exec i s
  | .answer r => r

theorem step_eq_result (s : State) : step s = (fetch s).result := by
  unfold step
  cases fetch s <;> rfl

theorem callbackReturn_settles {r : Int} (h : callbackReturn r s = .next t) : t.settled = true := by
  unfold callbackReturn at h
  split at h
  case h_1 => cases h
  case h_2 =>
    split at h
    case isTrue => exact settle_settles h
    case isFalse => cases h

theorem clientWriteBuf_stack {h : Handle} {i : BitVec 32} {b : Byte} (hn : clientWriteBuf h i b s = .next t) :
    t.stack = s.stack := by
  unfold clientWriteBuf at hn
  split at hn <;> cases hn
  rfl

theorem clientSetComplete_stack {h : Handle} {b : Bool} (hn : clientSetComplete h b s = .next t) : t.stack = s.stack := by
  unfold clientSetComplete at hn
  split at hn
  case isTrue => split at hn <;> cases hn; rfl
  case isFalse => cases hn

theorem fetchInput_settles (hs : s.settled = true) (h : (fetchInput s).result = .next t) : t.settled = true := by
  unfold fetchInput at h
  split at h
  case h_1 => cases h; exact hs
  case h_2 =>
    unfold fetchClient at h
    split at h
    case h_1 => exact exec_settles h fun _ => settled_of_stack hs rfl
    case h_2 => cases h; exact hs
  case h_3 =>
    unfold fetchBus at h
    split at h
    case h_1 => exact exec_settles h fun _ => settled_of_stack hs rfl
    case h_2 => cases h; exact hs
  case h_4 => exact callbackReturn_settles h
  case h_5 => exact settled_of_stack hs (clientWriteBuf_stack h :)
  case h_6 => exact settled_of_stack hs (clientSetComplete_stack h :)

/-- Settles O60: due work is run until none is left, and what the outside gives is taken only where none is due. -/
theorem runsToCompletion : Obligations.RunsToCompletion := by
  intro s t h
  rw [step_eq_result] at h
  unfold fetch at h
  split at h
  case h_1 hs => exact fetchInput_settles (by simp [State.settled, hs]) h
  case h_2 => exact exec_settles h fun hb => by simp at hb
  case h_3 => exact exec_settles h fun hb => by simp [decodeSetup_port] at hb
  case h_4 hs =>
    split at h
    case isTrue waits => exact fetchInput_settles (by simpa [State.settled, hs] using waits) h
    case isFalse => exact settle_settles h

/-! ## Power-on -/

section
variable (p : Params) (u v : Bool) (b : BitVec 3) (ev : BitVec 8) (g : Bool)

/-- A record of the list that power-on makes, for a number that is not 0: there is one below NUM_EP. -/
theorem getElem?_dataEndpoints {α : Type} (x : α) (f : EpNum → α) {e : EpNum} (h0 : e ≠ 0) :
    (x :: p.dataEndpoints.map f)[e.toNat]? = if e.toNat < p.numEp then some (f e) else none := by
  obtain ⟨n, hn⟩ : ∃ n, e.toNat = n + 1 := Nat.exists_eq_succ_of_ne_zero fun h => h0 (BitVec.eq_of_toNat_eq h)
  have he : BitVec.ofNat 4 (n + 1) = e := by rw [← hn, BitVec.ofNat_toNat, BitVec.setWidth_eq]
  rw [hn, List.getElem?_cons_succ, Params.dataEndpoints, List.map_map, List.getElem?_map]
  by_cases lt : n < p.numEp - 1
  · rw [List.getElem?_range lt, if_pos (by omega)]; simp [he]
  · rw [List.getElem?_eq_none (by simpa using lt), if_neg (by omega)]; rfl

theorem powerOn_epAt {e : EpNum} (h0 : e ≠ 0) : (State.powerOn p u v b ev g).epAt e = Ep.disabled e := by
  simp only [State.epAt, State.powerOn, getElem?_dataEndpoints _ _ _ h0]
  split <;> rfl

theorem powerOn_hwAt {e : EpNum} (h0 : e ≠ 0) : (State.powerOn p u v b ev g).hwAt e = Hw.reset 0 := by
  simp only [State.hwAt, State.powerOn, getElem?_dataEndpoints _ _ _ h0]
  split <;> rfl

@[simp] theorem powerOn_reqAt (h : Handle) : (State.powerOn p u v b ev g).reqAt h = Req.free := by
  simp only [State.reqAt, State.powerOn, List.getElem?_replicate]
  split <;> rfl

@[simp] theorem powerOn_queue (e : EpNum) : ((State.powerOn p u v b ev g).epAt e).queue = [] := by
  by_cases h0 : e = 0
  · subst h0; rfl
  · rw [powerOn_epAt _ _ _ _ _ _ h0]; rfl

end

/-- Settles O56: the records by number are those `powerOn` lists, and the other fields are its own. -/
theorem powerOnValues : Obligations.PowerOnValues := by
  intro p u v b ev g s
  exact ⟨rfl, rfl, fun e h0 => powerOn_epAt _ _ _ _ _ _ h0, fun h => by simp [s, Req.free], rfl,
    fun e h0 => powerOn_hwAt _ _ _ _ _ _ h0, rfl, rfl, rfl, rfl, rfl, rfl, rfl, rfl, rfl, rfl, rfl, rfl⟩

theorem Params.wf_iff {p : Params} : p.wf = true ↔ 2 ≤ p.numEp ∧ p.numEp ≤ 8 ∧ p.fifoSizes.length = p.numEp ∧
    (∀ n ∈ p.fifoSizes, 1 ≤ n) ∧ 8 ≤ p.ep0Maxp.toNat ∧ p.ep0Maxp.toNat ≤ p.fifoSize 0 ∧ 1 ≤ p.numReq ∧
    p.numReq ≤ 65536 := by
  simp [Params.wf, and_assoc]

/-- Settles O58: no request is queued, no FIFO holds a byte, and only EP0 has a max-packet, EP0_MAXP. -/
theorem invariantAtPowerOn : Obligations.InvariantAtPowerOn := by
  intro p u v b ev g hp
  obtain ⟨two, _, _, _, _, fits, _, _⟩ := Params.wf_iff.mp hp
  have hw : ∀ e, HwOk (p.fifoSize e) ((State.powerOn p u v b ev g).hwAt e) := by
    intro e
    by_cases h0 : e = 0
    · subst h0; exact ⟨fits, Nat.zero_le _, Nat.zero_le _, fun _ => rfl⟩
    · rw [powerOn_hwAt _ _ _ _ _ _ h0]; exact ⟨Nat.zero_le _, Nat.zero_le _, Nat.zero_le _, fun _ => rfl⟩
  have lengths : (p.dataEndpoints.length + 1) = p.numEp := by simp [Params.dataEndpoints]; omega
  exact {
    shaped := ⟨hp, by simpa [State.powerOn] using lengths, by simpa [State.powerOn] using lengths,
      by simp [State.powerOn], fun e => by
      by_cases h0 : e = 0
      · subst h0; rfl
      · rw [powerOn_epAt _ _ _ _ _ _ h0]; rfl⟩
    reserved := ⟨by simp [State.powerOn, BitVec.and_assoc], by simp [State.powerOn]⟩
    memory := rfl
    ep0 := ⟨rfl, rfl, rfl, rfl⟩
    maxp := ⟨fun e => by
      by_cases h0 : e = 0
      · subst h0; exact fits
      · rw [powerOn_epAt _ _ _ _ _ _ h0]; simp [Ep.disabled], fun e => (hw e).1⟩
    queues := ⟨by simp, by simp, by simp [Req.free], by simp [Req.free]⟩
    progress := by simp [State.ProgressBounded, Req.free]
    fifos := ⟨fun e => (hw e).2.1, fun e => (hw e).2.2.1, fun e => (hw e).2.2.2⟩
    ep0state := .inl rfl
    frames := fun f hf => by cases hf }

end Sys2Proof.Machine
end

section
/-! What a step does on each thing that can be next: a word of a port, due work, the client's own accesses, its return from a
callback. POLL and RUN (30_encoding.md R83) at the end. -/

namespace Sys2Proof.Machine

variable {s : State}

/-! ## What is next -/

/-- With no work due the outside moves. -/
theorem step_settled (h : s.settled = true) : step s = (fetchInput s).result := by
  rw [step_eq_result]
  unfold State.settled at h
  unfold fetch
  split
  case h_1 => rfl
  case h_2 hs | h_3 hs => simp [hs, Frame.isCallback] at h
  case h_4 hs =>
    rw [hs] at h
    rw [if_pos h]

theorem step_op {o : IntOp} {fs : List Frame} (h : s.stack = .op o :: fs) : step s = exec o.instr { s with stack := fs } := by
  rw [step_eq_result, fetch, h]
  rfl

theorem step_setup {bytes : List Byte} {fs : List Frame} (h : s.stack = .setup bytes :: fs) :
    step s = exec (decodeSetup (wordOfBytes bytes)) { s with stack := fs } := by
  rw [step_eq_result, fetch, h]
  rfl

theorem step_client {bytes : List Byte} {more : List Input} (hs : s.settled = true) (hi : s.input = .client bytes :: more) :
    step s = (fetchClient bytes more s).result := by
  rw [step_settled hs, fetchInput, hi]

theorem step_bus {bytes : List Byte} {more : List Input} (hs : s.settled = true) (hi : s.input = .bus bytes :: more) :
    step s = (fetchBus bytes more s).result := by
  rw [step_settled hs, fetchInput, hi]

/-- Bytes that decode on the setup port are read as the word they begin with. -/
theorem decode_setup_eq {bytes rest : List Byte} {i : Instr} (h : decode .setup bytes = .ok (i, rest)) :
    decodeSetup (wordOfBytes bytes) = i := by
  obtain ⟨w, tail, rfl⟩ := eq_word_append_of_decode h
  rw [decode_setup_word] at h
  rw [wordOfBytes_bytesOfWord]
  cases h
  rfl

/-- Settles O5: each of the four kinds of thing that can be next, by its step law. -/
theorem stepRunsTheDecoded : Obligations.StepRunsTheDecoded := by
  refine ⟨fun s bytes rest more i hs hi hd => ?_, fun s bytes rest more i hs hi hd => ?_, fun s o fs h => step_op h,
    fun s bytes fs i h hd => ?_⟩
  · rw [step_client hs hi, fetchClient, hd]; rfl
  · rw [step_bus hs hi, fetchBus, hd]; rfl
  · rw [step_setup h, decode_setup_eq hd]

/-- Settles O6: the decoder rejects the word, and fetching answers the refusal. -/
theorem illegalWordsRefused : Obligations.IllegalWordsRefused := by
  refine ⟨fun s bytes more q hs hi hd => ?_, fun s bytes more q hs hi hd => ?_⟩
  · rw [step_client hs hi, fetchClient, hd]; rfl
  · rw [step_bus hs hi, fetchBus, hd]; rfl

/-! ## The client's own accesses -/

theorem step_writeBuf {h : Handle} {offset : BitVec 32} {b : Byte} {more : List Input} (hs : s.settled = true)
    (hi : s.input = .writeBuf h offset b :: more) : step s = clientWriteBuf h offset b { s with input := more } := by
  rw [step_settled hs, fetchInput, hi]
  rfl

theorem step_setComplete {h : Handle} {present : Bool} {more : List Input} (hs : s.settled = true)
    (hi : s.input = .setComplete h present :: more) : step s = clientSetComplete h present { s with input := more } := by
  rw [step_settled hs, fetchInput, hi]
  rfl

theorem step_callbackReturn {r : Int} {more : List Input} (hs : s.settled = true) (hi : s.input = .callbackReturn r :: more) :
    step s = callbackReturn r { s with input := more } := by
  rw [step_settled hs, fetchInput, hi]
  rfl

/-- Settles O7: the three accesses by their checks; a written byte is read back by the laws of buffer memory. -/
theorem clientAccesses : Obligations.ClientAccesses := by
  intro s h offset b present r more hs
  refine ⟨fun hi => ⟨fun hh hm => ?_, fun hh => ?_⟩, fun hi => ⟨fun hh hp => ?_, fun hh hp => ?_, fun hh => ?_⟩,
    fun hi hst => ?_⟩
  · refine ⟨s.mem.write (bufAddr h offset.toNat) b, ?_, Memory.write_wf _ _ hm, Memory.read_write_self _ _ hm,
      fun a ha => Memory.read_write_ne b ha⟩
    rw [step_writeBuf hs hi, clientWriteBuf, if_pos hh]
    rfl
  · rw [step_writeBuf hs hi, clientWriteBuf, if_neg (Nat.not_lt.mpr hh)]
  · rw [step_setComplete hs hi, clientSetComplete, if_pos hh, if_neg (by simpa [State.reqAt] using hp)]
    rfl
  · rw [step_setComplete hs hi, clientSetComplete, if_pos hh, if_pos (by simpa [State.reqAt] using hp)]
  · rw [step_setComplete hs hi, clientSetComplete, if_neg (Nat.not_lt.mpr hh)]
  · rw [step_callbackReturn hs hi, callbackReturn, hst]

/-! ## Returning from a callback -/

/-- The client returns r: what called the callback goes on with r. -/
theorem step_return {c : Callback} {fs : List Frame} {r : Int} {more : List Input} (hst : s.stack = .callback c :: fs)
    (hi : s.input = .callbackReturn r :: more) :
    step s = settle { s with stack := fs, input := more, cbResult := r } := by
  rw [step_callbackReturn (by simp [State.settled, hst, Frame.isCallback]) hi, callbackReturn, hst]
  rfl

theorem afterConfig_quiet (h : s.race = []) :
    afterConfig s = if s.cbResult < 0 then s.afterEp0Stall else s.afterEp0Ack := by
  rw [afterConfig, ep0Stall_quiet h, ep0Ack_quiet h]

theorem afterForward_quiet (h : s.race = []) : afterForward s = if s.cbResult < 0 then s.afterEp0Stall else s := by
  rw [afterForward, ep0Stall_quiet h]

/-- Settles O15: behind the callback the next frame is run, and what is left settled. -/
theorem callbackReturns : Obligations.CallbackReturns := by
  intro s c fs r more hst hi
  rw [step_return hst hi]
  refine ⟨fun hfs => by subst hfs; exact settle_settled rfl, ?_⟩
  rintro f gs rfl t
  have race : t.race = s.race := rfl
  refine ⟨fun hf => settle_cons rfl hf, fun hf => settle_settled hf, ?_, ?_⟩
  · rintro hr rfl
    rw [settle_cons rfl rfl]
    exact congrArg settle (afterConfig_quiet (race.trans hr))
  · rintro hr rfl
    rw [settle_cons rfl rfl]
    exact congrArg settle (afterForward_quiet (race.trans hr))

/-! ## Notifications -/

theorem driverHas_eq (cap : Driver → Bool) : s.driverHas cap = s.dev.driver.any cap := by
  unfold State.driverHas
  cases s.dev.driver <;> rfl

/-- A notification is the frame in front: it ends in its callback, or what is behind it is settled. -/
theorem thenDo_notify {c : Callback} {p : Prop} [Decidable p] :
    thenDo (.next (if p then s.invoke c else s)) settle = if p then .next (s.invoke c) else settle s := by
  split
  · exact settle_callback rfl
  · rfl

/-- Settles O35: the guard of each notification, in terms of the registered driver. -/
theorem notifyCallbacks : Obligations.NotifyCallbacks := by
  refine fun s fs => ⟨fun hst => ?_, fun hst => ?_⟩
  · rw [step_eq_result, fetch, hst]
    change settle s = _
    rw [settle_cons hst rfl]
    simp only [runFrame, notifyResume, driverHas_eq]
    refine thenDo_notify.trans ?_
    simp
    rfl
  · rw [step_eq_result, fetch, hst]
    change settle s = _
    rw [settle_cons hst rfl]
    simp only [runFrame, notifySuspend, driverHas_eq]
    refine thenDo_notify.trans ?_
    simp
    rfl

/-! ## POLL and RUN -/

theorem not_irqPending_iff : s.irqPending = false ↔ s.busEvt &&& s.busEvtEn = 0 ∧ s.epEvt &&& s.epEvtEn = 0 := by
  simp [State.irqPending]

theorem poll_eq : poll s =
    if (s.busEvt &&& s.busEvtEn ≠ 0 ∨ s.epEvt &&& s.epEvtEn ≠ 0) ∧ s.plat.sysintUnmasked = true then exec .dispatch s
    else .next s := by
  simp [poll, State.irqLine, State.irqPending]

/-- Go on with the state a move of RUN answers. -/
def runOn (r : Res) (f : State → Option Res) : Option Res :=
  match r with
  | .next t => f t
  | .fault q => some (.fault q)
  | .refused q => some (.refused q)

/-- One move of RUN: a step while it waits, else a POLL while something is pending, else it ends. -/
theorem runFrom_succ (base n : Nat) (s : State) :
    runFrom base (n + 1) s =
      if base < s.stack.length then runOn (step s) (runFrom base n)
      else if s.turn.irqPending then runOn (poll s.turn) (runFrom base n)
      else some (.next s.turn) := by
  rw [runFrom]
  split_ifs
  · cases step s <;> rfl
  · cases poll s.turn <;> rfl
  · rfl

/-- Where RUN answers a state nothing is pending and it waits for nothing. -/
theorem runFrom_ends {base n : Nat} {t : State} (h : runFrom base n s = some (.next t)) :
    t.irqPending = false ∧ t.stack.length ≤ base := by
  induction n generalizing s with
  | zero => cases h
  | succ n ih =>
    have through : ∀ r : Res, runOn r (runFrom base n) = some (.next t) → t.irqPending = false ∧ t.stack.length ≤ base := by
      rintro (u | q | q) hr
      · exact ih hr
      · cases hr
      · cases hr
    rw [runFrom_succ] at h
    split_ifs at h with waits pending
    · exact through _ h
    · exact through _ h
    · cases h
      exact ⟨by simpa using pending, by simpa using waits⟩

/-- More moves do not change the answer. -/
theorem runFrom_more {base n : Nat} {r : Res} (k : Nat) (h : runFrom base n s = some r) : runFrom base (n + k) s = some r := by
  induction n generalizing s with
  | zero => cases h
  | succ n ih =>
    have through : ∀ q : Res, runOn q (runFrom base n) = some r → runOn q (runFrom base (n + k)) = some r := by
      rintro (u | q | q) hr
      · exact ih hr
      · exact hr
      · exact hr
    rw [Nat.succ_add, runFrom_succ]
    rw [runFrom_succ] at h
    split_ifs at h ⊢
    · exact through _ h
    · exact through _ h
    · exact h

/-- Settles O36: POLL by its test, RUN by induction on the moves it is given. -/
theorem pollDispatches : Obligations.PollDispatches := by
  refine fun s => ⟨poll_eq, fun n hr hb he => ?_, fun n t h => ?_, fun n k r h => runFrom_more k h⟩
  · rw [run, runFrom_succ, if_neg (Nat.lt_irrefl _), State.turn_nil hr, if_neg (by simp [not_irqPending_iff.mpr ⟨hb, he⟩])]
  · obtain ⟨idle, length⟩ := runFrom_ends h
    obtain ⟨bus, ep⟩ := not_irqPending_iff.mp idle
    exact ⟨bus, ep, length⟩

end Sys2Proof.Machine
end

section
/-! The bus agent's steps (45_bus_agent.md): the guard of each as a proposition, its effect field by field, and what all of them
leave alone. -/

namespace Sys2Proof.Machine

variable {s : State}

/-! ## Guards and effects -/

/-- A step for an endpoint that exists has its effect where its guard holds, and no move elsewhere. -/
theorem act_addressed {ev : BusEvent} (h : ev.addressed s = true) :
    ev.act s = if ev.guard s = true then { ev.effect s with busResult := .taken } else { s with busResult := .notEnabled } := by
  rw [BusEvent.act, h]
  rfl

theorem live_iff : s.live = true ↔
    s.plat.padMode = .device ∧ s.plat.clkGated = false ∧ (s.plat.pullup = true ∨ s.plat.udcCommand = false) := by
  simp [State.live, and_assoc]

/-- Two changes of an endpoint's hardware that agree on what it holds are one. -/
theorem modify_hw_congr {e : EpNum} {f g : Hw → Hw} (h : f (s.hwAt e) = g (s.hwAt e)) :
    s.hw.modify e.toNat f = s.hw.modify e.toNat g := by
  refine List.ext_getElem? fun j => ?_
  simp only [List.getElem?_modify]
  by_cases hj : e.toNat = j
  · subst hj
    cases hw : s.hw[e.toNat]? with
    | none => rfl
    | some w => simpa [State.hwAt, hw] using h
  · simp [hj]

/-- Settles O37: the guard read as a proposition, and the effect field by field. -/
theorem busEventsEffect : Obligations.BusEventsEffect := by
  intro s live
  have guard : ∀ ev : BusEvent, ev = .reset ∨ ev = .suspend ∨ ev = .resume → (ev.guard s = true ↔ live) := by
    rintro ev (rfl | rfl | rfl) <;> simp [BusEvent.guard, live_iff, live]
  have taken : ∀ ev : BusEvent, ev = .reset ∨ ev = .suspend ∨ ev = .resume → live →
      ev.act s = { ev.effect s with busResult := .taken } := by
    intro ev hev hl
    rw [act_addressed (by rcases hev with rfl | rfl | rfl <;> rfl), if_pos ((guard ev hev).mpr hl)]
  have refused : ∀ ev : BusEvent, ev = .reset ∨ ev = .suspend ∨ ev = .resume → ¬live →
      ev.act s = { s with busResult := .notEnabled } := by
    intro ev hev hl
    rw [act_addressed (by rcases hev with rfl | rfl | rfl <;> rfl), if_neg fun h => hl ((guard ev hev).mp h)]
  refine ⟨fun hl => congrArg _ (taken .reset (by simp) hl), fun hl => congrArg _ (taken .suspend (by simp) hl),
    fun hl => congrArg _ (taken .resume (by simp) hl), fun hl i hi => ?_⟩
  simp only [List.mem_cons, List.not_mem_nil, or_false] at hi
  rcases hi with rfl | rfl | rfl
  · exact congrArg _ (refused .reset (by simp) hl)
  · exact congrArg _ (refused .suspend (by simp) hl)
  · exact congrArg _ (refused .resume (by simp) hl)

section
variable {e : EpNum} {bytes : List Byte}

theorem guard_setup_iff : (BusEvent.setup bytes).guard s = true ↔
    s.live = true ∧ (s.csrAt 0).opr = false ∧ bytes.length ≤ 8 := by
  simp [BusEvent.guard]

theorem guard_out_iff : (BusEvent.out e bytes).guard s = true ↔
    s.live = true ∧ (s.csrAt e).opr = false ∧ (s.csrAt e).sendStall = false ∧ bytes.length ≤ s.params.fifoSize e ∧
      (if e = 0 then s.ctlActive = true ∧ (s.csrAt 0).dataEnd = false ∧ (s.csrAt 0).ipr = false
        else (s.epAt e).enabled = true ∧ (s.epAt e).dir = .out) := by
  by_cases h0 : e = 0 <;> simp [BusEvent.guard, h0, and_assoc]

theorem guard_take_iff : (BusEvent.take e).guard s = true ↔
    s.live = true ∧ (s.csrAt e).ipr = true ∧ (s.csrAt e).sendStall = false ∧
      (if e = 0 then s.ctlActive = true else (s.epAt e).enabled = true ∧ (s.epAt e).dir = .inward) := by
  by_cases h0 : e = 0 <;> simp [BusEvent.guard, h0, and_assoc]

theorem guard_stall_iff : (BusEvent.stall e).guard s = true ↔
    s.live = true ∧ (s.csrAt e).sendStall = true ∧
      (if e = 0 then s.ctlActive = true else (s.epAt e).enabled = true) := by
  by_cases h0 : e = 0 <;> simp [BusEvent.guard, h0]

theorem guard_status_iff : BusEvent.status.guard s = true ↔
    s.live = true ∧ s.ctlActive = true ∧ (s.csrAt 0).dataEnd = true ∧ (s.csrAt 0).ipr = false ∧
      (s.csrAt 0).opr = false ∧ (s.csrAt 0).sendStall = false := by
  simp [BusEvent.guard, and_assoc]

theorem addressed_of_lt (h : e.toNat < s.params.numEp) : s.validEp e = true := by simpa [State.validEp] using h

end

/-- Settles O38: the guard read as a proposition, and the effect field by field. -/
theorem bsetupEffect : Obligations.BsetupEffect := by
  intro bytes s _
  show Host.Outcome.next (BusEvent.act (.setup bytes) s) = _
  refine congrArg Host.Outcome.next ((act_addressed rfl).trans (if_congr guard_setup_iff ?_ rfl))
  simp only [BusEvent.effect, busSetup, State.setHw, State.raiseEpEvt]
  congr 1
  exact modify_hw_congr (e := 0) rfl

/-- Settles O39: the guard read as a proposition, and the effect field by field. -/
theorem boutEffect : Obligations.BoutEffect := by
  intro e bytes s he
  show Host.Outcome.next (BusEvent.act (.out e bytes) s) = _
  exact congrArg Host.Outcome.next ((act_addressed (ev := .out e bytes) (addressed_of_lt he)).trans
    (if_congr guard_out_iff rfl rfl))

/-- Settles O40: the guard read as a proposition, and the effect field by field. -/
theorem binEffect : Obligations.BinEffect := by
  intro e s he
  show Host.Outcome.next (BusEvent.act (.take e) s) = _
  exact congrArg Host.Outcome.next ((act_addressed (ev := .take e) (addressed_of_lt he)).trans
    (if_congr guard_take_iff rfl rfl))

/-- Settles O41: the guard read as a proposition, and the effect field by field. -/
theorem bstallBstatusEffect : Obligations.BstallBstatusEffect := by
  refine fun e s he => ⟨?_, ?_⟩
  · show Host.Outcome.next (BusEvent.act (.stall e) s) = _
    refine congrArg Host.Outcome.next ((act_addressed (ev := .stall e) (addressed_of_lt he)).trans
      (if_congr guard_stall_iff ?_ rfl))
    by_cases h0 : e = 0
    · subst h0; rfl
    · have hz : (e == 0) = false := beq_eq_false_iff_ne.mpr h0
      simp only [BusEvent.effect, busStall, hz, h0, if_false]
      rfl
  · show Host.Outcome.next (BusEvent.act .status s) = _
    exact congrArg Host.Outcome.next ((act_addressed rfl).trans (if_congr guard_status_iff rfl rfl))

/-! ## What the bus agent never does (45_bus_agent.md R180) -/

/-- A set event bit stays set. -/
theorem act_busEvt_keeps (ev : BusEvent) (s : State) {j : Nat} (h : s.busEvt.getLsbD j = true) :
    (ev.act s).busEvt.getLsbD j = true := by
  unfold BusEvent.act
  split_ifs
  · exact h
  · cases ev
    case reset | suspend | resume => simp [BusEvent.effect, busReset, h]
    case stall => simp only [BusEvent.effect, busStall]; split <;> exact h
    all_goals exact h
  · exact h

theorem act_epEvt_keeps (ev : BusEvent) (s : State) {j : Nat} (h : s.epEvt.getLsbD j = true) :
    (ev.act s).epEvt.getLsbD j = true := by
  have raised : ∀ e : EpNum, (s.epEvt ||| epBit e).getLsbD j = true := fun e => by simp [h]
  unfold BusEvent.act
  split_ifs
  · exact h
  · cases ev
    case reset | suspend | resume => exact h
    case stall => simp only [BusEvent.effect, busStall]; split <;> exact raised _
    all_goals exact raised _
  · exact h

/-- What a bus step can do to one endpoint's hardware; p says that the step is not a bus reset of EP0. -/
structure Hw.AgentStep (p : Prop) (w w' : Hw) : Prop where
  opr : p → w.csr.opr = true → w'.csr.opr = true
  sentStall : p → w.csr.sentStall = true → w'.csr.sentStall = true
  setupEnd : p → w.csr.setupEnd = true → w'.csr.setupEnd = true
  ipr : w.csr.ipr = false → w'.csr.ipr = false
  dataEnd : w.csr.dataEnd = false → w'.csr.dataEnd = false
  sendStall : w.csr.sendStall = false → w'.csr.sendStall = false
  maxp : w'.maxp = w.maxp

theorem Hw.AgentStep.refl (p : Prop) (w : Hw) : w.AgentStep p w := ⟨fun _ => id, fun _ => id, fun _ => id, id, id, id, rfl⟩

/-- A change of one endpoint's hardware, seen at every endpoint. -/
theorem agentStep_setHw {p : Prop} {e : EpNum} {f : Hw → Hw} (e' : EpNum) (hf : e' = e → ∀ w : Hw, w.AgentStep p (f w)) :
    (s.hwAt e').AgentStep p ((s.setHw e f).hwAt e') := by
  by_cases he : e' = e
  · subst he
    by_cases hl : e'.toNat < s.hw.length
    · rw [State.hwAt_setHw_self hl]; exact hf rfl _
    · have same : (s.setHw e' f).hwAt e' = s.hwAt e' := by simp [State.hwAt, hl]
      rw [same]; exact .refl _ _
  · rw [State.hwAt_setHw_ne he]; exact .refl _ _

theorem act_agentStep (ev : BusEvent) (s : State) (e : EpNum) :
    (s.hwAt e).AgentStep (ev = .reset → e ≠ 0) ((ev.act s).hwAt e) := by
  unfold BusEvent.act
  split_ifs
  · exact .refl _ _
  · cases ev
    case reset =>
      exact agentStep_setHw e fun h0 w =>
        ⟨fun hp => absurd h0 (hp rfl), fun hp => absurd h0 (hp rfl), fun hp => absurd h0 (hp rfl), fun _ => rfl, fun _ => rfl,
          fun _ => rfl, rfl⟩
    case suspend | resume => exact .refl _ _
    case setup =>
      exact agentStep_setHw e fun _ w => ⟨fun _ _ => rfl, fun _ => id, fun _ h => by simp [h], fun _ => rfl, fun _ => rfl,
        fun _ => rfl, rfl⟩
    case out => exact agentStep_setHw e fun _ w => ⟨fun _ _ => rfl, fun _ => id, fun _ => id, id, id, id, rfl⟩
    case take =>
      exact agentStep_setHw (s := s.logTx _ _) e fun _ w =>
        ⟨fun _ => id, fun _ => id, fun _ => id, fun _ => rfl, id, id, rfl⟩
    case stall =>
      simp only [BusEvent.effect, busStall]
      split
      · exact agentStep_setHw e fun _ w => ⟨fun _ => id, fun _ _ => rfl, fun _ => id, id, fun _ => rfl, fun _ => rfl, rfl⟩
      · exact agentStep_setHw e fun _ w => ⟨fun _ => id, fun _ _ => rfl, fun _ => id, id, id, id, rfl⟩
    case status => exact agentStep_setHw e fun _ w => ⟨fun _ => id, fun _ => id, fun _ => id, id, fun _ => rfl, id, rfl⟩
  · exact .refl _ _

/-- An operation of the bus port is one step of the bus agent. -/
theorem exec_bus {i : Instr} (hp : i.port = .bus) : ∃ ev : BusEvent, (∀ s, exec i s = .next (ev.act s)) ∧
    (ev = .reset → i = .breset) ∧
    ∀ e, (i = .bin e ∨ i = .bstall e ∨ ∃ p, i = .bout e p) → ∀ s, ev.addressed s = s.validEp e := by
  cases i
  case breset => exact ⟨.reset, fun _ => rfl, fun _ => rfl, by simp⟩
  case bsusp => exact ⟨.suspend, fun _ => rfl, by simp, by simp⟩
  case bresume => exact ⟨.resume, fun _ => rfl, by simp, by simp⟩
  case bsetup p => exact ⟨.setup p, fun _ => rfl, by simp, by simp⟩
  case bout e p => exact ⟨.out e p, fun _ => rfl, by simp, by simp [BusEvent.addressed]⟩
  case bin e => exact ⟨.take e, fun _ => rfl, by simp, by simp [BusEvent.addressed]⟩
  case bstall e => exact ⟨.stall e, fun _ => rfl, by simp, by simp [BusEvent.addressed]⟩
  case bstatus => exact ⟨.status, fun _ => rfl, by simp, by simp⟩
  all_goals cases hp

/-- Settles O42: an operation of the bus port is one bus step, and no bus step does what is excluded. -/
theorem busAgentFrame : Obligations.BusAgentFrame := by
  intro i s t hp h
  obtain ⟨ev, run, isReset, names⟩ := exec_bus hp
  obtain rfl : ev.act s = t := by simpa [run] using h
  refine ⟨fun j => act_busEvt_keeps ev s, fun j => act_epEvt_keeps ev s, fun e he => ?_, fun e => ?_, ?_⟩
  · have step := act_agentStep ev s e
    have notReset : ev = .reset → e ≠ 0 := fun hr => he (isReset hr)
    exact ⟨step.opr notReset, step.sentStall notReset, step.setupEnd notReset⟩
  · have step := act_agentStep ev s e
    exact ⟨step.ipr, step.dataEnd, step.sendStall, step.maxp⟩
  · have absent : (∃ e, (i = .bin e ∨ i = .bstall e ∨ ∃ p, i = .bout e p) ∧ s.params.numEp ≤ e.toNat) →
        ev.act s = { s with busResult := .invalid } := by
      rintro ⟨e, he, hn⟩
      rw [BusEvent.act, if_pos (by rw [names e he s]; simpa [State.validEp] using hn)]
    obtain ⟨_, _, _, _, _, _, frame⟩ := act_frame ev s
    refine ⟨?_, ?_, ?_, ?_, ?_, ?_, ?_, ?_, ?_, ?_, absent⟩ <;> rw [frame]

end Sys2Proof.Machine
end

section
/-! The setup requests (41_ep0_control.md R106 to R115) with nothing interleaved. -/

namespace Sys2Proof.Machine

variable {s : State}

/-! ## Register writes with nothing scheduled -/

theorem funcAddrWrite_nil (v : BitVec 7) (h : s.race = []) : funcAddrWrite v s = { s with funcAddr := v } := by
  rw [funcAddrWrite, State.turn_nil h]

/-- A request whose own part leaves the stack alone is at its end. -/
theorem State.Quiet.runToEnd_next (hq : s.Quiet) {t u : State} (e : t = u) (ht : u.stack = s.stack) :
    runToEnd (.next t) = .next u := by
  rw [e]; exact runToEnd_settled hq.settled ht

theorem State.Quiet.runToEnd_ep0Stall (hq : s.Quiet) : runToEnd (.next (ep0Stall s)) = .next s.afterEp0Stall :=
  hq.runToEnd_next (ep0Stall_quiet hq.race) rfl

theorem State.Quiet.runToEnd_ep0Ack (hq : s.Quiet) : runToEnd (.next (ep0Ack s)) = .next s.afterEp0Ack :=
  hq.runToEnd_next (ep0Ack_quiet hq.race) rfl

theorem badTarget_iff {n : EpNum} :
    s.badTarget n = true ↔ s.params.numEp ≤ n.toNat ∨ n ≠ 0 ∧ (s.epAt n).enabled = false := by
  simp [State.badTarget, State.validEp]

theorem not_badTarget {n : EpNum} (hv : n.toNat < s.params.numEp) (he : n = 0 ∨ (s.epAt n).enabled = true) :
    s.badTarget n = false := by
  rw [← Bool.not_eq_true, badTarget_iff]
  rintro (h | ⟨h0, h⟩)
  · omega
  · rcases he with rfl | he
    · exact h0 rfl
    · simp [h] at he

/-! ## One-packet answers -/

theorem deviceStatus_eq (d : Dev) :
    deviceStatus d = [BitVec.ofNat 8 (d.selfPowered.toNat + 2 * d.remoteWakeup.toNat), 0] := by
  unfold deviceStatus
  cases d.selfPowered <;> cases d.remoteWakeup <;> rfl

theorem endpointStatus_eq (p : Ep) : endpointStatus p = [BitVec.ofNat 8 p.halted.toNat, 0] := by
  unfold endpointStatus
  cases p.halted <;> rfl

theorem State.Shaped.hw_pos (h : s.Shaped) : 0 < s.hw.length := by
  have := (Params.wf_iff.mp h.params).1
  rw [h.hw]; omega

/-- A reply that fits FIFO[0] ends the request. -/
theorem State.Quiet.runToEnd_ep0Reply (hq : s.Quiet) (hs : s.Shaped) {bytes : List Byte}
    (fits : (s.hwAt 0).released.fifo.length + bytes.length ≤ s.params.fifoSize 0) :
    runToEnd (ep0Reply bytes s) = .next (s.afterEp0Reply bytes) := by
  rw [ep0Reply_quiet bytes hq.race hs.hw_pos fits]
  exact hq.runToEnd_next rfl rfl

/-- Settles O8: the replies by `ep0Reply`, the stalls by the test of the target. -/
theorem getRequestsAnswer : Obligations.GetRequestsAnswer := by
  intro d v x l s hq hs n used
  have endpoint : exec (.getStatusEp d v x l) s = runToEnd (if s.badTarget n then .next (ep0Stall s)
    else ep0Reply (endpointStatus (s.epAt n)) s) := rfl
  refine ⟨fun fits => ?_, fun fits => ?_, fun bad => ?_, fun hv he fits => ?_⟩
  · show runToEnd (ep0Reply (deviceStatus s.dev) s) = _
    rw [deviceStatus_eq]
    exact hq.runToEnd_ep0Reply hs fits
  · exact hq.runToEnd_ep0Reply hs fits
  · rw [endpoint, if_pos (badTarget_iff.mpr bad)]
    exact hq.runToEnd_ep0Stall
  · rw [endpoint, if_neg (by simp [not_badTarget hv he]), endpointStatus_eq]
    exact hq.runToEnd_ep0Reply hs fits

/-! ## Bookkeeping requests -/

/-- Settles O9: two writes of the address, then the acknowledgement. -/
theorem setAddressEffect : Obligations.SetAddressEffect := by
  intro d v x l s hq
  show runToEnd (.next (ep0Ack (funcAddrWrite _ (s.setDev _)))) = _
  rw [funcAddrWrite_nil _ (by exact hq.race)]
  exact State.Quiet.runToEnd_ep0Ack ⟨hq.race, hq.settled⟩

/-- Settles O12: each form is one record write and an acknowledgement, or a stall. -/
theorem featureRequestsEffect : Obligations.FeatureRequestsEffect := by
  intro d r v x l s hq
  have quiet : ∀ w, (s.setDev ({ · with remoteWakeup := w })).Quiet := fun w => ⟨hq.race, hq.settled⟩
  exact ⟨(quiet false).runToEnd_ep0Ack, (quiet true).runToEnd_ep0Ack, hq.runToEnd_ep0Stall, hq.runToEnd_ep0Stall⟩

/-! ## The halt feature -/

/-- The halt of a data endpoint and the acknowledge behind it. -/
theorem ep0Ack_haltHw_quiet {n : EpNum} (v : Bool) (h : s.race = []) (h0 : n ≠ 0) :
    ep0Ack (haltHw n v s) = ({ s with
      eps := s.eps.modify n.toNat fun p => { p with halted := v }
      hw := s.hw.modify n.toNat fun w =>
        { w with csr := { w.csr with sendStall := v }, toggle := if v then w.toggle else .data0 } } : State).afterEp0Ack := by
  rw [haltHw_quiet n v h, beq_eq_false_iff_ne.mpr h0, ep0Ack_quiet (by exact h)]
  simp [State.afterEp0Ack]

/-- Settles O10: by the target, a bad one, EP0, or an enabled data endpoint. -/
theorem clearFeatureHaltEffect : Obligations.ClearFeatureHaltEffect := by
  intro d x l s hq n
  have body : exec (.clearFeatureHalt d x l) s = runToEnd (if s.badTarget n then .next (ep0Stall s)
    else .next (ep0Ack (if n == 0 then s else haltHw n false s))) := rfl
  rw [body]
  refine ⟨fun bad => ?_, fun hv h0 => ?_, fun hv h0 he => ?_⟩
  · rw [if_pos (badTarget_iff.mpr bad)]
    exact hq.runToEnd_ep0Stall
  · rw [not_badTarget hv (.inl h0), h0]
    exact hq.runToEnd_ep0Ack
  · rw [not_badTarget hv (.inr he), beq_eq_false_iff_ne.mpr h0]
    exact hq.runToEnd_next (ep0Ack_haltHw_quiet false hq.race h0) rfl

/-- Settles O11: by the target, a bad one, EP0, or an enabled data endpoint. -/
theorem setFeatureHaltEffect : Obligations.SetFeatureHaltEffect := by
  intro d x l s hq n
  have body : exec (.setFeatureHalt d x l) s = runToEnd (if s.badTarget n then .next (ep0Stall s)
    else if n == 0 then .next (ep0Stall s) else .next (ep0Ack (haltHw n true s))) := rfl
  rw [body]
  refine ⟨fun bad => ?_, fun hv h0 he => ?_⟩
  · split_ifs with hb h0
    · exact hq.runToEnd_ep0Stall
    · exact hq.runToEnd_ep0Stall
    · rw [badTarget_iff] at hb
      rw [beq_iff_eq] at h0
      tauto
  · rw [not_badTarget hv (.inr he), beq_eq_false_iff_ne.mpr h0]
    exact hq.runToEnd_next (ep0Ack_haltHw_quiet true hq.race h0) rfl

/-! ## Requests the driver takes part in -/

theorem standardType_device (d : Bool) : standardType d 0 = if d then 0x80 else 0x00 := by cases d <;> rfl

theorem standardType_interface (d : Bool) : standardType d 1 = if d then 0x81 else 0x01 := by cases d <;> rfl

/-- Settles O13: by FORWARD_CONFIG and the driver. -/
theorem setConfigurationSetInterfaceEffect : Obligations.SetConfigurationSetInterfaceEffect := by
  intro d v x l s hq call
  have key : ∀ (pkt : SetupPkt) (f : Dev → Dev), (f s.dev).driver = s.dev.driver →
      runToEnd (configCall pkt (s.setDev f)) = .next (call pkt (s.setDev f)) := by
    intro pkt f driver
    have quiet : (s.setDev f).Quiet := ⟨hq.race, hq.settled⟩
    simp only [configCall, State.setDev_params, State.setDev_dev, driver, call]
    split
    · cases s.dev.driver
      · exact quiet.runToEnd_ep0Stall
      · exact settle_callback rfl
    · exact quiet.runToEnd_ep0Ack
  rw [← standardType_device, ← standardType_interface]
  exact ⟨key _ ({ · with config := v.extractLsb' 0 8 }) rfl, key _ id rfl⟩

@[simp] theorem Hw.released_released (w : Hw) : w.released.released = w.released := by
  unfold Hw.released
  split <;> simp_all

/-- Settles O14: the release of FIFO[0], then by the driver. -/
theorem forwardEffect : Obligations.ForwardEffect := by
  intro pkt s hq
  show runToEnd (reqForward pkt s) = _
  have freed : csrWrite 0 { opr := some false } s = { s with index := 0, hw := s.hw.modify 0 Hw.released } := by
    rw [csrWrite_quiet _ _ hq.race (by simp), csrWrite_release]
    rfl
  rw [reqForward, freed]
  cases hd : s.dev.driver with
  | none =>
    simp only [hd, if_true]
    refine (State.Quiet.runToEnd_ep0Stall (by exact ⟨hq.race, hq.settled⟩)).trans ?_
    simp [State.afterEp0Stall, List.modify_modify_eq, Function.comp_def]
  | some dr =>
    simp only [hd, reduceCtorEq, if_false]
    rw [← hd]
    exact settle_settled rfl

end Sys2Proof.Machine
end

section
/-! The endpoint operations (42_endpoint_ops.md) with nothing interleaved, up to those that move a packet. -/

namespace Sys2Proof.Machine

variable {s : State}

/-! ## Results -/

theorem runToEnd_raise (h : s.settled = true) (k : Kind) : runToEnd (s.raise k) = .next { s with cmdResult := k.code } :=
  runToEnd_settled h rfl

theorem runToEnd_returns (h : s.settled = true) (v : Int) : runToEnd (s.returns v) = .next { s with cmdResult := v } :=
  runToEnd_settled h rfl

theorem State.Quiet.runToEnd_returns (hq : s.Quiet) {t u : State} (v : Int) (e : t = u) (hu : u.stack = s.stack) :
    runToEnd (t.returns v) = .next { u with cmdResult := v } := by
  rw [e]; exact Machine.runToEnd_returns (settled_of_stack hq.settled hu) v

/-- Behind a result that is due the rest is settled. -/
theorem settle_ret {v : Int} {fs : List Frame} (h : s.stack = .ret v :: fs) :
    settle s = settle { s with stack := fs, cmdResult := v } := by
  rw [settle_cons h rfl]; rfl

/-! ## Checks of the operands -/

section
variable {e : EpNum} {h : Handle}

theorem validEp_iff : s.validEp e = true ↔ e.toNat < s.params.numEp := by simp [State.validEp]

theorem validReq_of (hh : h.toNat < s.params.numReq) (ha : (s.reqAt h).allocated = true) : s.validReq h = true := by
  simp [State.validReq, hh, ha]

theorem not_validEp (he : s.params.numEp ≤ e.toNat) : s.validEp e = false := by simpa [State.validEp] using he

theorem not_validReq (hh : s.params.numReq ≤ h.toNat ∨ (s.reqAt h).allocated = false) : s.validReq h = false := by
  rcases hh with hh | hh <;> simp [State.validReq, hh]

end

/-- Settles O16: the operand checks are the first of every rule. -/
theorem badOperandsRefused : Obligations.BadOperandsRefused := by
  intro s e h dir v zlp type maxp len hs
  refine ⟨fun he i hi => ?_, fun hh i hi => ?_⟩ <;>
    simp only [List.mem_cons, List.not_mem_nil, or_false] at hi
  · have bad := not_validEp he
    have key : ∀ r, r = s.raise .invalidArgument → runToEnd r = .next { s with cmdResult := -1 } := by
      rintro _ rfl; exact runToEnd_raise hs _
    rcases hi with rfl | rfl | rfl | rfl | rfl | rfl | rfl | rfl
    · exact key (epenBody e dir type maxp s) (by simp [epenBody, bad])
    · exact key (epdisBody e s) (by simp [epdisBody, bad])
    · exact key (ephaltBody e v s) (by simp [ephaltBody, bad])
    · exact key (epfstatBody e s) (by simp [epfstatBody, bad])
    · exact key (rqallocBody e s) (by simp [rqallocBody, bad])
    · exact key (rqfreeBody e h s) (by simp [rqfreeBody, bad])
    · exact key (epqueueBody e h s) (by simp [epqueueBody, bad])
    · exact key (epdeqBody e h s) (by simp [epdeqBody, bad])
  · have bad := not_validReq hh
    have key : ∀ r, r = s.raise .invalidArgument → runToEnd r = .next { s with cmdResult := -1 } := by
      rintro _ rfl; exact runToEnd_raise hs _
    rcases hi with rfl | rfl | rfl | rfl
    · exact key (rqfreeBody e h s) (by simp [rqfreeBody, bad])
    · exact key (rqsetBody h zlp len s) (by simp [rqsetBody, bad])
    · exact key (epqueueBody e h s) (by simp [epqueueBody, bad])
    · exact key (epdeqBody e h s) (by simp [epdeqBody, bad])

/-! ## Halt and FIFO status -/

/-- Settles O19: by the kind of the endpoint, after the operand check. -/
theorem ephaltEffect : Obligations.EphaltEffect := by
  intro e v s hq hv
  show runToEnd (ephaltBody e v s) = _
  rw [ephaltBody, validEp_iff.mpr hv]
  by_cases h0 : e = 0
  · subst h0
    simp only [Bool.not_true, Bool.false_eq_true, if_false, BEq.rfl, if_true]
    cases v
    · exact hq.runToEnd_returns 0 rfl rfl
    · exact hq.runToEnd_returns 0 (ep0Stall_quiet hq.race) rfl
  · have hz : (e == 0) = false := beq_eq_false_iff_ne.mpr h0
    simp only [Bool.not_true, Bool.false_eq_true, if_false, hz, h0]
    cases he : (s.epAt e).enabled
    · exact runToEnd_raise hq.settled .notReady
    · refine (hq.runToEnd_returns 0 (haltHw_quiet e v hq.race) rfl).trans ?_
      have h0' : ¬e = 0#4 := h0
      simp [h0']

/-- Settles O21: by the check, then by OPR. -/
theorem epfstatEffect : Obligations.EpfstatEffect := by
  intro e s hq hv
  show runToEnd (epfstatBody e s) = _
  have select : s.select e = { s with index := e } := State.select_nil e hq.race
  have again : ({ s with index := e } : State).select e = { s with index := e } := State.select_nil e hq.race
  have quiet : ({ s with index := e } : State).settled = true := hq.settled
  simp only [epfstatBody, validEp_iff.mpr hv, Bool.not_true, Bool.false_eq_true, if_false, select, again]
  by_cases hd : e ≠ 0 ∧ (s.epAt e).enabled = false
  · rw [if_pos (by simpa using hd), if_pos hd]
    exact runToEnd_raise hq.settled .notReady
  · rw [if_neg (by simpa using hd), if_neg hd]
    change runToEnd (if (s.csrAt e).opr then _ else _) = _
    split <;> exact runToEnd_returns quiet _

/-! ## Request records -/

/-- Settles O23: by the status, after the operand checks. -/
theorem rqfreeRqsetEffect : Obligations.RqfreeRqsetEffect := by
  intro e h zlp len s hq he hh ha
  have hr := validReq_of hh ha
  refine ⟨?_, ?_⟩
  · show runToEnd (rqfreeBody e h s) = _
    simp only [rqfreeBody, validEp_iff.mpr he, hr, Bool.not_true, Bool.or_false, Bool.false_eq_true, if_false, beq_iff_eq]
    split
    · exact runToEnd_raise hq.settled .invalidArgument
    · exact hq.runToEnd_returns 0 rfl rfl
  · show runToEnd (rqsetBody h zlp len s) = _
    simp only [rqsetBody, hr, Bool.not_true, Bool.false_eq_true, if_false, beq_iff_eq]
    split
    · exact runToEnd_raise hq.settled .invalidArgument
    · exact hq.runToEnd_returns 0 rfl rfl

theorem reqAt_ofNat {i : Nat} (hi : i < s.reqs.length) (hw : i < 65536) : s.reqAt (BitVec.ofNat 16 i) = s.reqs[i] := by
  simp [State.reqAt, Nat.mod_eq_of_lt hw, hi]

/-- The lowest free handle is found. -/
theorem freeHandle_eq_some {h : Handle} (hs : s.Shaped)
    (below : ∀ h' : Handle, h'.toNat < h.toNat → (s.reqAt h').allocated = true)
    (hh : h.toNat < s.params.numReq) (hf : (s.reqAt h).allocated = false) : s.freeHandle = some h := by
  have len := hs.reqs
  have found : (s.reqs.take s.params.numReq).findIdx? (!·.allocated) = some h.toNat := by
    rw [List.findIdx?_eq_some_iff_getElem]
    refine ⟨by simp; omega, ?_, fun j hj => ?_⟩
    · simpa [State.reqAt, len, hh] using hf
    · have wide : j < 65536 := hj.trans h.isLt
      have := below (BitVec.ofNat 16 j) (by simpa [Nat.mod_eq_of_lt wide] using hj)
      rw [reqAt_ofNat (by omega) wide] at this
      simpa using this
  rw [State.freeHandle, found]
  simp

/-- With every record given out none is found. -/
theorem freeHandle_eq_none {h : Handle} (hs : s.Shaped)
    (below : ∀ h' : Handle, h'.toNat < h.toNat → (s.reqAt h').allocated = true)
    (hh : s.params.numReq ≤ h.toNat) : s.freeHandle = none := by
  have none : (s.reqs.take s.params.numReq).findIdx? (!·.allocated) = none := by
    rw [List.findIdx?_eq_none_iff]
    intro r hr
    obtain ⟨i, hi, rfl⟩ := List.getElem_of_mem (List.mem_of_mem_take hr)
    rw [hs.reqs] at hi
    have wide : i < 65536 := (hi.trans_le hh).trans h.isLt
    have := below (BitVec.ofNat 16 i) (by simpa [Nat.mod_eq_of_lt wide] using hi.trans_le hh)
    rw [reqAt_ofNat (by rw [hs.reqs]; exact hi) wide] at this
    simpa using this
  rw [State.freeHandle, none]
  rfl

/-- Settles O22: the search finds the lowest free handle, or none. -/
theorem rqallocEffect : Obligations.RqallocEffect := by
  intro e h s hq hs he below
  have body : exec (.rqalloc e) s = runToEnd (match s.freeHandle with
      | none => s.raise .busy
      | some h => (s.setReq h fun _ => Req.allocatedFresh).returns h.toNat) := by
    show runToEnd (rqallocBody e s) = _
    rw [rqallocBody, validEp_iff.mpr he]
    rfl
  refine ⟨fun hh hf => ?_, fun hh => ?_⟩
  · rw [body, freeHandle_eq_some hs below hh hf]
    exact hq.runToEnd_returns h.toNat rfl rfl
  · rw [body, freeHandle_eq_none hs below hh]
    exact runToEnd_raise hq.settled .busy

/-! ## Enabling -/

theorem supportedType_eq (p : Params) (e : EpNum) (type : BitVec 2) (maxp : BitVec 11) :
    supportedType p e type maxp =
      if ¬(type = 2 ∨ type = 3) ∨ maxp = 0 ∨ p.fifoSize e < maxp.toNat then none
      else some (if type = 2 then .bulk else .interrupt) := by
  have types : ∀ t : BitVec 2, (match epTypeOf t with
      | some .bulk => some EpType.bulk | some .interrupt => some .interrupt | some .control => none | none => none) =
      if ¬(t = 2 ∨ t = 3) then none else some (if t = 2 then .bulk else .interrupt) := by decide
  have zero : maxp = 0 ↔ maxp.toNat = 0 := ⟨fun h => by rw [h]; rfl, fun h => BitVec.eq_of_toNat_eq h⟩
  unfold supportedType
  by_cases fits : 1 ≤ maxp.toNat ∧ maxp.toNat ≤ p.fifoSize e
  · rw [if_pos (by simpa using fits)]
    refine (types type).trans (if_congr ?_ rfl rfl)
    rw [zero]
    constructor
    · exact .inl
    · rintro (h | h | h)
      · exact h
      · omega
      · omega
  · rw [if_neg (by simpa using fits), if_pos]
    rw [zero]
    omega

theorem maxpWrite_nil (e : EpNum) (v : BitVec 11) (h : s.race = []) :
    maxpWrite e v s = { s with index := e, hw := s.hw.modify e.toNat ({ · with maxp := v }) } := by
  rw [maxpWrite, State.select_nil e h]; rfl

theorem epEvtEnModify_nil (f : BitVec 8 → BitVec 8) (h : s.race = []) :
    epEvtEnModify f s = { s with epEvtEn := f s.epEvtEn &&& s.params.epMask } := by
  simp only [epEvtEnModify, epEvtEnWrite, State.turn_nil h]

/-- Settles O17: the checks in order, then the three register writes with nothing between them. -/
theorem epenEffect : Obligations.EpenEffect := by
  intro e dir type maxp s hq hv
  show runToEnd (epenBody e dir type maxp s) = _
  have raise := runToEnd_raise (s := s) hq.settled
  rw [epenBody, validEp_iff.mpr hv, supportedType_eq]
  by_cases h0 : e = 0
  · rw [if_pos h0, if_neg (by simp), if_pos (by simpa using h0)]; exact raise .invalidArgument
  have hz : (e == 0) = false := beq_eq_false_iff_ne.mpr h0
  simp only [Bool.not_true, Bool.false_eq_true, if_false, hz, h0]
  by_cases hen : (s.epAt e).enabled = true
  · rw [if_pos hen, if_pos hen]; exact raise .busy
  rw [if_neg hen, if_neg hen]
  by_cases hsup : ¬(type = 2 ∨ type = 3) ∨ maxp = 0 ∨ s.params.fifoSize e < maxp.toNat
  · rw [if_pos hsup, if_pos hsup]; exact raise .invalidArgument
  rw [if_neg hsup, if_neg hsup]
  simp only [beq_iff_eq]
  by_cases hd : s.dev.driver = none
  · rw [if_pos hd, if_pos hd]; exact raise .notReady
  rw [if_neg hd, if_neg hd]
  refine hq.runToEnd_returns (u := { s with
    eps := s.eps.modify e.toNat fun p =>
      { p with
        dir := if dir then .inward else .out, type := if type = 2 then .bulk else .interrupt
        maxp := maxp, halted := false, enabled := true }
    hw := s.hw.modify e.toNat fun w =>
      { w with maxp := maxp, csr := { w.csr with opr := false, ipr := false }, cnt := 0, fifo := [], toggle := .data0 }
    epEvtEn := (s.epEvtEn ||| 1#8 <<< e.toNat) &&& s.params.epMask
    index := e }) 0 ?_ rfl
  rw [maxpWrite_nil _ _ (by exact hq.race), csrWrite_quiet _ _ (by exact hq.race) (by simp),
    epEvtEnModify_nil _ (by exact hq.race)]
  simp only [State.setHw, State.setEp, List.modify_modify_eq, hz]
  congr 1
  congr 1
  funext w
  simp [Hw.csrWrite, Hw.discards]

end Sys2Proof.Machine
end

section
/-! The FIFO engine (40_fifo_engine.md) with nothing interleaved: completion, one packet in either direction, the stops. -/

namespace Sys2Proof.Machine

variable {s : State} {e : EpNum} {h : Handle} {k : Kind}

/-! ## What completing and moving a packet leave -/

theorem afterDone_stack : (s.afterDone e h k).stack =
    if (s.reqAt h).complete then .callback (.complete e h) :: s.stack else s.stack := by
  unfold State.afterDone
  exact apply_ite State.stack ..

@[simp] theorem afterDone_mem : (s.afterDone e h k).mem = s.mem := by
  unfold State.afterDone
  exact (apply_ite State.mem ..).trans (ite_self _)

/-- A completion with a callback leaves it to the client. -/
theorem afterDone_calls (hc : (s.reqAt h).complete = true) : (s.afterDone e h k).settled = true := by
  rw [State.settled, afterDone_stack, hc]
  rfl

theorem afterDone_settled (hs : s.settled = true) : (s.afterDone e h k).settled = true := by
  by_cases hc : (s.reqAt h).complete = true
  · exact afterDone_calls hc
  · exact settled_of_stack hs (afterDone_stack.trans (if_neg hc))

theorem afterWrite_settled (hs : s.settled = true) : (s.afterWrite e h).settled = true := by
  unfold State.afterWrite
  extract_lets bytes last t
  split
  · exact afterDone_settled (settled_of_stack hs rfl)
  · exact settled_of_stack hs rfl

theorem afterRead_settled (hs : s.settled = true) : (s.afterRead e h).settled = true := by
  unfold State.afterRead
  extract_lets cnt start room n finished t
  split
  · exact afterDone_settled (settled_of_stack hs rfl)
  · exact settled_of_stack hs rfl

theorem afterRead_mem : (s.afterRead e h).mem =
    (((s.hwAt e).fifo.take (min (s.hwAt e).cnt ((s.reqAt h).length.toNat - (s.reqAt h).transferred.toNat))).zipIdx).foldl
      (fun m c => m.write (bufAddr h ((s.reqAt h).transferred.toNat + c.2)) c.1) s.mem := by
  unfold State.afterRead
  extract_lets cnt start room n finished t
  split
  · rw [afterDone_mem]
  · rfl

/-! ## Completion -/

/-- Settles O45: `done` is `afterDone`, and nothing is due behind it. -/
theorem doneEffect : Obligations.DoneEffect := by
  intro e h k s hq _ _ hh
  show runToEnd (doneBody e h k s) = _
  rw [doneBody, if_pos hh, complete_eq]
  exact settle_settled (afterDone_settled hq.settled)

/-- Settles O46: a queue without callbacks is failed at once; a first request with one suspends the rest. -/
theorem nukeEffect : Obligations.NukeEffect := by
  intro e k s hq hs hsound
  refine ⟨fun hn => ?_, fun h hs' hqueue hc => ?_⟩
  · show settle (nuke e k s) = _
    rw [nuke_quiet e k hs hsound hn]
    exact settle_settled (settled_of_stack hq.settled rfl)
  · show settle (nuke e k s) = _
    have hh : h ∈ (s.epAt e).queue := by rw [hqueue]; exact List.mem_cons_self
    have suspended : nuke e k s = complete e h k (s.push [.nukeRest e k hs']) := by
      rw [nuke, hqueue, nukeFrom, if_pos hh, if_pos hc]
    rw [suspended, complete_eq]
    exact settle_settled (afterDone_calls hc)

/-! ## Bytes written to a buffer -/

/-- Consecutive bytes written to a buffer leave every other address. -/
theorem read_writes_other {a : Nat} (start : Nat) (bytes : List Byte) (k : Nat) (m : Memory)
    (ha : ∀ i, i < bytes.length → a ≠ bufAddr h (start + (k + i))) :
    ((bytes.zipIdx k).foldl (fun m c => m.write (bufAddr h (start + c.2)) c.1) m).read a = m.read a := by
  induction bytes generalizing k m with
  | nil => rfl
  | cons b bytes ih =>
    rw [List.zipIdx_cons, List.foldl_cons, ih (k + 1) _ fun i hi => ?_, Memory.read_write_ne]
    · exact ha 0 (by simp)
    · have := ha (i + 1) (by simpa using hi)
      rwa [show k + 1 + i = k + (i + 1) by omega]

theorem bufAddr_ne {i j : Nat} (hij : i ≠ j) : bufAddr h i ≠ bufAddr h j := by unfold bufAddr; omega

/-- Consecutive bytes written to a buffer are read back. -/
theorem read_writes (start : Nat) (bytes : List Byte) (k : Nat) (m : Memory) (hm : m.wf = true) (i : Nat)
    (hi : i < bytes.length) :
    bytes[i]? = some (((bytes.zipIdx k).foldl (fun m c => m.write (bufAddr h (start + c.2)) c.1) m).read
      (bufAddr h (start + (k + i)))) := by
  induction bytes generalizing k m i with
  | nil => simp at hi
  | cons b bytes ih =>
    rw [List.zipIdx_cons, List.foldl_cons]
    cases i with
    | zero =>
      rw [read_writes_other _ _ _ _ fun j _ => bufAddr_ne (by omega), Nat.add_zero, Memory.read_write_self _ _ hm]
      rfl
    | succ i =>
      rw [show k + (i + 1) = k + 1 + i by omega, List.getElem?_cons_succ]
      exact ih _ _ (Memory.write_wf _ _ hm) i (by simpa using hi)

/-! ## Packets -/

theorem wrfifoReady_iff : wrfifoReady e s = true ↔
    (s.csrAt e).ipr = false ∧ (s.hwAt e).fifo = [] ∧ 1 ≤ (s.epAt e).maxp.toNat ∧ (e = 0 → s.dev.ep0state = .inData) := by
  simp only [wrfifoReady, Bool.and_eq_true, Bool.not_eq_true', List.isEmpty_iff, decide_eq_true_eq, Bool.or_eq_true,
    bne_iff_ne, beq_iff_eq, and_assoc, ne_eq, imp_iff_not_or]

theorem rdfifoReady_iff : rdfifoReady e s = true ↔ (s.csrAt e).opr = true ∧ (e = 0 → s.dev.ep0state = .outData) := by
  simp only [rdfifoReady, Bool.and_eq_true, Bool.or_eq_true, bne_iff_ne, beq_iff_eq, ne_eq, imp_iff_not_or]

/-- One IN packet moved, where it can be and fits. -/
theorem wrfifoBody_moves (hs : s.Shaped) (hr : s.race = []) (hh : s.head e = some h) (ipr : (s.csrAt e).ipr = false)
    (fifo : (s.hwAt e).fifo = []) (maxp : 1 ≤ (s.epAt e).maxp.toNat) (phase : e = 0 → s.dev.ep0state = .inData)
    (fits : (s.nextPacket e h).length ≤ s.params.fifoSize e) : wrfifoBody e s = .next (s.afterWrite e h) :=
  wrfifo_quiet e h hs hr hh (wrfifoReady_iff.mpr ⟨ipr, fifo, maxp, phase⟩) (by rw [fifo]; simpa using fits)

theorem wrfifoBody_refused (hn : wrfifoReady e s ≠ true) : wrfifoBody e s = .refused .fifoPrecondition := by
  unfold wrfifoBody
  split
  · rfl
  · exact if_neg hn

theorem wrfifoBody_occupied (fifo : (s.hwAt e).fifo ≠ []) : wrfifoBody e s = .refused .fifoPrecondition :=
  wrfifoBody_refused fun ready => fifo (wrfifoReady_iff.mp ready).2.1

theorem rdfifoBody_refused (hn : rdfifoReady e s ≠ true) : rdfifoBody e s = .refused .fifoPrecondition := by
  unfold rdfifoBody
  split
  · rfl
  · exact if_neg hn

/-- Settles O43: the packet by the laws of the engine, the buffer by the laws of memory. -/
theorem wrfifoRdfifoEffect : Obligations.WrfifoRdfifoEffect := by
  intro e h s hq hs hh
  refine ⟨fun ipr maxp phase fifo fits => ?_, fun opr phase hc => ⟨?_, fun hm => ?_⟩⟩
  · show runToEnd (wrfifoBody e s) = _
    rw [wrfifoBody_moves hs hq.race hh ipr fifo maxp phase fits]
    exact settle_settled (afterWrite_settled hq.settled)
  · show runToEnd (rdfifoBody e s) = _
    rw [rdfifo_quiet e h hs hq.race hh opr phase hc]
    exact settle_settled (afterRead_settled hq.settled)
  · intro start n
    have len : ((s.hwAt e).fifo.take n).length = n := by
      rw [List.length_take, ← hc]; exact Nat.min_eq_left (Nat.min_le_left _ _)
    refine ⟨fun i hi => ?_, fun a ha => ?_⟩ <;> rw [afterRead_mem]
    · have := read_writes (h := h) start ((s.hwAt e).fifo.take n) 0 s.mem hm i (by rw [len]; exact hi)
      rwa [List.getElem?_take_of_lt hi, Nat.zero_add] at this
    · refine read_writes_other start _ 0 _ fun i hi => ?_
      rw [Nat.zero_add]
      exact ha i (len ▸ hi)

/-! ## The stops -/

/-- More bytes than FIFO[e] has room for are refused. -/
theorem fifoPushAll_overflow (bytes : List Byte) (hr : s.race = []) (hl : e.toNat < s.hw.length) (hb : bytes ≠ [])
    (hf : s.params.fifoSize e < (s.hwAt e).fifo.length + bytes.length) : fifoPushAll e bytes s = .refused .fifoFull := by
  induction bytes generalizing s with
  | nil => exact absurd rfl hb
  | cons b bytes ih =>
    rw [fifoPushAll, fifoPush, State.turn_nil hr]
    split
    next room =>
      rw [thenDo_next]
      rw [List.length_cons] at hf
      refine ih hr (by simpa using hl) (fun hn => ?_) ?_
      · subst hn; rw [List.length_nil] at hf; omega
      · rw [State.hwAt_setHw_self hl]
        simp only [State.setHw_params, List.length_append, List.length_singleton]
        omega
    · rfl

/-- A reply that does not fit FIFO[0] is refused. -/
theorem ep0Reply_overflow (bytes : List Byte) (hs : s.Shaped) (hr : s.race = []) (hb : bytes ≠ [])
    (hf : s.params.fifoSize 0 < (s.hwAt 0).released.fifo.length + bytes.length) :
    ep0Reply bytes s = .refused .fifoFull := by
  have hw := State.hwAt_setHw_self (s := { s with index := 0 }) (e := 0) (f := Hw.released) hs.hw_pos
  rw [ep0Reply, csrWrite_quiet _ _ hr (by simp), csrWrite_release,
    fifoPushAll_overflow bytes (by exact hr) (by simpa using hs.hw_pos) hb (by rw [hw]; exact hf), thenDo_refused]

theorem head_lt (hs : s.Shaped) (hh : s.head e = some h) : e.toNat < s.hw.length := by
  rw [hs.hw, ← hs.eps]
  by_contra hc
  have : s.epAt e = Ep.disabled e := by simp [State.epAt, Nat.not_lt.mp hc]
  simp [State.head, this, Ep.disabled] at hh

/-- Settles O44: each precondition by the test it fails, the full FIFO by the push that finds it full. -/
theorem preconditionsRefused : Obligations.PreconditionsRefused := by
  intro e h k s
  refine ⟨fun bad => ?_, fun bad => ?_, fun hh => ?_, fun b full => ?_, fun hq hs hh ipr fifo maxp phase long => ?_,
    fun hq hs d v x l => ?_⟩
  · show runToEnd (wrfifoBody e s) = _
    rcases bad with none | bad
    · rw [wrfifoBody, none]; rfl
    · rw [wrfifoBody_refused]; · rfl
      rw [ne_eq, wrfifoReady_iff]
      rintro ⟨ipr, fifo, maxp, phase⟩
      rcases bad with h1 | h1 | h1 | ⟨h0, h1⟩
      · simp [ipr] at h1
      · exact h1 fifo
      · simp [h1] at maxp
      · exact h1 (phase h0)
  · show runToEnd (rdfifoBody e s) = _
    rcases bad with none | bad
    · rw [rdfifoBody, none]; rfl
    · rw [rdfifoBody_refused]; · rfl
      rw [ne_eq, rdfifoReady_iff]
      rintro ⟨opr, phase⟩
      rcases bad with h1 | ⟨h0, h1⟩
      · simp [opr] at h1
      · exact h1 (phase h0)
  · show runToEnd (doneBody e h k s) = _
    rw [doneBody, if_neg hh]; rfl
  · rw [fifoPush]
    exact if_neg (by rw [turn_params]; omega)
  · show runToEnd (wrfifoBody e s) = _
    have nonempty : s.nextPacket e h ≠ [] := fun hn => by simp [hn] at long
    rw [wrfifoBody, hh]
    simp only [wrfifoReady_iff.mpr ⟨ipr, fifo, maxp, phase⟩, if_true]
    change runToEnd (thenDo (fifoPushAll e (s.nextPacket e h) s) _) = _
    rw [fifoPushAll_overflow _ hq.race (head_lt hs hh) nonempty (by rw [fifo]; simpa using long)]
    rfl
  · intro n used
    have reply : ∀ bytes : List Byte, bytes ≠ [] → s.params.fifoSize 0 < used + bytes.length →
        runToEnd (ep0Reply bytes s) = .refused .fifoFull := fun bytes hb hf => by
      rw [ep0Reply_overflow bytes hs hq.race hb hf]; rfl
    refine ⟨fun long => reply _ (by simp [deviceStatus]) long, fun long => reply _ (by simp) long, fun hv he long => ?_⟩
    show runToEnd (if s.badTarget n then .next (ep0Stall s) else ep0Reply (endpointStatus (s.epAt n)) s) = _
    rw [if_neg (by simp [not_badTarget hv he])]
    exact reply _ (by simp [endpointStatus]) long

end Sys2Proof.Machine
end

section
/-! Requests in the queue (42_endpoint_ops.md R131 to R134; 40_fifo_engine.md R98): EPQUEUE, EPDEQ, SERVICE and EPNH with
nothing interleaved. -/

namespace Sys2Proof.Machine

variable {s : State} {e : EpNum} {h : Handle} {k : Kind}

/-! ## Serving the head request -/

/-- INDEX is no part of the shape. -/
theorem State.Shaped.index (hs : s.Shaped) (i : EpNum) : ({ s with index := i } : State).Shaped :=
  ⟨hs.params, hs.eps, hs.hw, hs.reqs, hs.num⟩

theorem serviceBody_none (hh : s.head e = none) : serviceBody e s = .next s := by
  rw [serviceBody, hh]

/-- The head request is served by direction, after INDEX is written. -/
theorem serviceBody_some (hr : s.race = []) (hh : s.head e = some h) :
    serviceBody e s = match (s.epAt e).dir with
      | .inward => if (s.csrAt e).ipr then .next { s with index := e } else wrfifoBody e { s with index := e }
      | .out => if (s.csrAt e).opr then rdfifoBody e { s with index := e } else .next { s with index := e } := by
  rw [serviceBody, hh]
  simp only [State.select_nil e hr]
  rfl

section
variable (hr : s.race = []) (hh : s.head e = some h)
include hr hh

theorem serviceBody_in_waits (hd : (s.epAt e).dir = .inward) (ipr : (s.csrAt e).ipr = true) :
    serviceBody e s = .next { s with index := e } := by
  rw [serviceBody_some hr hh, hd]; exact if_pos ipr

theorem serviceBody_in_moves (hs : s.Shaped) (he : e ≠ 0) (hd : (s.epAt e).dir = .inward) (ipr : (s.csrAt e).ipr = false)
    (maxp : 1 ≤ (s.epAt e).maxp.toNat) (fifo : (s.hwAt e).fifo = [])
    (fits : (s.nextPacket e h).length ≤ s.params.fifoSize e) : serviceBody e s = .next (s.afterWrite e h) := by
  rw [serviceBody_some hr hh, hd]
  refine (if_neg (by simp [ipr])).trans ?_
  exact wrfifoBody_moves (s := { s with index := e }) (hs.index e) hr hh ipr fifo maxp (fun h0 => absurd h0 he) fits

theorem serviceBody_in_occupied (hd : (s.epAt e).dir = .inward) (ipr : (s.csrAt e).ipr = false)
    (fifo : (s.hwAt e).fifo ≠ []) : serviceBody e s = .refused .fifoPrecondition := by
  rw [serviceBody_some hr hh, hd]
  exact (if_neg (by simp [ipr])).trans (wrfifoBody_occupied (s := { s with index := e }) fifo)

theorem serviceBody_out_waits (hd : (s.epAt e).dir = .out) (opr : (s.csrAt e).opr = false) :
    serviceBody e s = .next { s with index := e } := by
  rw [serviceBody_some hr hh, hd]; exact if_neg (by simp [opr])

theorem serviceBody_out_moves (hs : s.Shaped) (he : e ≠ 0) (hd : (s.epAt e).dir = .out) (opr : (s.csrAt e).opr = true)
    (hc : (s.hwAt e).cnt = (s.hwAt e).fifo.length) : serviceBody e s = .next (s.afterRead e h) := by
  rw [serviceBody_some hr hh, hd]
  refine (if_pos opr).trans ?_
  exact rdfifo_quiet (s := { s with index := e }) e h (hs.index e) hr hh opr (fun h0 => absurd h0 he) hc

end

/-- A written SENT_STALL 0, alone. -/
theorem csrWrite_sentStall (ep0 : Bool) : Hw.csrWrite ep0 { sentStall := some false } =
    fun w => { w with csr := { w.csr with sentStall := false } } := by
  funext w
  simp [Hw.csrWrite, Hw.discards]

/-- EPNH serves the head with INDEX written and SENT_STALL cleared. -/
theorem epnhBody_quiet (hr : s.race = []) : epnhBody e s = serviceBody e { s with
    index := e, hw := s.hw.modify e.toNat fun w => { w with csr := { w.csr with sentStall := false } } } := by
  rw [epnhBody, State.select_nil e hr]
  simp only
  congr 1
  by_cases hc : (s.csrAt e).sentStall = true
  · rw [if_pos (show (({ s with index := e } : State).csrAt e).sentStall = true from hc),
      csrWrite_quiet _ _ (by exact hr) (by simp), csrWrite_sentStall]
    rfl
  · rw [if_neg (show ¬(({ s with index := e } : State).csrAt e).sentStall = true from hc)]
    have same : s.hw.modify e.toNat (fun w => { w with csr := { w.csr with sentStall := false } }) =
        s.hw.modify e.toNat id := modify_hw_congr (by
      rw [State.csrAt] at hc
      rcases hw : s.hwAt e with ⟨m, ⟨o, i, ss, d, se, st⟩, c, f, t⟩
      rw [hw] at hc
      simp at hc
      simp [hc])
    rw [same, List.modify_id]

/-- Settles O51: by direction and readiness; EPNH is SERVICE after INDEX and SENT_STALL are written. -/
theorem serviceEpnhEffect : Obligations.ServiceEpnhEffect := by
  intro e s hq hs he
  have run : ∀ {r : Res} {t : State}, r = .next t → t.settled = true → runToEnd r = .next t := by
    rintro _ t rfl ht; exact settle_settled ht
  have quiet : ({ s with index := e } : State).settled = true := hq.settled
  refine ⟨fun hh => run (serviceBody_none hh) hq.settled,
    fun h hh hd ipr => run (serviceBody_in_waits hq.race hh hd ipr) quiet,
    fun h hh hd ipr maxp fifo fits => run (serviceBody_in_moves hq.race hh hs he hd ipr maxp fifo fits)
      (afterWrite_settled hq.settled), fun h hh hd ipr fifo => ?_,
    fun h hh hd opr => run (serviceBody_out_waits hq.race hh hd opr) quiet,
    fun h hh hd opr hc => run (serviceBody_out_moves hq.race hh hs he hd opr hc) (afterRead_settled hq.settled), ?_⟩
  · show runToEnd (serviceBody e s) = _
    rw [serviceBody_in_occupied hq.race hh hd ipr fifo]; rfl
  · intro t
    have epnh : exec (.epnh e) s = runToEnd (serviceBody e t) := congrArg runToEnd (epnhBody_quiet hq.race)
    refine ⟨fun hh => ?_, epnh⟩
    rw [epnh, serviceBody_none (by exact hh)]
    exact settle_settled (settled_of_stack hq.settled rfl)

/-! ## Dequeueing -/

/-- A completion without a callback. -/
theorem afterDone_silent (hc : (s.reqAt h).complete = false) : s.afterDone e h k = { s with
    eps := s.eps.modify e.toNat fun p => { p with queue := p.queue.erase h }
    reqs := s.reqs.modify h.toNat fun r =>
      { r with status := if (s.reqAt h).status = .inProgress then .finished k else (s.reqAt h).status, ep := none }
    doneLog := s.doneLog ++ [(h, if (s.reqAt h).status = .inProgress then .finished k else (s.reqAt h).status,
      (s.reqAt h).transferred)] } := if_neg (by simp [hc])

/-- Settles O27: by membership in the queue, then by the callback. -/
theorem epdeqEffect : Obligations.EpdeqEffect := by
  intro e h s hq _ he hh ha
  have body : exec (.epdeq e h) s = runToEnd (if h ∈ (s.epAt e).queue then
      .next (complete e h .aborted (s.push [.ret 0])) else s.raise .invalidArgument) := by
    show runToEnd (epdeqBody e h s) = _
    simp only [epdeqBody, validEp_iff.mpr he, validReq_of hh ha, Bool.not_true, Bool.or_false, Bool.false_eq_true, if_false]
  refine ⟨fun hn => ?_, fun hm hc => ?_, fun hm hc => ?_⟩
  · rw [body, if_neg hn]
    exact runToEnd_raise hq.settled .invalidArgument
  · rw [body, if_pos hm, complete_eq, afterDone_silent (by exact hc), afterDone_silent hc]
    refine (settle_ret (fs := s.stack) rfl).trans ?_
    exact settle_settled (settled_of_stack hq.settled rfl)
  · rw [body, if_pos hm, complete_eq]
    exact settle_settled (afterDone_calls hc)

/-! ## Queueing -/

/-- The checks of `queue`, in order (R131). -/
theorem epqueueBody_valid (he : e.toNat < s.params.numEp) (hh : h.toNat < s.params.numReq)
    (ha : (s.reqAt h).allocated = true) : epqueueBody e h s =
      if (s.reqAt h).status = .inProgress then s.raise .invalidArgument
      else if s.dev.driver = none ∨ e ≠ 0 ∧ (s.epAt e).enabled = false then s.raise .notReady
      else if (s.epAt e).queue = [] then
        (if e = 0 then ep0Kick h (enqueue e h (s.push [.ret 0])) else serviceBody e (enqueue e h (s.push [.ret 0])))
      else .next (enqueue e h (s.push [.ret 0])) := by
  simp only [epqueueBody, validEp_iff.mpr he, validReq_of hh ha, Bool.not_true, Bool.or_false, Bool.false_eq_true, if_false,
    beq_iff_eq, List.isEmpty_iff, Bool.and_eq_true, bne_iff_ne, Bool.not_eq_true']
  by_cases hp : (s.reqAt h).status = .inProgress
  · rw [if_pos hp, if_pos hp]
  rw [if_neg hp, if_neg hp]
  by_cases hd : s.dev.driver = none
  · rw [if_pos hd, if_pos (.inl hd)]
  · rw [if_neg hd]
    simp only [hd, false_or]

theorem ready_to_queue (hd : s.dev.driver ≠ none) (hen : e = 0 ∨ (s.epAt e).enabled = true) :
    ¬(s.dev.driver = none ∨ e ≠ 0 ∧ (s.epAt e).enabled = false) := by
  rintro (hn | ⟨h0, hdis⟩)
  · exact hd hn
  · rcases hen with hz | hen
    · exact h0 hz
    · simp [hdis] at hen

/-- Settles O24: the checks in order. -/
theorem epqueueEffect : Obligations.EpqueueEffect := by
  intro e h s hq he hh ha
  have body : exec (.epqueue e h) s = _ := congrArg runToEnd (epqueueBody_valid he hh ha)
  refine ⟨fun hp => ?_, fun hp hd => ?_, fun hp h0 hen => ?_, fun hp hd hen hqueue => ?_⟩ <;> rw [body]
  · rw [if_pos hp]; exact runToEnd_raise hq.settled _
  · rw [if_neg hp, if_pos (.inl hd)]; exact runToEnd_raise hq.settled _
  · rw [if_neg hp, if_pos (.inr ⟨h0, hen⟩)]; exact runToEnd_raise hq.settled _
  · rw [if_neg hp, if_neg (ready_to_queue hd hen), if_neg hqueue]
    refine (settle_ret (fs := s.stack) rfl).trans ?_
    exact settle_settled (settled_of_stack hq.settled rfl)

/-- EPQUEUE of a request that can be queued at once: what is true before, and of the state `u` in which it is the head. -/
structure Queueing (e : EpNum) (h : Handle) (s u : State) : Prop where
  quiet : s.Quiet
  enqueued : u = { s.afterEnqueue e h with stack := .ret 0 :: s.stack }
  shaped : u.Shaped
  ep : u.epAt e = { s.epAt e with queue := [h] }
  req : u.reqAt h = { s.reqAt h with transferred := 0, status := .inProgress, ep := some e }
  runs : exec (.epqueue e h) s = runToEnd (if e = 0 then ep0Kick h u else serviceBody e u)

theorem queueing (hq : s.Quiet) (hs : s.Shaped) (he : e.toNat < s.params.numEp) (hh : h.toNat < s.params.numReq)
    (ha : (s.reqAt h).allocated = true) (hp : (s.reqAt h).status ≠ .inProgress) (hd : s.dev.driver ≠ none)
    (hen : e = 0 ∨ (s.epAt e).enabled = true) (hqueue : (s.epAt e).queue = []) :
    Queueing e h s { s.afterEnqueue e h with stack := .ret 0 :: s.stack } where
  quiet := hq
  enqueued := rfl
  shaped := by
    have := (Move.enqueue s e h (validEp_iff.mpr he) (validReq_of hh ha) hp).shaped hs
    exact ⟨this.params, this.eps, this.hw, this.reqs, this.num⟩
  ep := by
    refine (State.epAt_setEp_self (s := s) (f := fun p => { p with queue := p.queue ++ [h] })
      (by rw [hs.eps]; exact he)).trans ?_
    rw [hqueue]; rfl
  req := State.reqAt_setReq_self (s := s) (f := ({ · with transferred := 0, status := .inProgress, ep := some e }))
    (by rw [hs.reqs]; exact hh)
  runs := by
    refine (congrArg runToEnd (epqueueBody_valid he hh ha)).trans ?_
    rw [if_neg hp, if_neg (ready_to_queue hd hen), if_pos hqueue]
    rfl

namespace Queueing

variable {u : State} (q : Queueing e h s u)
include q

theorem race : u.race = [] := by rw [q.enqueued]; exact q.quiet.race

theorem head : u.head e = some h := by rw [State.head, q.ep]; rfl

theorem csr (e' : EpNum) : u.csrAt e' = s.csrAt e' := by rw [q.enqueued]; rfl

/-- With nothing more to do only the result is due. -/
theorem waits (i : EpNum) : settle { u with index := i } = .next { s.afterEnqueue e h with index := i, cmdResult := 0 } := by
  refine (settle_ret (fs := s.stack) (v := 0) (by rw [q.enqueued])).trans ?_
  rw [q.enqueued]
  exact settle_settled (settled_of_stack q.quiet.settled rfl)

end Queueing

/-- Settles O25: the request is the head, so the endpoint is served. -/
theorem epqueueServesTheHead : Obligations.EpqueueServesTheHead := by
  intro e h s hq hs he hh ha hp hd h0 hen hqueue maxp t
  have q : Queueing e h s t := queueing hq hs he hh ha hp hd (.inr hen) hqueue
  have runs : exec (.epqueue e h) s = runToEnd (serviceBody e t) := by rw [q.runs, if_neg h0]
  have maxp' : 1 ≤ (t.epAt e).maxp.toNat := by rw [q.ep]; exact maxp
  have dir : (t.epAt e).dir = (s.epAt e).dir := by rw [q.ep]
  refine ⟨fun hdir ipr fifo fits => ?_, fun hdir ipr fifo => ?_, fun hdir opr hc => ?_, fun wait => ?_⟩ <;> rw [runs]
  · rw [serviceBody_in_moves q.race q.head q.shaped h0 (dir.trans hdir) ipr maxp' fifo fits]; rfl
  · rw [serviceBody_in_occupied q.race q.head (dir.trans hdir) ipr fifo]; rfl
  · rw [serviceBody_out_moves q.race q.head q.shaped h0 (dir.trans hdir) opr hc]; rfl
  · rcases wait with ⟨hdir, ipr⟩ | ⟨hdir, opr⟩
    · rw [serviceBody_in_waits q.race q.head (dir.trans hdir) ipr]; exact q.waits e
    · rw [serviceBody_out_waits q.race q.head (dir.trans hdir) opr]; exact q.waits e

/-! ## Starting an EP0 request (41_ep0_control.md R123, R124) -/

theorem ep0Kick_in (hr : s.race = []) (st : s.dev.ep0state = .inData) : ep0Kick h s =
    if (s.csrAt 0).ipr then .next { s with index := 0 } else wrfifoBody 0 { s with index := 0 } := by
  simp only [ep0Kick, st, State.select_nil 0 hr]
  rfl

theorem ep0Kick_out (hr : s.race = []) (st : s.dev.ep0state = .outData) : ep0Kick h s =
    if (s.reqAt h).length = 0 then .next (zeroOut h s)
    else if (s.csrAt 0).opr then rdfifoBody 0 { s with index := 0 } else .next { s with index := 0 } := by
  simp only [ep0Kick, st, State.select_nil 0 hr, beq_iff_eq]
  rfl

theorem ep0Kick_other (hin : s.dev.ep0state ≠ .inData) (hout : s.dev.ep0state ≠ .outData) :
    ep0Kick h s = if (s.reqAt h).length = 0 then .next (complete 0 h .ok s) else .next s := by
  unfold ep0Kick
  simp only [beq_iff_eq]
  split
  · exact absurd ‹_› hin
  · exact absurd ‹_› hout
  all_goals rfl

/-- A written DATA_END 1 on EP0, alone. -/
theorem csrWrite_dataEnd :
    Hw.csrWrite true { dataEnd := some true } = fun w => { w with csr := { w.csr with dataEnd := true } } := by
  funext w
  simp [Hw.csrWrite, Hw.discards]

theorem zeroOut_quiet (hr : s.race = []) : zeroOut h s = ({ s with
    index := 0
    dev := { s.dev with ep0state := .idle }
    hw := s.hw.modify 0 fun w => { w with csr := { w.csr with dataEnd := true } } } : State).afterDone 0 h .ok := by
  rw [zeroOut, complete_eq, csrWrite_quiet _ _ hr (by simp)]
  show State.afterDone 0 h .ok (State.setEp0State .idle (State.setHw 0 (Hw.csrWrite true _) _)) = _
  rw [csrWrite_dataEnd]
  rfl

/-- Settles O26: the request is the head, so EP0 is kicked, by its state. -/
theorem epqueueKicksEp0 : Obligations.EpqueueKicksEp0 := by
  intro h s hq hs hh ha hp hd hqueue maxp t idle
  have he : (0 : EpNum).toNat < s.params.numEp := by rw [← hs.hw]; exact hs.hw_pos
  have q : Queueing 0 h s t := queueing hq hs he hh ha hp hd (.inl rfl) hqueue
  have runs : exec (.epqueue 0 h) s = runToEnd (ep0Kick h t) := by rw [q.runs, if_pos rfl]
  have maxp' : 1 ≤ (t.epAt 0).maxp.toNat := by rw [q.ep]; exact maxp
  have length : (t.reqAt h).length = (s.reqAt h).length := by rw [q.req]
  refine ⟨fun st ipr fifo fits => ?_, fun st ipr fifo => ?_, fun st ipr => ?_, fun st len => ?_, fun st len opr hc => ?_,
    fun st len opr => ?_, fun hin hout len => ?_, fun hin hout len => ?_⟩ <;> rw [runs]
  · rw [ep0Kick_in q.race st, if_neg (by rw [q.csr, ipr]; simp)]
    rw [wrfifoBody_moves (s := { t with index := 0 }) (q.shaped.index 0) q.race q.head ipr fifo maxp' (fun _ => st) fits]
    rfl
  · rw [ep0Kick_in q.race st, if_neg (by rw [q.csr, ipr]; simp), wrfifoBody_occupied (by exact fifo)]
    rfl
  · rw [ep0Kick_in q.race st, if_pos (by rw [q.csr, ipr])]
    exact q.waits 0
  · rw [ep0Kick_out q.race st, if_pos (by rw [length, len]), zeroOut_quiet q.race]
    rfl
  · rw [ep0Kick_out q.race st, if_neg (by rw [length]; exact len), if_pos (by rw [q.csr, opr])]
    rw [rdfifo_quiet (s := { t with index := 0 }) 0 h (q.shaped.index 0) q.race q.head opr (fun _ => st) hc]
    rfl
  · rw [ep0Kick_out q.race st, if_neg (by rw [length]; exact len), if_neg (by rw [q.csr, opr]; simp)]
    exact q.waits 0
  · rw [ep0Kick_other (s := t) hin hout, if_pos (by rw [length, len]), complete_eq]
    rfl
  · rw [ep0Kick_other (s := t) hin hout, if_neg (by rw [length]; exact len)]
    exact q.waits s.index

end Sys2Proof.Machine
end

section
/-! The EP0 machine (41_ep0_control.md R100 to R105, R118 to R125) with nothing interleaved: what EP0H does. -/

namespace Sys2Proof.Machine

variable {s t : State} {e : EpNum} {k : Kind}

/-! ## The queue failed in a state that has the records of another -/

/-- `t` has the records of `s`. -/
structure State.SameRecords (s t : State) : Prop where
  params : t.params = s.params
  eps : t.eps = s.eps
  reqs : t.reqs = s.reqs
  hw : t.hw.length = s.hw.length

namespace State.SameRecords

variable (same : s.SameRecords t)
include same

theorem epAt (e : EpNum) : t.epAt e = s.epAt e := by rw [State.epAt, State.epAt, same.eps]

theorem reqAt (h : Handle) : t.reqAt h = s.reqAt h := by rw [State.reqAt, State.reqAt, same.reqs]

theorem shaped (hs : s.Shaped) : t.Shaped where
  params := same.params ▸ hs.params
  eps := by rw [same.eps, same.params]; exact hs.eps
  hw := by rw [same.hw, same.params]; exact hs.hw
  reqs := by rw [same.reqs, same.params]; exact hs.reqs
  num e := by rw [same.epAt]; exact hs.num e

theorem queues (hq : s.QueuesSound) : t.QueuesSound :=
  sound_of_same same.params (fun e => by rw [same.epAt]) (fun h => by rw [same.reqAt]; exact ⟨rfl, rfl, fun _ => rfl⟩) hq

theorem noCallbacks (hn : s.NoCallbacks e) : t.NoCallbacks e := by
  intro h hh
  rw [same.reqAt]
  exact hn h (same.epAt e ▸ hh)

theorem nuke (hs : s.Shaped) (hq : s.QueuesSound) (hn : s.NoCallbacks e) : nuke e k t = t.afterNuke e k :=
  nuke_quiet e k (same.shaped hs) (same.queues hq) (same.noCallbacks hn)

end State.SameRecords

theorem nuke_empty (hqueue : (s.epAt e).queue = []) : nuke e k s = s := by
  rw [nuke, hqueue]; rfl

theorem afterNuke_queue : ((s.afterNuke e k).epAt e).queue = [] := by
  by_cases hl : e.toNat < s.eps.length
  · exact congrArg Ep.queue (State.epAt_setEp_self (s := s) (f := fun p => { p with queue := [] }) hl)
  · simp [State.epAt, State.afterNuke, hl, Ep.disabled]

/-! ## Writes of CSR[0] -/

theorem setHw_same {f : Hw → Hw} (hf : f (s.hwAt e) = s.hwAt e) : s.hw.modify e.toNat f = s.hw := by
  rw [modify_hw_congr (g := id) hf, List.modify_id]

/-- Clearing SENT_STALL and SEND_STALL. -/
theorem csrWrite_stalls (hr : s.race = []) : csrWrite 0 { sentStall := some false, sendStall := some false } s =
    { s with
      index := 0
      hw := s.hw.modify 0 fun w => { w with csr := { w.csr with sentStall := false, sendStall := false } } } := by
  rw [csrWrite_quiet _ _ hr (by simp), State.setHw]
  congr 2
  funext w
  simp [Hw.csrWrite, Hw.discards]

/-- Clearing a SETUP_END that is 1 raises EP_EVT[0] again while a packet waits (10_state.md R41). -/
theorem csrWrite_setupEnd (hr : s.race = []) (hset : (s.csrAt 0).setupEnd = true) :
    csrWrite 0 { setupEnd := some false } s =
      { s with
        index := 0
        hw := s.hw.modify 0 fun w => { w with csr := { w.csr with setupEnd := false } }
        epEvt := if (s.csrAt 0).opr then s.epEvt ||| 1#8 else s.epEvt } := by
  have raises : (({ s with index := 0 } : State).hwAt 0).reraises { setupEnd := some false } = (s.csrAt 0).opr := by
    have written : (s.hwAt 0).reraises { setupEnd := some false } = ((s.csrAt 0).setupEnd && (s.csrAt 0).opr) := by
      simp [Hw.reraises, Hw.csrWrite, Hw.discards, State.csrAt]
    exact written.trans (by rw [hset, Bool.true_and])
  rw [csrWrite_nil _ _ hr, State.applyCsr_eq, raises]
  simp only [BEq.rfl, Bool.true_and]
  congr 1
  congr 1
  funext w
  simp [Hw.csrWrite, Hw.discards]

/-! ## Pending work of EP0H -/

theorem settle_ep0Idle {fs : List Frame} (hst : s.stack = .ep0Idle :: fs) :
    settle s = settle { s with stack := fs, dev := { s.dev with ep0state := .idle } } := by
  rw [settle_cons hst rfl]; rfl

/-- The bytes of a setup packet are popped in order. -/
theorem fifoPopAll_quiet (b rest : List Byte) (hr : s.race = []) (hl : e.toNat < s.hw.length)
    (hf : (s.hwAt e).fifo = b ++ rest) :
    fifoPopAll e b.length s = (b, s.setHw e fun w => { w with fifo := rest }) := by
  induction b generalizing s with
  | nil =>
    rw [State.setHw, setHw_same (by rw [show rest = (s.hwAt e).fifo from hf.symm])]
    rfl
  | cons x b ih =>
    have pop : fifoPop e s = (x, s.setHw e fun w => { w with fifo := b ++ rest }) := by
      unfold fifoPop
      simp only [State.turn_nil hr, hf, List.cons_append]
    rw [List.length_cons, fifoPopAll]
    simp only [pop]
    rw [ih (s := s.setHw e fun w => { w with fifo := b ++ rest }) hr (by simpa using hl) (by rw [State.hwAt_setHw_self hl]),
      State.setHw_setHw]
    rfl

/-- The operation a setup word decodes to is the handler of its request. -/
theorem exec_decodeSetup (w : Word) : exec (decodeSetup w) s = runToEnd (runRequest (decodeSetup w) s) := by
  unfold decodeSetup
  simp only
  split <;> rfl

section
variable {fs : List Frame} (hst : s.stack = .ep0ReadSetup :: fs) (hr : s.race = [])
include hst hr

/-- A setup packet of fewer than eight bytes is stalled (R105). -/
theorem settle_readSetup_short (hfs : ({ s with stack := fs } : State).settled = true) (hc : (s.hwAt 0).cnt < 8) :
    settle s = .next ({ s with stack := fs } : State).afterEp0Stall := by
  rw [settle_cons hst rfl]
  show settle (ep0ReadSetup { s with stack := fs }) = _
  rw [ep0ReadSetup, State.select_nil 0 (by exact hr)]
  simp only
  rw [if_pos (by exact hc), ep0Stall_quiet (by exact hr)]
  exact settle_settled hfs

/-- A setup packet of eight bytes or more is read and executed (R104). -/
theorem settle_readSetup {b rest : List Byte} {i : Instr} (hl : 0 < s.hw.length) (hc : 8 ≤ (s.hwAt 0).cnt)
    (hb : b.length = 8) (hf : (s.hwAt 0).fifo = b ++ rest) (hi : decode .setup b = .ok (i, [])) :
    settle s = exec i { s with
      stack := fs, index := 0, hw := s.hw.modify 0 fun w => { w with fifo := rest } } := by
  have pops := fifoPopAll_quiet (s := { s with stack := fs, index := 0 }) (e := 0) b rest hr hl hf
  rw [settle_cons hst rfl]
  show settle (ep0ReadSetup { s with stack := fs }) = _
  rw [ep0ReadSetup, State.select_nil 0 (by exact hr)]
  simp only
  rw [if_neg (by exact Nat.not_lt.mpr hc), ← hb, pops, ← decode_setup_eq hi, exec_decodeSetup]
  exact settle_cons (f := .setup b) rfl rfl

end

/-! ## EP0H -/

/-- EP0H that sees neither stall nor setup-end acts on the state. -/
theorem exec_ep0h_switch (hr : s.race = []) (hss : (s.csrAt 0).sentStall = false) (hse : (s.csrAt 0).setupEnd = false) :
    exec .ep0h s = runToEnd (ep0Switch (s.csrAt 0) { s with index := 0 }) := by
  show runToEnd (ep0hBody s) = _
  rw [ep0hBody, State.select_nil 0 hr]
  change runToEnd (if (s.csrAt 0).sentStall then _ else ep0AfterStallTest (s.csrAt 0) _) = _
  rw [if_neg (ne_true_of_eq_false hss), ep0AfterStallTest, if_neg (ne_true_of_eq_false hse)]

section
variable {c : Csr}

theorem ep0Switch_in_moves {h : Handle} (st : s.dev.ep0state = .inData) (hh : s.head 0 = some h) (ipr : c.ipr = false) :
    ep0Switch c s = wrfifoBody 0 s := by
  rw [ep0Switch]
  simp only [st, hh, ipr]
  rfl

theorem ep0Switch_in_waits (st : s.dev.ep0state = .inData) (none : s.head 0 = none ∨ c.ipr = true) :
    ep0Switch c s = .next s := by
  rw [ep0Switch]
  rcases none with hn | ipr
  · simp only [st, hn]; rfl
  · simp only [st, ipr, Bool.not_true, Bool.and_false]; rfl

theorem ep0Switch_out_moves {h : Handle} (st : s.dev.ep0state = .outData) (hh : s.head 0 = some h) (opr : c.opr = true) :
    ep0Switch c s = rdfifoBody 0 s := by
  rw [ep0Switch]
  simp only [st, hh, opr]
  rfl

theorem ep0Switch_out_waits (st : s.dev.ep0state = .outData) (none : s.head 0 = none ∨ c.opr = false) :
    ep0Switch c s = .next s := by
  rw [ep0Switch]
  rcases none with hn | opr
  · simp only [st, hn]; rfl
  · simp only [st, opr, Bool.and_false]; rfl

theorem ep0Switch_idle (st : s.dev.ep0state = .idle) :
    ep0Switch c s = if c.opr then .next (ep0Setup s) else .next s := by
  rw [ep0Switch]
  simp only [st]

end

/-- Settles O47: by the EP0 state and what is ready. -/
theorem ep0hDataPhases : Obligations.Ep0hDataPhases := by
  intro s hq hs hss hse
  have quiet : ({ s with index := 0 } : State).settled = true := hq.settled
  have shaped := hs.index 0
  refine ⟨fun st opr => ?_, fun h st hh ipr maxp fifo fits => ?_, fun h st hh ipr fifo => ?_, fun st none => ?_,
    fun h st hh opr hc => ?_, fun st none => ?_, fun st => ?_⟩ <;> rw [exec_ep0h_switch hq.race hss hse]
  · rw [ep0Switch_idle (by exact st), if_neg (ne_true_of_eq_false opr)]
    exact settle_settled quiet
  · rw [ep0Switch_in_moves (by exact st) (by exact hh) ipr,
      wrfifoBody_moves (s := { s with index := 0 }) shaped hq.race hh ipr fifo maxp (fun _ => st) fits]
    exact settle_settled (afterWrite_settled hq.settled)
  · rw [ep0Switch_in_moves (by exact st) (by exact hh) ipr, wrfifoBody_occupied (by exact fifo)]
    rfl
  · rw [ep0Switch_in_waits (by exact st) (by exact none)]
    exact settle_settled quiet
  · rw [ep0Switch_out_moves (by exact st) (by exact hh) opr,
      rdfifo_quiet (s := { s with index := 0 }) 0 h shaped hq.race hh opr (fun _ => st) hc]
    exact settle_settled (afterRead_settled hq.settled)
  · rw [ep0Switch_out_waits (by exact st) (by exact none)]
    exact settle_settled quiet
  · rw [ep0Switch]
    rcases st with st | st | st <;> simp only [st] <;> exact settle_settled quiet

/-- Settles O48: the write of SETUP_END, the queue failed, then idle. -/
theorem ep0hSetupEnd : Obligations.Ep0hSetupEnd := by
  intro s hq hs hsound hn hss hse t
  show runToEnd (ep0hBody s) = _
  rw [ep0hBody, State.select_nil 0 hq.race]
  change runToEnd (if (s.csrAt 0).sentStall then _ else ep0AfterStallTest (s.csrAt 0) _) = _
  rw [if_neg (ne_true_of_eq_false hss), ep0AfterStallTest, if_pos hse, csrWrite_setupEnd (by exact hq.race) (by exact hse),
    State.SameRecords.nuke (s := s) (by exact ⟨rfl, rfl, rfl, List.length_modify ..⟩) hs hsound hn]
  refine (settle_ep0Idle (fs := s.stack) rfl).trans ?_
  exact settle_settled (settled_of_stack hq.settled rfl)

/-- Settles O50: the queue failed, then the packet read, or stalled where it is short. -/
theorem ep0hSetupPacket : Obligations.Ep0hSetupPacket := by
  intro s b rest i hq hs hsound hn hss hse opr st t
  have same : s.SameRecords (({ s with index := 0 } : State).push [.ep0ReadSetup]) := ⟨rfl, rfl, rfl, rfl⟩
  have setup : exec .ep0h s = settle ((({ s with index := 0 } : State).push [.ep0ReadSetup]).afterNuke 0 .aborted) := by
    rw [exec_ep0h_switch hq.race hss hse, ep0Switch_idle (by exact st), if_pos opr, ep0Setup, same.nuke hs hsound hn]
    rfl
  rw [setup]
  refine ⟨fun hc => ?_, fun hc hb hf hi => ?_⟩
  · exact settle_readSetup_short (fs := s.stack) rfl hq.race (settled_of_stack hq.settled rfl) hc
  · exact settle_readSetup (s := (State.push [.ep0ReadSetup] { s with index := 0 }).afterNuke 0 .aborted) (fs := s.stack)
      rfl hq.race hs.hw_pos hc hb hf hi

/-- The state in which EP0H tests setup-end after it has seen sent-stall. -/
def State.afterSentStall (s : State) : State :=
  { s.afterNuke 0 .stalled with
    index := 0
    hw := s.hw.modify 0 fun w => { w with csr := { w.csr with sentStall := false, sendStall := false } }
    dev := { s.dev with ep0state := .idle } }

/-- EP0H that sees sent-stall goes on from `afterSentStall`. -/
theorem exec_ep0h_sentStall (hq : s.Quiet) (hs : s.Shaped) (hsound : s.QueuesSound) (hn : s.NoCallbacks 0)
    (hss : (s.csrAt 0).sentStall = true) :
    exec .ep0h s = runToEnd (ep0AfterStallTest (s.csrAt 0) s.afterSentStall) := by
  show runToEnd (ep0hBody s) = _
  rw [ep0hBody, State.select_nil 0 hq.race]
  change runToEnd (if (s.csrAt 0).sentStall then _ else _) = _
  rw [if_pos hss, csrWrite_stalls (by exact hq.race),
    State.SameRecords.nuke (s := s) (by exact ⟨rfl, rfl, rfl, List.length_modify ..⟩) hs hsound hn]
  exact settle_cons (f := .ep0AfterStall (s.csrAt 0)) rfl rfl

theorem afterSentStall_hwAt (hs : s.Shaped) : s.afterSentStall.hwAt 0 =
    { s.hwAt 0 with csr := { (s.hwAt 0).csr with sentStall := false, sendStall := false } } :=
  State.hwAt_setHw_self (s := s) (e := 0)
    (f := fun w => { w with csr := { w.csr with sentStall := false, sendStall := false } }) hs.hw_pos

/-- Settles O49: EP0H goes on from `afterSentStall`, in the idle state with an empty queue. -/
theorem ep0hSentStall : Obligations.Ep0hSentStall := by
  intro s b rest i hq hs hsound hn hss t
  have empty : (s.afterSentStall.epAt 0).queue = [] := afterNuke_queue (s := s) (k := .stalled)
  have race : s.afterSentStall.race = [] := hq.race
  have csr : s.afterSentStall.csrAt 0 = { s.csrAt 0 with sentStall := false, sendStall := false } :=
    congrArg Hw.csr (afterSentStall_hwAt hs)
  have quiet : t.settled = true := settled_of_stack hq.settled rfl
  have hw : t.hwAt 0 = { s.hwAt 0 with
      csr := { (s.hwAt 0).csr with sentStall := false, sendStall := false, setupEnd := false } } :=
    State.hwAt_setHw_self (s := s) (e := 0)
      (f := fun w => { w with csr := { w.csr with sentStall := false, sendStall := false, setupEnd := false } }) hs.hw_pos
  have idle : s.afterSentStall.dev.ep0state = .idle := rfl
  have noEnd : (s.csrAt 0).setupEnd = false → s.afterSentStall = t := by
    intro hse
    rw [State.afterSentStall]
    simp only [t]
    congr 1
    · exact (if_neg fun h => ne_true_of_eq_false hse h.1).symm
    · refine modify_hw_congr (s := s) (e := 0) ?_
      rw [State.csrAt] at hse
      simp only [hse]
  have reads : (s.csrAt 0).setupEnd = false → (s.csrAt 0).opr = true → exec .ep0h s = settle (t.push [.ep0ReadSetup]) := by
    intro hse opr
    rw [exec_ep0h_sentStall hq hs hsound hn hss, ep0AfterStallTest, if_neg (ne_true_of_eq_false hse), ep0Switch_idle idle,
      if_pos opr, ep0Setup, nuke_empty (by exact empty), noEnd hse]
    rfl
  refine ⟨fun done => ?_, fun hse opr hc => ?_, fun hse opr hc hb hf hi => ?_⟩
  · rw [exec_ep0h_sentStall hq hs hsound hn hss, ep0AfterStallTest]
    by_cases hse : (s.csrAt 0).setupEnd = true
    · rw [if_pos hse, csrWrite_setupEnd race (by rw [csr]; exact hse), nuke_empty (by exact empty)]
      refine (settle_ep0Idle (fs := s.stack) rfl).trans ((settle_settled (by exact hq.settled)).trans ?_)
      rw [csr, Host.Outcome.next.injEq]
      congr 1
      · exact if_congr ⟨fun opr => ⟨hse, opr⟩, And.right⟩ rfl rfl
      · exact List.modify_modify_eq ..
    · have hse' := Bool.eq_false_of_not_eq_true hse
      rw [if_neg hse, ep0Switch_idle idle, if_neg (ne_true_of_eq_false (done.resolve_left hse)), noEnd hse']
      exact settle_settled quiet
  · rw [reads hse opr]
    exact settle_readSetup_short (fs := s.stack) rfl hq.race quiet ((congrArg Hw.cnt hw).trans_lt hc)
  · rw [reads hse opr]
    exact settle_readSetup (s := t.push [.ep0ReadSetup]) (fs := s.stack) rfl hq.race
      (hs.hw_pos.trans_eq (List.length_modify ..).symm) (hc.trans_eq (congrArg Hw.cnt hw).symm) hb
      ((congrArg Hw.fifo hw).trans hf) hi

end Sys2Proof.Machine
end

section
/-! The lifecycle (44_lifecycle.md) and the dispatcher (43_dispatcher.md) with nothing interleaved, but for the disabling of
endpoints. -/

namespace Sys2Proof.Machine

variable {s : State} {e : EpNum} {k : Kind}

/-! ## Register writes with nothing scheduled -/

theorem indexWrite_nil (v : BitVec 4) (h : s.race = []) : indexWrite v s = { s with index := v } := by
  rw [indexWrite, State.turn_nil h]

/-- Writing back what was read clears all of it. -/
theorem w1c_self {n : Nat} (v : BitVec n) : w1c v v = 0 := by
  rw [w1c, BitVec.and_not_self]

theorem w1c_all (v : BitVec 3) : w1c v 0b111#3 = 0 := by
  revert v; decide

theorem settled_nil (h : s.stack = []) : s.settled = true := by
  rw [State.settled, h]

/-- With no work due, being inside a callback is having a stack. -/
theorem inCallback_iff (h : s.settled = true) : s.inCallback = true ↔ s.stack ≠ [] := by
  unfold State.inCallback State.settled at *
  cases hst : s.stack with
  | nil => simp
  | cons f fs =>
    rw [hst] at h
    simp [show f.isCallback = true from h]

/-! ## The controller -/

theorem enableController_quiet (h : s.race = []) : enableController s = { s with
    plat := { s.plat with padMode := .device, clkGated := false, sysintUnmasked := true }
    busEvt := 0
    epEvt := s.epEvt &&& ~~~s.params.epMask
    busEvtEn := 0b101#3
    epEvtEn := (s.epEvtEn ||| 1#8) &&& s.params.epMask } := by
  simp only [enableController, State.setPlat, busEvtWrite, epEvtWrite, busEvtEnWrite, epEvtEnModify, epEvtEnWrite,
    State.turn_nil, h, w1c_all]
  rfl

theorem udcCommand_eq (v : Bool) : udcCommand v s =
    { s with cbLog := s.cbLog ++ (if s.plat.udcCommand then [.udcCommand v] else []) } := by
  rw [udcCommand]
  split
  · rfl
  · rw [List.append_nil]

theorem disableController_quiet (h : s.race = []) : disableController s = { s with
    busEvtEn := 0
    epEvtEn := 0
    busEvt := 0
    epEvt := s.epEvt &&& ~~~s.params.epMask
    plat := { s.plat with sysintUnmasked := false, pullup := false }
    cbLog := s.cbLog ++ (if s.plat.udcCommand then [.udcCommand false] else [])
    dev := { s.dev with speed := .unknown } } := by
  have none : (0 : BitVec 8) &&& s.params.epMask = 0 := BitVec.zero_and
  simp only [disableController, pullupWrite, udcCommand_eq, State.setPlat, State.setDev, busEvtWrite, epEvtWrite,
    busEvtEnWrite, epEvtEnWrite, State.turn_nil, h, w1c_all, none]
  rfl

/-- Settles O52: the register writes of each, with nothing between them. -/
theorem controllerOpsEffect : Obligations.ControllerOpsEffect := by
  intro s hq
  exact ⟨hq.runToEnd_next (enableController_quiet hq.race) rfl, hq.runToEnd_next (disableController_quiet hq.race) rfl,
    hq.runToEnd_ep0Stall⟩

/-- Settles O28: one write each. -/
theorem pullupSelfpwrEffect : Obligations.PullupSelfpwrEffect := by
  intro v s hq
  refine ⟨?_, hq.runToEnd_returns 0 rfl rfl⟩
  show runToEnd ((pullupWrite v (udcCommand v s)).returns 0) = _
  refine (hq.runToEnd_returns (u := { s with
    plat := { s.plat with pullup := v }
    cbLog := s.cbLog ++ (if s.plat.udcCommand then [.udcCommand v] else []) }) 0 ?_ rfl)
  rw [udcCommand_eq]
  exact pullupWrite_nil v (by exact hq.race)

/-! ## The function driver -/

/-- Settles O29: the checks in order, then the first callback. -/
theorem regdrvUnregdrvEffect : Obligations.RegdrvUnregdrvEffect := by
  intro id caps s hq
  have inCallback := inCallback_iff hq.settled
  have raise := runToEnd_raise (s := s) hq.settled
  constructor
  · show runToEnd (regdrvBody id caps s) = _
    simp only [regdrvBody, Bool.or_eq_true, inCallback, bne_iff_ne, Bool.not_eq_true', Driver.fullSpeed, Driver.hasBind,
      Driver.hasDisconnect, Driver.hasSetup, ← ite_or, or_assoc]
    by_cases hc : s.stack ≠ [] ∨ s.dev.inDispatch = true ∨ s.dev.driver ≠ none
    · rw [if_pos hc, if_pos hc]; exact raise .busy
    rw [if_neg hc, if_neg hc]
    split
    · exact raise .invalidArgument
    have idle : s.stack = [] := by tauto
    refine (settle_callback (c := .bind) (fs := .afterBind :: s.stack) rfl).trans ?_
    simp only [State.invoke, State.push, State.logCb, State.setDev, idle]
    rfl
  · show runToEnd (unregdrvBody id s) = _
    simp only [unregdrvBody, Bool.or_eq_true, inCallback, bne_iff_ne]
    by_cases hc : s.stack ≠ [] ∨ s.dev.inDispatch = true
    · rw [if_pos hc, if_pos hc]; exact raise .busy
    rw [if_neg hc, if_neg hc]
    by_cases hd : s.dev.driver.map Driver.id ≠ some id
    · rw [if_pos hd, if_pos hd]; exact raise .invalidArgument
    rw [if_neg hd, if_neg hd]
    have idle : s.stack = [] := by tauto
    refine (settle_callback (c := .disconnect) (fs := .unregMain s.params.dataEndpoints :: s.stack) rfl).trans ?_
    simp only [State.invoke, State.push, State.logCb, idle]
    rfl

/-- Settles O30: by the sign of what `bind` returned. -/
theorem bindReturns : Obligations.BindReturns := by
  intro s r more hr hst hi t
  rw [step_return hst hi, settle_cons (f := .afterBind) (fs := []) rfl rfl]
  show settle (afterBind t) = _
  rw [afterBind]
  by_cases hneg : r < 0
  · rw [if_pos hneg, if_pos hneg]
    exact settle_settled rfl
  · rw [if_neg hneg, if_neg hneg, enableController_quiet (by exact hr)]
    exact settle_settled rfl

/-! ## The dispatcher -/

/-- Entry into the dispatcher: what was seen is cleared. -/
theorem enterDispatch_nil (h : s.race = []) : enterDispatch s =
    (s.index, s.busEvt, s.epEvt, { s with dev := { s.dev with inDispatch := true }, busEvt := 0, epEvt := 0 }) := by
  simp only [enterDispatch, State.setDev, busEvtWrite, epEvtWrite, State.turn_nil, h, w1c_self]

/-- The state in which the work of a dispatch is handed out: what was seen is cleared, the exit is due. -/
def State.dispatching (s : State) : State :=
  { s with
    dev := { s.dev with inDispatch := true }
    busEvt := 0
    epEvt := 0
    stack := .dispatchExit s.index :: s.stack }

theorem exec_dispatch (h : s.race = []) (hst : s.stack = []) (hd : s.dev.inDispatch = false) :
    exec .dispatch s = settle (if s.busEvt.getLsbD 2 then busResetSeen s.dispatching
      else s.dispatching.push (dispatchWork s.params s.busEvt s.epEvt)) := by
  show runToEnd (dispatchBody s) = _
  rw [dispatchBody, enterDispatch_nil h, if_neg (by simp [hd, State.inCallback, hst])]
  show runToEnd (if s.busEvt.getLsbD 2 then _ else _) = _
  split <;> rfl

theorem dispatchWork_none (p : Params) : dispatchWork p 0 0 = [] := by
  simp [dispatchWork, evtResume, evtSuspend, evtOf]

/-- The exit restores INDEX. -/
theorem settle_dispatchExit {saved : BitVec 4} {fs : List Frame} (h : s.race = [])
    (hst : s.stack = .dispatchExit saved :: fs) : settle s = settle { s with
      stack := fs, index := saved, dev := { s.dev with inDispatch := false }, cmdResult := 0 } := by
  rw [settle_cons hst rfl]
  show settle (leaveDispatch saved { s with stack := fs }) = _
  rw [leaveDispatch, indexWrite_nil _ (by exact h)]
  rfl

/-- Settles O32: nested by the first test, idle by an empty list of work. -/
theorem nestedAndIdleDispatch : Obligations.NestedAndIdleDispatch := by
  intro s
  refine ⟨fun hs nested => ?_, fun h hst hd hb hv => ?_⟩
  · show runToEnd (dispatchBody s) = _
    rw [dispatchBody, if_pos (by rw [Bool.or_eq_true, inCallback_iff hs]; exact nested)]
    exact runToEnd_raise hs .busy
  · rw [exec_dispatch h hst hd, hb, hv, if_neg (by decide), dispatchWork_none]
    refine (settle_dispatchExit (s := s.dispatching.push []) (saved := s.index) (fs := s.stack) h rfl).trans
      ((settle_settled ?_).trans ?_)
    · exact settled_nil hst
    · simp only [State.dispatching, State.push, ← hd]

theorem dataEndpoints_filter (p : Params) (hp : p.wf = true) (v : BitVec 8) :
    ((p.dataEndpoints.filter (evtOf v)).map fun i => Frame.op (.epnh i)) =
      ((List.range (p.numEp - 1)).filter fun i => v.getLsbD (i + 1)).map fun i => .op (.epnh (BitVec.ofNat 4 (i + 1))) := by
  have numEp := (Params.wf_iff.mp hp).2.1
  rw [Params.dataEndpoints, List.filter_map, List.map_map]
  refine congrArg (List.map _) (List.filter_congr fun i hi => ?_)
  rw [List.mem_range] at hi
  show v.getLsbD (BitVec.ofNat 4 (i + 1)).toNat = _
  rw [BitVec.toNat_ofNat, Nat.mod_eq_of_lt (by omega)]

/-- Settles O33: what was seen is cleared, and the data endpoints are filtered by their bits. -/
theorem dispatchHandsOut : Obligations.DispatchHandsOut := by
  intro s h hst hs hd hb
  rw [exec_dispatch h hst hd, if_neg (ne_true_of_eq_false hb), dispatchWork, dataEndpoints_filter _ hs.params,
    State.dispatching, hst]
  rfl

/-! ## A reset seen -/

/-- Failing a queue and changing the rest of the endpoint's record commute. -/
theorem afterNuke_setEp {f : Ep → Ep} (hf : ∀ p, (f p).queue = p.queue)
    (hc : ∀ p, ({ f p with queue := [] } : Ep) = f { p with queue := [] }) :
    (s.setEp e f).afterNuke e k = (s.afterNuke e k).setEp e f := by
  have queue : ((s.setEp e f).epAt e).queue = (s.epAt e).queue := setEp_same hf e
  rw [State.afterNuke, State.afterNuke, queue]
  simp only [State.setEp, List.modify_modify_eq]
  congr 2
  funext p
  exact hc p

theorem State.NoCallbacks.setEp {f : Ep → Ep} (hf : ∀ p, (f p).queue = p.queue) {e' : EpNum} (hn : s.NoCallbacks e') :
    (s.setEp e f).NoCallbacks e' := by
  intro h hh
  exact hn h (by rwa [setEp_same hf e'] at hh)

/-- The state in which `bus_reset` fails the queue of EP0 (R143). -/
def State.resetting (s : State) : State :=
  { s.dispatching.setEp 0 ({ · with maxp := s.params.ep0Maxp }) with
    funcAddr := 0
    index := 0
    hw := s.hw.modify 0 ({ · with maxp := s.params.ep0Maxp })
    dev := { s.dispatching.dev with address := 0, speed := .full, ep0state := .idle } }

/-- Settles O34: the queue of EP0 failed in the state `resetting`, then the exit. -/
theorem dispatchOfReset : Obligations.DispatchOfReset := by
  intro s h hst hd hb hs hsound hn t
  rw [exec_dispatch h hst hd, if_pos hb, busResetSeen, funcAddrWrite_nil _ (by exact h), maxpWrite_nil _ _ (by exact h)]
  have same : (s.setEp 0 ({ · with maxp := s.params.ep0Maxp })).SameRecords s.resetting :=
    ⟨rfl, rfl, rfl, List.length_modify ..⟩
  have failed := same.nuke (e := 0) (k := .aborted) ((Move.ep0Maxp s).shaped hs) ((Move.ep0Maxp s).queues hs hsound)
    (State.NoCallbacks.setEp (f := ({ · with maxp := s.params.ep0Maxp })) (fun _ => rfl) hn)
  refine (congrArg settle failed).trans ?_
  refine (settle_dispatchExit (s := s.resetting.afterNuke 0 .aborted) (saved := s.index) (fs := s.stack) h rfl).trans ?_
  refine (settle_settled (by exact settled_nil hst)).trans (congrArg _ ?_)
  have commutes := afterNuke_setEp (s := s) (e := 0) (k := .aborted) (f := ({ · with maxp := s.params.ep0Maxp }))
    (fun _ => rfl) (fun _ => rfl)
  change ({ (s.setEp 0 ({ · with maxp := s.params.ep0Maxp })).afterNuke 0 .aborted with
    busEvt := 0
    epEvt := 0
    dev := { s.dev with address := 0, speed := .full, ep0state := .idle, inDispatch := false }
    funcAddr := 0
    hw := s.hw.modify 0 ({ · with maxp := s.params.ep0Maxp })
    cmdResult := 0 } : State) = _
  rw [commutes, ← hd]
  rfl

end Sys2Proof.Machine
end

section
/-! Disabling endpoints (42_endpoint_ops.md R128) and unregistering a driver (44_lifecycle.md R157, R158) with nothing
interleaved. -/

namespace Sys2Proof.Machine

variable {s : State} {e : EpNum} {k : Kind}

/-! ## One endpoint disabled -/

/-- The rest of `disable` after its nuke. -/
theorem disableTail_quiet (hr : s.race = []) (h0 : e ≠ 0) : disableTail e s = { s with
    eps := s.eps.modify e.toNat fun p => { p with maxp := 0, dir := .out, type := .bulk, halted := false }
    hw := s.hw.modify e.toNat fun w =>
      { w with maxp := 0, csr := { w.csr with opr := false, ipr := false, sendStall := false }, cnt := 0, fifo := [] }
    epEvtEn := (s.epEvtEn &&& ~~~(1#8 <<< e.toNat)) &&& s.params.epMask
    index := e } := by
  have hz : (e == 0) = false := beq_eq_false_iff_ne.mpr h0
  rw [disableTail, maxpWrite_nil _ _ (by exact hr), csrWrite_quiet _ _ (by exact hr) (by simp),
    epEvtEnModify_nil _ (by exact hr)]
  simp only [State.setHw, State.setEp, List.modify_modify_eq, hz]
  congr 1
  congr 1
  funext w
  simp [Hw.csrWrite, Hw.discards]

/-- What disabling an endpoint needs: nothing is interleaved, and no request of its queue has a callback. -/
structure State.Disabling (s : State) (e : EpNum) : Prop where
  race : s.race = []
  shaped : s.Shaped
  queues : s.QueuesSound
  silent : s.NoCallbacks e
  data : e ≠ 0

/-- `disable` up to its tail. -/
theorem State.Disabling.start (d : s.Disabling e) : disableStart e s =
    ((s.afterNuke e .shutdown).setEp e ({ · with enabled := false })).push [.disableTail e] := by
  have clear : Move s (s.setEp e ({ · with enabled := false })) :=
    Move.descriptor s e _ d.data (fun _ => rfl) (fun _ => rfl) fun _ => .inl rfl
  have same : (s.setEp e ({ · with enabled := false })).SameRecords
      ((s.setEp e ({ · with enabled := false })).push [.disableTail e]) := ⟨rfl, rfl, rfl, rfl⟩
  have silent := State.NoCallbacks.setEp (e := e) (f := ({ · with enabled := false })) (fun _ => rfl) d.silent
  have commutes := afterNuke_setEp (s := s) (e := e) (k := .shutdown) (f := ({ · with enabled := false })) (fun _ => rfl)
    fun _ => rfl
  rw [disableStart, enabledClear_nil e d.race, same.nuke (clear.shaped d.shaped) (clear.queues d.shaped d.queues) silent,
    ← commutes]
  rfl

/-- The tail makes `afterDisable` of it. -/
theorem State.Disabling.tail (d : s.Disabling e) :
    disableTail e ((s.afterNuke e .shutdown).setEp e ({ · with enabled := false })) = s.afterDisable e := by
  rw [disableTail_quiet (by exact d.race) d.data, State.afterDisable]
  simp only [State.setEp, List.modify_modify_eq]
  rfl

theorem State.Disabling.settle_start (d : s.Disabling e) : settle (disableStart e s) = settle (s.afterDisable e) := by
  rw [d.start, ← d.tail]
  exact settle_cons (f := .disableTail e) (fs := s.stack) rfl rfl

/-- What stands on the stack does not matter. -/
theorem State.Disabling.push (d : s.Disabling e) (fs : List Frame) : (s.push fs).Disabling e :=
  have same : s.SameRecords (s.push fs) := ⟨rfl, rfl, rfl, rfl⟩
  ⟨d.race, same.shaped d.shaped, same.queues d.queues, same.noCallbacks d.silent, d.data⟩

/-- Settles O18: the checks, then the endpoint disabled with the result due behind it. -/
theorem epdisEffect : Obligations.EpdisEffect := by
  intro e s hq hs hsound hv hn
  show runToEnd (epdisBody e s) = _
  simp only [epdisBody, validEp_iff.mpr hv, Bool.not_true, Bool.false_eq_true, if_false, beq_iff_eq, Bool.not_eq_true']
  by_cases h0 : e = 0
  · rw [if_pos h0, if_pos h0]; exact runToEnd_raise hq.settled .invalidArgument
  rw [if_neg h0, if_neg h0]
  by_cases hen : (s.epAt e).enabled = false
  · rw [if_pos hen, if_pos hen]; exact runToEnd_raise hq.settled .notReady
  rw [if_neg hen, if_neg hen]
  have d : (s.push [.ret 0]).Disabling e := State.Disabling.push ⟨hq.race, hs, hsound, hn, h0⟩ _
  refine d.settle_start.trans ?_
  refine (settle_ret (s := (s.push [.ret 0]).afterDisable e) (v := 0) (fs := s.stack) rfl).trans ?_
  exact settle_settled (by exact hq.settled)

/-! ## All endpoints flushed (44_lifecycle.md R158) -/

/-- `disable` is a sequence of moves. -/
theorem State.Disabling.moves (d : s.Disabling e) : Moves s (s.afterDisable e) := by
  have nuked := moves_nuke e .shutdown s
  rw [nuke_quiet e .shutdown d.shaped d.queues d.silent] at nuked
  have cleared : Moves (s.afterNuke e .shutdown) ((s.afterNuke e .shutdown).setEp e ({ · with enabled := false })) :=
    (Move.descriptor _ e ({ · with enabled := false }) d.data (fun _ => rfl) (fun _ => rfl) fun _ => .inl rfl).moves
  rw [← d.tail]
  exact (nuked.trans cleared).trans (moves_disableTail e _ d.data)

theorem afterDisable_disabled : ((s.afterDisable e).epAt e).enabled = false := by
  by_cases hl : e.toNat < s.eps.length
  · simp [State.epAt, State.afterDisable, State.afterNuke, hl]
  · simp [State.epAt, State.afterDisable, State.afterNuke, hl, Ep.disabled]

theorem afterDisable_epAt_ne {e' : EpNum} (h : e' ≠ e) : (s.afterDisable e).epAt e' = s.epAt e' := by
  have : e.toNat ≠ e'.toNat := fun hh => h (BitVec.eq_of_toNat_eq hh).symm
  simp [State.epAt, State.afterDisable, State.afterNuke, this]

/-- Failing requests keeps their callbacks. -/
theorem afterNuke_complete (h : Handle) : ((s.afterNuke e k).reqAt h).complete = (s.reqAt h).complete := by
  have keep : ∀ (hs : List Handle) (l : List Req),
      (((hs.foldl (fun l h => l.modify h.toNat fun r => { r with status := .finished k, ep := none }) l)[h.toNat]?).getD
        Req.free).complete = ((l[h.toNat]?).getD Req.free).complete := by
    intro hs
    induction hs with
    | nil => intro l; rfl
    | cons h' hs ih =>
      intro l
      rw [List.foldl_cons, ih, List.getElem?_modify]
      cases l[h.toNat]? with
      | none => rfl
      | some r =>
        rw [Option.map_eq_map, Option.map_some, Option.getD_some, Option.getD_some]
        split <;> rfl
  exact keep _ _

/-- What flushing needs: nothing is interleaved, and no request of EP0 or of an enabled endpoint has a callback. -/
structure State.Flushing (s : State) : Prop where
  race : s.race = []
  shaped : s.Shaped
  queues : s.QueuesSound
  silent : ∀ e, e = 0 ∨ (s.epAt e).enabled = true → s.NoCallbacks e

theorem State.Flushing.disabling (f : s.Flushing) (h0 : e ≠ 0) (hen : (s.epAt e).enabled = true) : s.Disabling e :=
  ⟨f.race, f.shaped, f.queues, f.silent e (.inr hen), h0⟩

/-- Disabling an endpoint keeps what flushing the others needs. -/
theorem State.Flushing.afterDisable (f : s.Flushing) (h0 : e ≠ 0) (hen : (s.epAt e).enabled = true) :
    (s.afterDisable e).Flushing := by
  have d := f.disabling h0 hen
  obtain ⟨shaped, queues⟩ := d.moves.keeps (P := fun t => t.Shaped ∧ t.QueuesSound)
    (fun _ _ m i => ⟨m.shaped i.1, m.queues i.1 i.2⟩) ⟨f.shaped, f.queues⟩
  refine ⟨f.race, shaped, queues, fun e' he' h hh => ?_⟩
  rw [show ((s.afterDisable e).reqAt h).complete = (s.reqAt h).complete from afterNuke_complete h]
  by_cases hee : e' = e
  · subst hee
    rcases he' with hz | he'
    · exact absurd hz h0
    · exact absurd he' (ne_true_of_eq_false afterDisable_disabled)
  · rw [afterDisable_epAt_ne hee] at he' hh
    exact f.silent e' he' h hh

/-- The enabled endpoints of a list disabled, in order. -/
def State.afterFlush (enabled : EpNum → Bool) (es : List EpNum) (s : State) : State :=
  es.foldl (fun t e => if enabled e then t.afterDisable e else t) s

/-- Flushing goes through the list, disabling what is enabled. -/
theorem State.Flushing.settle_flushRest {enabled : EpNum → Bool} {es : List EpNum} (hnd : es.Nodup)
    (h0 : ∀ e ∈ es, e ≠ 0) {s : State} (f : s.Flushing) (hen : ∀ e ∈ es, (s.epAt e).enabled = enabled e) :
    settle (s.push [.flushRest es]) = settle ((s.afterFlush enabled es).push [.flushRest []]) ∧
      (s.afterFlush enabled es).Flushing := by
  induction es generalizing s with
  | nil => exact ⟨rfl, f⟩
  | cons e es ih =>
    obtain ⟨new, hnd⟩ := List.nodup_cons.mp hnd
    have h0e := h0 e List.mem_cons_self
    have hene := hen e List.mem_cons_self
    have h0' : ∀ e' ∈ es, e' ≠ 0 := fun e' he' => h0 e' (List.mem_cons_of_mem _ he')
    have hen' : ∀ e' ∈ es, (s.epAt e').enabled = enabled e' := fun e' he' => hen e' (List.mem_cons_of_mem _ he')
    have first : settle (s.push [.flushRest (e :: es)]) = settle (flushRest (e :: es) s) :=
      settle_cons (f := .flushRest (e :: es)) (fs := s.stack) rfl rfl
    rw [first, flushRest, State.afterFlush, List.foldl_cons, ← State.afterFlush]
    cases hc : enabled e with
    | false =>
      rw [if_neg (by rw [hene, hc]; exact Bool.false_ne_true), if_neg Bool.false_ne_true]
      exact ih hnd h0' f hen'
    | true =>
      have on : (s.epAt e).enabled = true := hene.trans hc
      rw [if_pos on, if_pos rfl, ((f.disabling h0e on).push _).settle_start]
      refine ih hnd h0' (f.afterDisable h0e on) fun e' he' => ?_
      rw [afterDisable_epAt_ne fun h : e' = e => new (h ▸ he')]
      exact hen' e' he'

/-- Flushing leaves the device record. -/
theorem afterFlush_dev (enabled : EpNum → Bool) (es : List EpNum) (d : Dev) :
    ({ s with dev := d } : State).afterFlush enabled es = { s.afterFlush enabled es with dev := d } := by
  induction es generalizing s with
  | nil => rfl
  | cons e es ih =>
    simp only [State.afterFlush, List.foldl_cons]
    rw [← State.afterFlush, ← State.afterFlush]
    split
    · exact ih (s := s.afterDisable e)
    · exact ih

theorem afterFlush_stack (enabled : EpNum → Bool) (es : List EpNum) : (s.afterFlush enabled es).stack = s.stack := by
  induction es generalizing s with
  | nil => rfl
  | cons e es ih =>
    rw [State.afterFlush, List.foldl_cons, ← State.afterFlush, ih]
    split <;> rfl

theorem dataEndpoints_nodup {p : Params} (hp : p.wf = true) : p.dataEndpoints.Nodup := by
  have numEp := (Params.wf_iff.mp hp).2.1
  refine List.Nodup.map_on (fun i hi j hj hij => ?_) List.nodup_range
  rw [List.mem_range] at hi hj
  have := congrArg BitVec.toNat hij
  simp only [BitVec.toNat_ofNat] at this
  omega

/-- What the return of `disconnect` goes on with: the controller disabled, before the endpoints are flushed. -/
def State.disconnected (s : State) (r : Int) (more : List Input) : State :=
  { s with
    input := more
    cbResult := r
    stack := []
    busEvtEn := 0
    epEvtEn := 0
    busEvt := 0
    epEvt := s.epEvt &&& ~~~s.params.epMask
    plat := { s.plat with sysintUnmasked := false, pullup := false }
    cbLog := s.cbLog ++ (if s.plat.udcCommand then [.udcCommand false] else [])
    dev := { s.dev with speed := .unknown } }

theorem step_disconnected {r : Int} {more : List Input} (hr : s.race = [])
    (hst : s.stack = [.callback .disconnect, .unregMain s.params.dataEndpoints])
    (hi : s.input = .callbackReturn r :: more) :
    step s = settle ((s.disconnected r more).push [.flushRest s.params.dataEndpoints]) := by
  rw [step_return hst hi, settle_cons (f := .unregMain s.params.dataEndpoints) (fs := []) rfl rfl]
  show settle (unregMain _ _) = _
  rw [unregMain, disableController_quiet (by exact hr)]
  rfl

/-- The end of flushing: the queue of EP0, then what `unregUnbind` does. -/
theorem State.Flushing.settle_last (f : s.Flushing) :
    settle (s.push [.flushRest []]) = settle (unregUnbind (s.afterNuke 0 .shutdown)) := by
  have same : s.SameRecords (s.push [.unregUnbind]) := ⟨rfl, rfl, rfl, rfl⟩
  rw [settle_cons (f := .flushRest []) (fs := s.stack) rfl rfl]
  show settle (nuke 0 .shutdown (s.push [.unregUnbind])) = _
  rw [same.nuke f.shaped f.queues (f.silent 0 (.inl rfl))]
  exact settle_cons (f := .unregUnbind) (fs := s.stack) rfl rfl

theorem settle_unregUnbind {d : Driver} (hst : s.stack = []) (hd : s.dev.driver = some d) :
    settle (unregUnbind s) = .next (if d.caps.getLsbD 2 then
      { s.setEp0State .idle with
        cbLog := s.cbLog ++ [.callback .unbind]
        stack := [.callback .unbind, .unregEnd] }
      else { s with dev := { s.dev with ep0state := .idle, driver := none }, cmdResult := 0 }) := by
  have has : ((s.setEp0State .idle).push [.unregEnd]).driverHas (·.hasUnbind) = d.caps.getLsbD 2 := by
    rw [State.driverHas, show ((s.setEp0State .idle).push [.unregEnd]).dev.driver = some d from hd]
    rfl
  rw [unregUnbind]
  simp only [has]
  split
  · refine (settle_callback (c := .unbind) (fs := .unregEnd :: s.stack) rfl).trans ?_
    simp only [State.invoke, State.push, State.logCb, State.setEp0State, State.setDev, hst]
    rfl
  · refine (settle_cons (f := .unregEnd) (fs := s.stack) rfl rfl).trans ?_
    exact settle_settled (by exact settled_nil hst)

/-- Settles O31: the controller disabled, the data endpoints flushed in order, then EP0, then `unbind`. -/
theorem unregisterGoesOn : Obligations.UnregisterGoesOn := by
  intro s r more d hr hst hi hs hq hn hd t flushed u
  have same : s.SameRecords (s.disconnected r more) := ⟨rfl, rfl, rfl, rfl⟩
  have f : (s.disconnected r more).Flushing :=
    ⟨hr, same.shaped hs, same.queues hq, fun e he => same.noCallbacks (hn e he)⟩
  obtain ⟨run, fl⟩ := State.Flushing.settle_flushRest (enabled := fun e => (s.epAt e).enabled)
    (dataEndpoints_nodup hs.params) (fun _ => dataEndpoints_ne hs.params) f fun _ _ => rfl
  have stack := afterFlush_stack (s := s.disconnected r more) (fun e => (s.epAt e).enabled) s.params.dataEndpoints
  have dev := fun d => afterFlush_dev (s := s.disconnected r more) (fun e => (s.epAt e).enabled) s.params.dataEndpoints d
  have vdev := congrArg State.dev (dev (s.disconnected r more).dev)
  change ((s.disconnected r more).afterFlush _ _).dev = { s.dev with speed := .unknown } at vdev
  rw [step_disconnected hr hst hi, run, fl.settle_last]
  generalize (s.disconnected r more).afterFlush (fun e => (s.epAt e).enabled) s.params.dataEndpoints = v at *
  have hu : u = (v.afterNuke 0 .shutdown).setEp0State .idle := by
    have : flushed = { v with dev := t.dev } := dev t.dev
    show flushed.afterNuke 0 .shutdown = _
    rw [this, State.setEp0State, State.setDev, show (v.afterNuke 0 .shutdown).dev = _ from vdev]
    rfl
  rw [settle_unregUnbind (d := d) (by exact stack) (by rw [show (v.afterNuke 0 .shutdown).dev = _ from vdev]; exact hd), hu]
  rfl

end Sys2Proof.Machine
end

section
/-! The register block as bytes (30_encoding.md R78, R79; 20_memory.md R51, R52): the register at each offset, its byte, and
the read-modify-write of CSR. -/

namespace Sys2Proof.Machine

variable {s : State}

/-! ## The bits of a byte -/

/-- A byte written out by its bits, bit 7 first. -/
def byteOf (b7 b6 b5 b4 b3 b2 b1 b0 : Bool) : Byte :=
  BitVec.ofBool b7 ++ BitVec.ofBool b6 ++ BitVec.ofBool b5 ++ BitVec.ofBool b4 ++ BitVec.ofBool b3 ++ BitVec.ofBool b2 ++
    BitVec.ofBool b1 ++ BitVec.ofBool b0

theorem getLsbD_byteOf : ∀ b7 b6 b5 b4 b3 b2 b1 b0 : Bool, ∀ i < 8,
    (byteOf b7 b6 b5 b4 b3 b2 b1 b0).getLsbD i = [b0, b1, b2, b3, b4, b5, b6, b7].getD i false := by decide

/-- The fields a byte names are the bits it is written out of. -/
theorem ofByte_byteOf (ep0 b7 b6 b5 b4 b3 b2 b1 b0 : Bool) :
    CsrUpdate.ofByte ep0 (byteOf b7 b6 b5 b4 b3 b2 b1 b0) =
      { opr := some b0, ipr := some b1, sentStall := some b2, dataEnd := if ep0 then some b3 else none
        setupEnd := if ep0 then some b4 else none, sendStall := some b5
        fifoFlush := !ep0 && b6, clrToggle := !ep0 && b7 } := by
  have bit := getLsbD_byteOf b7 b6 b5 b4 b3 b2 b1 b0
  simp only [CsrUpdate.ofByte, bit 0 (by decide), bit 1 (by decide), bit 2 (by decide), bit 3 (by decide),
    bit 4 (by decide), bit 5 (by decide), bit 6 (by decide), bit 7 (by decide)]
  rfl

/-- CSR as a byte is the sum of its bits. -/
theorem toByte_eq (ep0 : Bool) (c : Csr) : c.toByte ep0 = BitVec.ofNat 8 (c.opr.toNat + 2 * c.ipr.toNat +
    4 * c.sentStall.toNat + (if ep0 then 8 * c.dataEnd.toNat + 16 * c.setupEnd.toNat else 0) + 32 * c.sendStall.toNat) := by
  have sum : ∀ ep0 o i ss d se st : Bool, byteOf false false st (ep0 && se) (ep0 && d) ss i o =
      BitVec.ofNat 8 (o.toNat + 2 * i.toNat + 4 * ss.toNat + (if ep0 then 8 * d.toNat + 16 * se.toNat else 0) +
        32 * st.toNat) := by decide
  exact sum ep0 c.opr c.ipr c.sentStall c.dataEnd c.setupEnd c.sendStall

/-! ## Read-modify-write of CSR -/

theorem toByte_sendStall (ep0 : Bool) (c : Csr) : (c.toByte ep0).getLsbD 5 = c.sendStall :=
  getLsbD_byteOf false false c.sendStall (ep0 && c.setupEnd) (ep0 && c.dataEnd) c.sentStall c.ipr c.opr 5 (by decide)

/-- An unnamed field written back has no effect, but for SEND_STALL. -/
theorem csrWrite_merged (ep0 : Bool) (u : CsrUpdate) (read : Byte) (w : Hw)
    (h : u.sendStall ≠ none ∨ read.getLsbD 5 = w.csr.sendStall) :
    w.csrWrite ep0 (CsrUpdate.ofByte ep0 (u.mergeByte ep0 read)) = w.csrWrite ep0 u := by
  have keep : ∀ o : Option Bool, (some (o.getD true) == some false) = (o == some false) := by decide
  have set : ∀ o : Option Bool, (some (o.getD false) == some true) = (o == some true) := by decide
  have stall : u.sendStall.getD (read.getLsbD 5) = u.sendStall.getD w.csr.sendStall := by
    rcases h with h | h
    · obtain ⟨b, hb⟩ := Option.ne_none_iff_exists'.mp h
      rw [hb]; rfl
    · rw [h]
  rw [show u.mergeByte ep0 read = byteOf _ _ _ _ _ _ _ _ from rfl, ofByte_byteOf]
  unfold Hw.csrWrite Hw.discards
  cases ep0 <;> simp only [keep, set, stall, Option.getD_some, Bool.not_true, Bool.not_false, Bool.true_and, Bool.false_and,
    Bool.false_eq_true, if_false, if_true]

theorem reraises_merged (u : CsrUpdate) (read : Byte) (w : Hw) :
    w.reraises (CsrUpdate.ofByte true (u.mergeByte true read)) = w.reraises u := by
  have keep : ∀ o : Option Bool, (some (o.getD true) == some false) = (o == some false) := by decide
  rw [show u.mergeByte true read = byteOf _ _ _ _ _ _ _ _ from rfl, ofByte_byteOf]
  unfold Hw.reraises Hw.csrWrite Hw.discards
  simp only [keep, if_true, Bool.not_true, Bool.false_and, Bool.true_and]

theorem applyCsr_merged (e : EpNum) (u : CsrUpdate) (read : Byte)
    (h : u.sendStall ≠ none ∨ read.getLsbD 5 = (s.csrAt e).sendStall) :
    s.applyCsr e (CsrUpdate.ofByte (e == 0) (u.mergeByte (e == 0) read)) = s.applyCsr e u := by
  rw [State.applyCsr_eq, State.applyCsr_eq, modify_hw_congr (csrWrite_merged (e == 0) u read (s.hwAt e) h)]
  cases hz : (e == 0) with
  | false => rfl
  | true => rw [reraises_merged]

/-! ## Registers by their offset -/

theorem regAt_fifoData {p : Params} {e : EpNum} (he : e.toNat < p.numEp) : regAt p (0x10 + e.toNat) = some (.fifoData e) := by
  unfold regAt
  split
  case h_10 =>
    rw [if_pos (by simp [he]), Nat.add_sub_cancel_left]
    simp
  all_goals omega

/-- The offsets of the registers below the FIFO data registers. -/
def regOffsets : List Nat := [0x00, 0x02, 0x03, 0x04, 0x05, 0x06, 0x08, 0x09, 0x0A]

theorem regAt_reserved {p : Params} {a : Nat} (ha : a ∉ regOffsets) (h : a < 0x10 ∨ 0x10 + p.numEp ≤ a) :
    regAt p a = none := by
  unfold regAt
  split
  case h_10 => exact if_neg (by simp only [Bool.and_eq_true, decide_eq_true_eq]; omega)
  all_goals simp [regOffsets] at ha

/-! ## Reads and writes -/

theorem indexValid_iff : s.turn.indexValid = true ↔ s.index.toNat < s.params.numEp := by
  simp [State.indexValid, State.validEp]

theorem csrReadModifyWrite_eq (u : CsrUpdate) (hi : s.index.toNat < s.params.numEp)
    (h : u.sendStall ≠ none ∨ (s.turn.turn.csrAt s.index).sendStall = (s.turn.csrAt s.index).sendStall) :
    csrReadModifyWrite u s = .next (s.turn.turn.applyCsr s.index u) := by
  have valid := indexValid_iff.mpr hi
  have valid' : s.turn.turn.indexValid = true := indexValid_iff.mpr (by simpa using hi)
  have read : Reg.csr.read s = ((s.turn.csrAt s.index).toByte (s.index == 0), s.turn) := by
    rw [Reg.read]
    simp only [valid, if_true, turn_index]
  rw [csrReadModifyWrite, read]
  simp only [Reg.write, valid', if_true, turn_index]
  rw [applyCsr_merged s.index u _ (by rw [toByte_sendStall]; exact h.imp_right Eq.symm)]

theorem setWidth_low (x : BitVec 11) : x.setWidth 8 = x.extractLsb' 0 8 := by
  ext i hi; simp

theorem setWidth_wide (v : Byte) : v.setWidth 11 = 0#3 ++ v := BitVec.setWidth_eq_append (by decide)

theorem regRead_reserved {a : Nat} (h : regAt s.params a = none) : regRead a s = s.turn.takeFree := by
  rw [regRead, h]

theorem regWrite_reserved {a : Nat} {v : Byte} (h : regAt s.params a = none) : regWrite a v s = .next s.turn := by
  rw [regWrite, h]

/-- A byte written to CSR[0]: the registers after it (log 18). -/
theorem csrWrite_ofByte_ep0 (v : Byte) (w : Hw) : w.csrWrite true (CsrUpdate.ofByte true v) =
    let x := if v.getLsbD 0 then w else w.released
    { x with csr :=
      { opr := x.csr.opr, ipr := w.csr.ipr || v.getLsbD 1, sentStall := w.csr.sentStall && v.getLsbD 2
        dataEnd := w.csr.dataEnd || v.getLsbD 3, setupEnd := w.csr.setupEnd && v.getLsbD 4
        sendStall := v.getLsbD 5 } } := by
  unfold Hw.csrWrite Hw.discards CsrUpdate.ofByte Hw.released
  generalize v.getLsbD 0 = b0
  rcases w with ⟨_, ⟨o, _, _, _, _, _⟩, _, _, _⟩
  cases b0 <;> cases o <;> simp

theorem reraises_ofByte (v : Byte) (w : Hw) : w.reraises (CsrUpdate.ofByte true v) =
    (w.csr.setupEnd && !v.getLsbD 4 && w.csr.opr && v.getLsbD 0) := by
  unfold Hw.reraises Hw.csrWrite Hw.discards CsrUpdate.ofByte
  generalize v.getLsbD 0 = b0
  generalize v.getLsbD 4 = b4
  cases w.csr.setupEnd <;> cases w.csr.opr <;> cases b0 <;> cases b4 <;> rfl

/-- A byte written to CSR of a data endpoint: the registers after it (log 18, log 34, log 35). -/
theorem csrWrite_ofByte_data (v : Byte) (w : Hw) : w.csrWrite false (CsrUpdate.ofByte false v) =
    let x := if v.getLsbD 0 then w else w.released
    let y := { x with csr :=
      { x.csr with
        ipr := w.csr.ipr || v.getLsbD 1, sentStall := w.csr.sentStall && v.getLsbD 2, sendStall := v.getLsbD 5 } }
    let z := if v.getLsbD 6 then { y with csr := { y.csr with opr := false, ipr := false }, cnt := 0, fifo := [] } else y
    if v.getLsbD 7 then { z with toggle := .data0 } else z := by
  unfold Hw.csrWrite Hw.discards CsrUpdate.ofByte Hw.released
  generalize v.getLsbD 0 = b0
  generalize v.getLsbD 6 = b6
  generalize v.getLsbD 7 = b7
  rcases w with ⟨_, ⟨o, _, _, _, _, _⟩, _, _, _⟩
  cases b6 <;> cases b7 <;> cases b0 <;> cases o <;> simp

theorem regRead_fifoData {e : EpNum} (he : e.toNat < s.params.numEp) : regRead (0x10 + e.toNat) s = fifoPop e s := by
  rw [regRead, regAt_fifoData he]
  rfl

theorem regWrite_fifoData {e : EpNum} (v : Byte) (he : e.toNat < s.params.numEp) :
    regWrite (0x10 + e.toNat) v s = fifoPush e v s := by
  rw [regWrite, regAt_fifoData he]
  rfl

theorem fifoPush_eq {e : EpNum} {b : Byte} : fifoPush e b s =
    if (s.turn.hwAt e).fifo.length < s.params.fifoSize e then
      .next (s.turn.setHw e fun w => { w with fifo := w.fifo ++ [b] })
    else .refused .fifoFull := by
  unfold fifoPush
  simp only [turn_params]

theorem fifoPop_cons {e : EpNum} {b : Byte} {rest : List Byte} (hf : (s.turn.hwAt e).fifo = b :: rest) :
    fifoPop e s = (b, s.turn.setHw e ({ · with fifo := rest })) := by
  unfold fifoPop
  simp only [hf]

theorem fifoPop_nil {e : EpNum} (hf : (s.turn.hwAt e).fifo = []) : fifoPop e s = s.turn.takeFree := by
  unfold fifoPop
  simp only [hf]

/-- The registers that INDEX selects. -/
theorem regRead_indexed (hi : s.index.toNat < s.params.numEp) :
    regRead 0x08 s = ((s.turn.hwAt s.index).maxp.extractLsb' 0 8, s.turn) ∧
    regRead 0x09 s = ((s.turn.csrAt s.index).toByte (s.index == 0), s.turn) ∧
    regRead 0x0A s = (BitVec.ofNat 8 (s.turn.hwAt s.index).cnt, s.turn) := by
  have valid := indexValid_iff.mpr hi
  refine ⟨?_, ?_, ?_⟩
  · show Reg.maxp.read s = _
    rw [Reg.read]
    simp only [valid, if_true, turn_index, setWidth_low]
  · show Reg.csr.read s = _
    rw [Reg.read]
    simp only [valid, if_true, turn_index]
  · show Reg.cnt.read s = _
    rw [Reg.read]
    simp only [valid, if_true, turn_index]

theorem regRead_unselected (hi : s.params.numEp ≤ s.index.toNat) {a : Nat} (ha : a ∈ [0x08, 0x09, 0x0A]) :
    regRead a s = s.turn.takeFree := by
  have invalid : ¬s.turn.indexValid = true := fun h => absurd (indexValid_iff.mp h) (Nat.not_lt.mpr hi)
  simp only [List.mem_cons, List.not_mem_nil, or_false] at ha
  rcases ha with rfl | rfl | rfl
  · exact if_neg invalid
  · exact if_neg invalid
  · exact if_neg invalid

theorem regWrite_csr (v : Byte) (hi : s.index.toNat < s.params.numEp) :
    regWrite 0x09 v s = .next (s.turn.applyCsr s.index (CsrUpdate.ofByte (s.index == 0) v)) := by
  show Reg.csr.write v s = _
  rw [Reg.write]
  simp only [indexValid_iff.mpr hi, if_true, turn_index]

/-- Settles O54: the register at each offset, then its own read or write. -/
theorem byteWriteIsFieldWrite : Obligations.ByteWriteIsFieldWrite := by
  refine ⟨fun s u hi h => csrReadModifyWrite_eq u hi h, fun s => ?_, fun s v => ?_⟩
  · intro t w free
    refine ⟨rfl, rfl, rfl, rfl, rfl, rfl, fun hi => ?_, fun hi a ha => regRead_unselected hi ha,
      fun e he => ⟨fun b rest hf => ?_, fun hf => ?_⟩, fun a ha h => regRead_reserved (regAt_reserved ha h)⟩
    · obtain ⟨maxp, csr, cnt⟩ := regRead_indexed hi
      refine ⟨maxp, csr.trans ?_, cnt⟩
      rw [toByte_eq]
      simp only [beq_iff_eq]
      rfl
    · exact (regRead_fifoData he).trans (fifoPop_cons hf)
    · exact (regRead_fifoData he).trans (fifoPop_nil hf)
  · intro t
    refine ⟨rfl, rfl, rfl, rfl, rfl, rfl, rfl, fun hi => ?_, fun h0 hn => ?_, fun h0 hi => ?_, fun hi a ha => ?_,
      fun e he => (regWrite_fifoData v he).trans fifoPush_eq, fun a ha h => regWrite_reserved (regAt_reserved ha h)⟩
    · show Reg.maxp.write v s = _
      rw [Reg.write]
      simp only [indexValid_iff.mpr hi, if_true, turn_index, setWidth_wide]
      rfl
    · have hi : s.index.toNat < s.params.numEp := by rw [h0]; exact Nat.pos_of_ne_zero hn
      rw [regWrite_csr v hi, h0, State.applyCsr_eq]
      simp only [BEq.rfl, Bool.true_and, reraises_ofByte]
      rw [show Hw.csrWrite true (CsrUpdate.ofByte true v) = _ from funext (csrWrite_ofByte_ep0 v)]
      rfl
    · have hz : (s.index == 0) = false := beq_eq_false_iff_ne.mpr h0
      rw [regWrite_csr v hi, State.applyCsr_eq]
      simp only [hz, Bool.false_and]
      rw [show Hw.csrWrite false (CsrUpdate.ofByte false v) = _ from funext (csrWrite_ofByte_data v)]
      rfl
    · have invalid : ¬s.turn.indexValid = true := fun h => absurd (indexValid_iff.mp h) (Nat.not_lt.mpr hi)
      simp only [List.mem_cons, List.not_mem_nil, or_false] at ha
      rcases ha with rfl | rfl
      · exact congrArg _ (if_neg invalid)
      · exact congrArg _ (if_neg invalid)

end Sys2Proof.Machine
end
